-- ==== Sys2Proof/Word.lean ====
section
/-! DEFINITION. The words of the block: bytes, the 16-bit length, the 32-bit count of milliseconds.
00_scope.md R9: every quantity is unsigned. -/

namespace Sys2Proof

/-- `u8` of R9: one byte of a frame, of RXBUF or of a stream. -/
abbrev Byte := BitVec 8

/-- `u16` of R9: a payload length (D5, R139). -/
abbrev Length := BitVec 16

/-- `u32` of R9: TIMEOUT and readings of NowMs() (D9, R221). -/
abbrev Millis := BitVec 32

end Sys2Proof
end

