-- ==== Sys2Proof/Config.lean ====
section
/-! DEFINITION. What is fixed for the block: the parameters of 00_scope.md R7 and R8, and the free values, which are
opaque: nothing in Lean can evaluate one or prove a value of it. -/

namespace Sys2Proof

/-- R7 `SHORT_MAX`: the largest payload length sent in the short form (R91). -/
def Config.shortMax : Nat := 255

/-- R7 `MAX_RESP`: the largest declared length DECODE accepts, and the number of bytes of RXBUF (R21, R140). -/
def Config.maxResp : Nat := 265

/-- R7 `TIMEOUT_DEFAULT`: TIMEOUT after reset, in milliseconds (R27, R33). -/
def Config.timeoutDefault : Millis := 1000

/-- R7 `CANCEL_SLEEP_MS`: the sleep inside the cancel sequence (R160). -/
def Config.cancelSleepMs : Nat := 1

/-- The number of tick_1ms pulses CAN_SLEEP waits for (60_exceptions.md R224, decision D25). -/
def Config.sleepTicks : Millis := 2

/-- R7 `ACK_PAYLOAD`: the payload ASSERTACK accepts (R181). -/
def Config.ackPayload : List Byte := [0xD5, 0x33]

/-- R8 `PREAMBLE_MISMATCH_CANCEL` at the spec's default: a wrong preamble sends the cancel sequence (R134,
90_conflicts.md C2). Log entry 19. -/
def Config.preambleMismatchCancels : Bool := true

/-- R8 `EXT_SHORT_READ` at the spec's default (Invalid, cancel sent): the cancel half of it (R136, decision D12).
Log entry 19. -/
def Config.extShortReadCancels : Bool := true

/-- FREE VALUE (log entry 10). Whether the clock is tested before the bytes in a read request under TIMEOUT = 0
(R223: "a model admits both"). Applied to the counter `draw`. -/
opaque Config.zeroTimeoutExpires : Nat → Bool

/-- FREE VALUE (log entry 10). How many of the waiting bytes such an expired request takes with it (R62). -/
opaque Config.zeroTimeoutLost : Nat → Nat

/-- FREE VALUE (log entry 5). The byte an unspecified RXBUF index reads as (R23, R33): of `draw` and the index. -/
opaque Config.freeRxByte : Nat → Nat → Byte

/-- FREE VALUE (log entry 27). RXLEN after a SENDRAW that did not end in Success (R23). -/
opaque Config.freeRxlen : Nat → BitVec 9

end Sys2Proof
end

