-- ==== Sys2Proof/Syntax.lean ====
section
/-! DEFINITION. The instructions of the block: one constructor per row of spec/opcode_table.json
(30_encoding.md R102), and the Result variants an operand of ASSERTACK is one of. -/

namespace Sys2Proof

/-- The Result of an operation: 10_state.md R28, 60_exceptions.md R200. -/
inductive Result where
  | success
  | failed
  | noAck
  | invalid
  | notFound
  deriving DecidableEq, Repr, Inhabited

/-- The frame forms and the host operations of R102. -/
inductive Instr where
  /-- Row ACK: the fixed frame the device sends first (R81, R131). -/
  | ack
  /-- Row CANCEL: the same six bytes, sent by the block (R84, R160). -/
  | cancel
  /-- Row DATA_SHORT: a short-form data frame with the header bytes LEN and LCS (R82). -/
  | dataShort (len lcs : Byte)
  /-- Row DATA_EXT: an extended-form data frame with LENH, LENL and LCS (R83). -/
  | dataExt (lenH lenL lcs : Byte)
  /-- Row SENDRAW: the operand is the payload length, the payload itself comes on the payload stream (R170, R36). -/
  | sendRaw (len : Length)
  /-- Row ASSERTACK: the operand is the previous Result (R180). -/
  | assertAck (prev : Result)
  /-- Row SETTIMEOUT: the new TIMEOUT in milliseconds (R183). -/
  | setTimeout (t : Millis)
  /-- Row RESERVED_OP0: the reserved op code 0 (R100). -/
  | reservedOp0
  deriving DecidableEq, Repr

end Sys2Proof
end

