-- ==== Sys2Proof/WellFormed.lean ====
section
/-! DEFINITION. Which instructions are well formed. -/

namespace Sys2Proof

/-- A short-form header whose LEN and LCS are both `FF` does not exist: those five bytes announce the extended
form (30_encoding.md R92: "the pair LEN = 0xFF, LCS = 0xFF" is the marker). A wrong LCS is well formed: it is a frame
the decoder recognises and then fails (R95, R138). Every other operand value is legal: each LENH, LENL, LCS (R96),
each length (R170), each Result (R181), each timeout (R183). -/
def Instr.wellFormed : Instr → Bool
  | .ack => true
  | .cancel => true
  | .dataShort len lcs => !(len == 0xFF && lcs == 0xFF)
  | .dataExt _ _ _ => true
  | .sendRaw _ => true
  | .assertAck _ => true
  | .setTimeout _ => true
  | .reservedOp0 => true

end Sys2Proof
end

