-- ==== Sys2Proof/Decode.lean ====
section
/-! DEFINITION. From words to instructions and back: the frame forms of 30_encoding.md and the command port of
10_state.md R36. Decoding is total and rejects by name; the encoder is written from the same tables. -/

namespace Sys2Proof

/-- Which way a frame travels. ACK and CANCEL are the same six bytes and differ in this only (R84, log entry 3). -/
inductive Direction where
  | fromDevice
  | toDevice
  deriving DecidableEq, Repr

/-- What the host puts on the command port: op_code[1:0] and op_arg[31:0] (R36). -/
structure Command where
  opCode : BitVec 2
  opArg : BitVec 32
  deriving DecidableEq, Repr

/-- What is decoded: an operation on the command port, or the bytes of a fixed-count read or of a header, in wire
order (R67). -/
inductive Words where
  | command (c : Command)
  | wire (d : Direction) (bytes : List Byte)
  deriving DecidableEq, Repr

/-- Why words are no instruction. -/
inductive Reject where
  /-- op_arg[2:0] of ASSERTACK is one of the reserved codes 5 to 7 (R28, R182). -/
  | reservedResult (code : BitVec 3)
  /-- Six bytes that are not the fixed frame (R131). -/
  | notFixedFrame
  /-- The first three header bytes are not `00 00 FF` (R134). -/
  | badPreamble
  /-- Five header bytes that end in the marker `FF FF`: three more follow (R92). -/
  | extendedFollows
  /-- Eight header bytes without the marker `FF FF` (R83). -/
  | notExtended
  /-- A number of bytes that is no fixed frame and no header (R90, R102). -/
  | wrongLength (n : Nat)
  deriving DecidableEq, Repr

/-- What decoding answers. -/
inductive Decoded where
  | ok (i : Instr)
  | rejected (r : Reject)
  deriving DecidableEq, Repr

/-- The ACK frame and the cancel frame (R81, R84). -/
def fixedFrame : List Byte := [0x00, 0x00, 0xFF, 0x00, 0xFF, 0x00]

/-- The 3-bit code of a Result (R28). -/
def Result.code : Result → BitVec 3
  | .success => 0
  | .failed => 1
  | .noAck => 2
  | .invalid => 3
  | .notFound => 4

/-- The Result of a 3-bit code; 5 to 7 are reserved (R28). -/
def resultOfCode (k : BitVec 3) : Option Result :=
  match k.toNat with
  | 0 => some .success
  | 1 => some .failed
  | 2 => some .noAck
  | 3 => some .invalid
  | 4 => some .notFound
  | _ => none

/-- R100 and R36: the op codes, and the bits of op_arg each operation reads. Op code 0 is reserved and is the
constructor the table gives it. -/
def decodeCommand (c : Command) : Decoded :=
  match c.opCode.toNat with
  | 1 => .ok (.sendRaw (c.opArg.setWidth 16))
  | 2 =>
    match resultOfCode (c.opArg.setWidth 3) with
    | some r => .ok (.assertAck r)
    | none => .rejected (.reservedResult (c.opArg.setWidth 3))
  | 3 => .ok (.setTimeout c.opArg)
  | _ => .ok .reservedOp0

/-- The preamble `00 00 FF` of every frame (R80). -/
def preambleOk (a b c : Byte) : Bool := a == 0x00 && b == 0x00 && c == 0xFF

/-- The bytes `FF FF` at offsets 3 and 4 (R83, R92). -/
def extMarker (d e : Byte) : Bool := d == 0xFF && e == 0xFF

/-- The six-byte fixed frame: read from the device it is the ACK frame, sent to the device the cancel frame (R84). -/
def decodeFixed (d : Direction) (bytes : List Byte) : Decoded :=
  if bytes = fixedFrame then
    match d with
    | .fromDevice => .ok .ack
    | .toDevice => .ok .cancel
  else .rejected .notFixedFrame

/-- Recognition by length and content (R92, R93, R102): five bytes are a short-form header, six the fixed frame, eight
an extended-form header. -/
def decodeWire (d : Direction) (bytes : List Byte) : Decoded :=
  match bytes with
  | [h0, h1, h2, len, lcs] =>
    if preambleOk h0 h1 h2 = false then .rejected .badPreamble
    else if extMarker len lcs = true then .rejected .extendedFollows
    else .ok (.dataShort len lcs)
  | [_, _, _, _, _, _] => decodeFixed d bytes
  | [h0, h1, h2, h3, h4, lenH, lenL, lcs] =>
    if preambleOk h0 h1 h2 = false then .rejected .badPreamble
    else if extMarker h3 h4 = false then .rejected .notExtended
    else .ok (.dataExt lenH lenL lcs)
  | _ => .rejected (.wrongLength bytes.length)

/-- The decoder of the block, total on any words. -/
def decode : Words → Decoded
  | .command c => decodeCommand c
  | .wire d bytes => decodeWire d bytes

/-- The words of an instruction, from R81, R82, R83, R100 and R36. Bits of op_arg outside the operand are 0. -/
def encode : Instr → Words
  | .ack => .wire .fromDevice fixedFrame
  | .cancel => .wire .toDevice fixedFrame
  | .dataShort len lcs => .wire .fromDevice [0x00, 0x00, 0xFF, len, lcs]
  | .dataExt lenH lenL lcs => .wire .fromDevice [0x00, 0x00, 0xFF, 0xFF, 0xFF, lenH, lenL, lcs]
  | .sendRaw len => .command ⟨1, len.setWidth 32⟩
  | .assertAck prev => .command ⟨2, prev.code.setWidth 32⟩
  | .setTimeout t => .command ⟨3, t⟩
  | .reservedOp0 => .command ⟨0, 0⟩

/-- The bytes of words that travel on the wire; a command has none. -/
def Words.bytes : Words → List Byte
  | .command _ => []
  | .wire _ bytes => bytes

/-- The number of bits spec/opcode_table.json gives the words' row (`width_bits`): two for an op code. -/
def Words.tableBits : Words → Nat
  | .command _ => 2
  | .wire _ bytes => 8 * bytes.length

/-- The `n` bytes of the number `w`, most significant byte first: the table's `match` column, whose bit strings are
"first byte first, most significant bit of each byte first". -/
def bytesMsbFirst (n w : Nat) : List Byte :=
  (List.range n).map fun i => BitVec.ofNat 8 (w / 256 ^ (n - 1 - i))

/-- The `n` bytes of the number `w`, least significant byte first. -/
def bytesLsbFirst (n w : Nat) : List Byte :=
  (List.range n).map fun i => BitVec.ofNat 8 (w / 256 ^ i)

/-- The command a row of at most eight bits stands for: op_code is the two bits, op_arg is 0. -/
def tableCommand (w : Nat) : Command := ⟨BitVec.ofNat 2 w, 0⟩

/-- The wire bytes a numbered row of `nbits` bits stands for: the layout of the table's `match` column, and the
layout with the first byte in bits 7 to 0 where the first is no frame. A number that is a frame in both layouts is the
same bytes in both (log entry 4). -/
def tableBytes (nbits w : Nat) : List Byte :=
  match decodeWire .fromDevice (bytesMsbFirst (nbits / 8) w) with
  | .ok _ => bytesMsbFirst (nbits / 8) w
  | .rejected _ => bytesLsbFirst (nbits / 8) w

/-- The words of a numbered row of the opcode table. -/
def tableWords (nbits w : Nat) : Words :=
  if nbits ≤ 8 then .command (tableCommand w) else .wire .fromDevice (tableBytes nbits w)

/-- The instruction the decoder reads from the row's bits. A 48-bit word is read as coming from the device, so the
word the rows ACK and CANCEL share is `ack` (log entry 3). -/
def decodeTableWord (nbits w : Nat) : Option Instr :=
  if nbits ≤ 8 ∧ 4 ≤ w then none
  else
    match decode (tableWords nbits w) with
    | .ok i => some i
    | .rejected _ => none

end Sys2Proof
end

