-- ==== Sys2Proof/Machine/State.lean ====
section
/-! DEFINITION. Everything the spec gives the machine, as plain data: the architectural state (10_state.md R20), the
hidden working state (R29, R30), the Result output (R28), and the host's and the transport's side as the queues and
levels the block sees (R34 to R37, 20_memory.md R50). -/

namespace Sys2Proof.Machine

/-- The fifteen values of the sequencer state register SEQ (R25). -/
inductive SeqState where
  | idle | txFlush | txHeader | txPayload | txTrailer
  | rxAck | rxHdr | rxExt | rxCheck | rxPayload | rxTrailer
  | canTx | canSleep | canFlush | done
  deriving DecidableEq, Repr

/-- The transport events of 00_scope.md R12. A read request is one event, with the bytes it got, or with the number
of bytes that were lost when it timed out (R59, R62). -/
inductive Event where
  | flush
  | write (bytes : List Byte)
  | readOk (n : Nat) (bytes : List Byte)
  | readTimeout (n lost : Nat)
  | sleep (ms : Nat)
  deriving DecidableEq, Repr

/-- What the environment does next on the receive side: a byte arrives, or one tick_1ms pulse passes (R37, R63). -/
inductive Arrival where
  | byte (b : Byte)
  | tick
  deriving DecidableEq, Repr

/-- RXBUF: the bytes that have a specified value, by rising index. An unlisted index has no value of its own and reads
as a free value (R23, log entry 5). -/
abbrev Memory := List Host.Cell

/-- The canonical form of RXBUF: indices strictly rising, all of them among 0 to 264 (R21, R51). -/
abbrev Memory.wf (m : Memory) : Prop :=
  List.Pairwise (fun c d => c.1 < d.1) m ∧ ∀ c ∈ m, c.1 < Config.maxResp

/-- HDR[0..7] of R29. -/
structure Hdr where
  b0 : Byte
  b1 : Byte
  b2 : Byte
  b3 : Byte
  b4 : Byte
  b5 : Byte
  b6 : Byte
  b7 : Byte
  deriving DecidableEq, Repr, Inhabited

/-- The hidden working state of R29 and R30. -/
structure Hidden where
  hdr : Hdr
  dlen : Length
  rsum : Byte
  cnt : Length
  pend : Result
  t0 : Millis
  tlen : Length
  tsum : Byte
  deriving DecidableEq, Repr, Inhabited

end Sys2Proof.Machine

/-- FREE VALUE (log entry 7). The hidden working state after the SENDRAW that used it: unspecified (R29, U11).
Applied to the counter `draw`. -/
opaque Sys2Proof.Config.freeHidden : Nat → Sys2Proof.Machine.Hidden

namespace Sys2Proof.Machine

/-- The state of the block and of what it is connected to. -/
structure State where
  /-- RXBUF (R21). -/
  rxbuf : Memory
  /-- RXLEN (R22). -/
  rxlen : BitVec 9
  /-- TIMEOUT (R27). -/
  timeout : Millis
  /-- SEQ (R24). -/
  seq : SeqState
  /-- HDR, DLEN, RSUM, CNT, PEND, T0, TLEN, TSUM (R29, R30). -/
  hid : Hidden
  /-- The pulse done_valid with res_code: the Result delivered by the step that led here (R28, R36). -/
  done : Option Result
  /-- The level of rst (R36, R240). -/
  rst : Bool
  /-- The operations the host offers, the first is on the command port (R34, R36, R247). -/
  ops : List Command
  /-- The payload stream: bytes offered and not yet taken (R52). -/
  pl : List Byte
  /-- The RX wire stream: bytes that have arrived and are not yet taken, oldest first (R54). -/
  rx : List Byte
  /-- What the environment has still to do on the receive side, in order (R63). -/
  coming : List Arrival
  /-- Whether milliseconds go on passing after `coming` (R66). -/
  clockRuns : Bool
  /-- NowMs() (R65): the count of tick_1ms pulses. -/
  now : Millis
  /-- Bytes handed to TxWrite that are still in the transport's output path (R53, R57). A step moves them out of it at a
  flush only; that they leave it on their own is the environment's act between two steps (log entry 30). -/
  txQueue : List Byte
  /-- Bytes that have left it. The TX wire stream of R53 is `txSent ++ txQueue`. -/
  txSent : List Byte
  /-- How many more bytes the transport accepts; `none` is without limit (R66, R252). -/
  txRoom : Option Nat
  /-- The level of flush_done (R37). -/
  flushDone : Bool
  /-- The transport events so far, NEWEST FIRST (R12, log entry 21). -/
  trace : List Event
  /-- The model's own counter, which the free values are applied to (log entry 9). -/
  draw : Nat
  deriving DecidableEq, Repr

end Sys2Proof.Machine

/-- FREE VALUE (log entries 22 and 32). What the host reads on rb_data where the spec gives no value (R248, U10): of the
whole state, so that it may differ from one state to the next, and of rb_addr. -/
opaque Sys2Proof.Config.freePortByte : Sys2Proof.Machine.State → Nat → Sys2Proof.Byte

/-- FREE VALUE (log entries 22 and 32). What the host reads on rxlen while the block is busy (R248): of the whole state. -/
opaque Sys2Proof.Config.freePortLen : Sys2Proof.Machine.State → BitVec 9

namespace Sys2Proof.Machine

/-- Why a step stops with a fault. -/
inductive Fault where
  /-- Raised by the payload read when DLEN is above 265, so that a byte would go to an RXBUF index that does not exist
  (R51: "An index above 264 does not exist"). No state of the invariant `State.Inv` raises it. Safe: the machine stops
  where the spec gives no effect. Log entry 16. -/
  | rxbufIndex (declared : Nat)
  deriving DecidableEq, Repr

/-- Why there is no meaning. -/
inductive Refusal where
  /-- Raised by an arm of `exec` whose instruction has no meaning yet; no arm does. Safe. -/
  | notModelled (mnemonic : String)
  /-- Raised by RESERVED_OP0: op code 0 is reserved and refused (R100, R184, U3). Safe. Log entry 14. -/
  | reservedOpCode
  /-- Raised by the step when ASSERTACK is offered with a reserved Result code 5 to 7 (R28, R182, U4). Safe. Log
  entry 14. -/
  | reservedResultCode (code : BitVec 3)
  /-- Raised by a host operation executed while BUSY = 1 (R247, U1: "no transition accepts an operation outside
  IDLE"). The step never does so: it holds the operation. Safe. Log entry 15. -/
  | busy
  /-- Raised by a frame executed where the sequencer does not expect it (R93: recognition is by position). The step
  never does so from a state of `State.Inv`. Safe. Log entry 15. -/
  | outOfPosition
  deriving DecidableEq, Repr

/-- The hidden working state after reset: unspecified in the spec (R33), zero in the model (log entry 6). -/
def Hidden.reset : Hidden :=
  ⟨⟨0, 0, 0, 0, 0, 0, 0, 0⟩, 0, 0, 0, .success, 0, 0, 0⟩

/-- The machine right after reset (R33, R241): idle, TIMEOUT = 1000, RXLEN = 0, RXBUF unspecified, no Result pending;
no operation is offered, the streams are empty and the environment keeps the duties of R66 (log entry 8). -/
def State.reset : State where
  rxbuf := []
  rxlen := 0
  timeout := Config.timeoutDefault
  seq := .idle
  hid := Hidden.reset
  done := none
  rst := false
  ops := []
  pl := []
  rx := []
  coming := []
  clockRuns := true
  now := 0
  txQueue := []
  txSent := []
  txRoom := none
  flushDone := true
  trace := []
  draw := 0

end Sys2Proof.Machine
end

