-- ==== Sys2Proof/Machine/Operands.lean ====
section
/-! DEFINITION. Operand forms and the byte arithmetic on them: checksums, the assembly of a length, the frame of a
payload, the working bytes HDR, and the bytes of RXBUF. -/

namespace Sys2Proof.Machine

/-- `sum8` of 00_scope.md R10: the byte sum modulo 256. -/
def sum8 : List Byte → Byte
  | [] => 0
  | b :: s => b + sum8 s

/-- `neg8` of R10: `(256 - v) mod 256`. -/
def neg8 (v : Byte) : Byte := 0 - v

/-- The checksum function of 40_encode.md R110. -/
def cks (s : List Byte) : Byte := neg8 (sum8 s)

/-- `n[15:8]` (30_encoding.md R85). -/
def lenHigh (n : Length) : Byte := BitVec.ofNat 8 (n.toNat / 256)

/-- `n[7:0]` (R85). -/
def lenLow (n : Length) : Byte := BitVec.ofNat 8 n.toNat

/-- `LEN = 256 × LENH + LENL` (R85, R137). -/
def extLength (lenH lenL : Byte) : Length := BitVec.ofNat 16 (256 * lenH.toNat + lenL.toNat)

/-- A short-form LEN, used as it stands (R85, R138). -/
def shortLength (len : Byte) : Length := BitVec.ofNat 16 len.toNat

/-- The data frame that carries a payload of `n` bytes: short form if and only if `n ≤ 255` (R91), with the length
checksums of R86 and R87. -/
def txFrame (n : Length) : Instr :=
  if n.toNat ≤ Config.shortMax then .dataShort (lenLow n) (neg8 (lenLow n))
  else .dataExt (lenHigh n) (lenLow n) (neg8 (lenHigh n + lenLow n))

/-- The header bytes of a frame to send. -/
def txHeader (n : Length) : List Byte := (encode (txFrame n)).bytes

/-- The trailer of a data frame whose payload bytes sum to `sum`: DCS and the trailing zero (R88, R89). -/
def txTrailer (sum : Byte) : List Byte := [neg8 sum, 0x00]

/-- `frame(P)` of 40_encode.md R114. -/
def frame (p : List Byte) : List Byte :=
  txHeader (BitVec.ofNat 16 p.length) ++ p ++ txTrailer (sum8 p)

/-- Writing HDR[i]. -/
def Hdr.put (h : Hdr) (i : Nat) (b : Byte) : Hdr :=
  match i with
  | 0 => { h with b0 := b }
  | 1 => { h with b1 := b }
  | 2 => { h with b2 := b }
  | 3 => { h with b3 := b }
  | 4 => { h with b4 := b }
  | 5 => { h with b5 := b }
  | 6 => { h with b6 := b }
  | 7 => { h with b7 := b }
  | _ => h

/-- Writing bytes to HDR[i], HDR[i+1], … -/
def Hdr.putAll (h : Hdr) (i : Nat) : List Byte → Hdr
  | [] => h
  | b :: s => (h.put i b).putAll (i + 1) s

/-- HDR[0] to HDR[7] in order. -/
def Hdr.bytes (h : Hdr) : List Byte := [h.b0, h.b1, h.b2, h.b3, h.b4, h.b5, h.b6, h.b7]

/-- The data frame whose header HDR holds: extended form if HDR[3] and HDR[4] are the marker, else short form
(R92, R135). -/
def rxFrame (h : Hdr) : Instr :=
  if extMarker h.b3 h.b4 = true then .dataExt h.b5 h.b6 h.b7 else .dataShort h.b3 h.b4

/-- The specified value of RXBUF[i], if it has one. -/
def Memory.read? (m : Memory) (i : Nat) : Option Byte :=
  match m with
  | [] => none
  | (k, b) :: r => if k = i then some b else Memory.read? r i

/-- `RXBUF[i] <- b` (R11): keeps the canonical form. -/
def Memory.write (m : Memory) (i : Nat) (b : Byte) : Memory :=
  match m with
  | [] => [(i, b)]
  | (k, v) :: r =>
    if i < k then (i, b) :: (k, v) :: r
    else if i = k then (i, b) :: r
    else (k, v) :: Memory.write r i b

/-- Writing bytes to RXBUF[i], RXBUF[i+1], … (R141). -/
def Memory.writeAll (m : Memory) (i : Nat) : List Byte → Memory
  | [] => m
  | b :: s => Memory.writeAll (Memory.write m i b) (i + 1) s

/-- RXBUF with only the indices below `n` keeping a specified value (R23). -/
def Memory.below (m : Memory) (n : Nat) : Memory := m.filter fun c => c.1 < n

/-- Reading RXBUF[i] as the block does (R11): its specified value, or a free value (R23, log entry 5). -/
def State.rxByte (s : State) (i : Nat) : Byte :=
  (Memory.read? s.rxbuf i).getD (Config.freeRxByte s.draw i)

/-- RXBUF[0 .. n-1]. -/
def State.rxBytes (s : State) (n : Nat) : List Byte := (List.range n).map s.rxByte

end Sys2Proof.Machine
end

