-- ==== Sys2Proof/Machine/Flags.lean ====
section
/-! DEFINITION. Status outputs and the checks of DECODE: BUSY and the ports of 10_state.md R26, R36, R37, the length
checksum, the trailer check and the timer of 60_exceptions.md R221. -/

namespace Sys2Proof.Machine

/-- BUSY = 1 exactly when SEQ ≠ IDLE (R26). -/
def State.busy (s : State) : Bool := decide (s.seq ≠ .idle)

/-- Whether SEQ is a state with a read request open. -/
def SeqState.reads : SeqState → Bool
  | .rxAck => true
  | .rxHdr => true
  | .rxExt => true
  | .rxPayload => true
  | .rxTrailer => true
  | _ => false

/-- Whether SEQ is a state that hands bytes to the transport. -/
def SeqState.writes : SeqState → Bool
  | .txHeader => true
  | .txPayload => true
  | .txTrailer => true
  | .canTx => true
  | _ => false

/-- `op_ready` = 1 only when SEQ = IDLE (R36); 0 under reset, which takes no operation (log entry 31). -/
def State.opReady (s : State) : Bool := !s.rst && !s.busy

/-- `op_valid`: the host offers an operation (R36). -/
def State.opValid (s : State) : Bool := !s.ops.isEmpty

/-- `pl_valid`: the host offers a payload byte (R36). -/
def State.plValid (s : State) : Bool := !s.pl.isEmpty

/-- `tx_ready`: the transport takes a byte (R37). -/
def State.txReady (s : State) : Bool := decide (s.txRoom ≠ some 0)

/-- `pl_ready`: the block takes a payload byte, in TX_PAYLOAD only (R36). A byte it takes goes to the transport at once
(R30: the payload is not stored in the block), so a byte must still be due and the transport must take it. -/
def State.plReady (s : State) : Bool :=
  !s.rst && decide (s.seq = .txPayload) && decide (s.hid.cnt ≠ 0) && s.txReady

/-- `tx_valid`: the block has a byte for the transport (R37); in TX_PAYLOAD it is the host's. -/
def State.txValid (s : State) : Bool :=
  !s.rst && s.seq.writes && decide (s.hid.cnt ≠ 0) && (decide (s.seq ≠ .txPayload) || s.plValid)

/-- `rx_valid`: a byte has arrived and is not yet taken (R37). -/
def State.rxValid (s : State) : Bool := !s.rx.isEmpty

/-- How many bytes a request under TIMEOUT = 0 that expires at once may take with it: fewer than it asks for (R62,
R223, log entry 10). -/
def State.zeroMayLose (s : State) : Nat := min (Config.zeroTimeoutLost s.draw) (s.hid.cnt.toNat - 1)

/-- Whether the open read request expires before it takes a byte: under TIMEOUT = 0 only (R223, log entry 10). -/
def State.zeroTakesNone (s : State) : Bool :=
  decide (s.timeout = 0) && Config.zeroTimeoutExpires s.draw && decide (s.zeroMayLose = 0)

/-- `rx_ready` = 1 only inside a read request (R37). -/
def State.rxReady (s : State) : Bool :=
  !s.rst && s.seq.reads && decide (s.hid.cnt ≠ 0) && !s.zeroTakesNone

/-- `flush_req`: the two places a flush is asked for (R37, R57). -/
def State.flushReq (s : State) : Bool := !s.rst && (decide (s.seq = .txFlush) || decide (s.seq = .canFlush))

/-- `done_valid` (R36). -/
def State.doneValid (s : State) : Bool := s.done.isSome

/-- `res_code`, valid with done_valid (R36, R28). -/
def State.resCode (s : State) : Option (BitVec 3) := s.done.map Result.code

/-- `rb_data` for `rb_addr` (R37): RXBUF[rb_addr] while idle and for an address up to 264; else a free value
(R248, U9, U10, log entry 22). DESIGN CHOICE (log entry 32): that free value is one for each state and address, so two
reads of one address in one state agree, and of reads in different states nothing is said. -/
def State.rbData (s : State) (addr : BitVec 9) : Byte :=
  if s.busy = false ∧ addr.toNat < Config.maxResp then s.rxByte addr.toNat
  else Config.freePortByte s addr.toNat

/-- `rxlen` (R37): RXLEN while idle; unspecified while busy (R248, log entry 22). DESIGN CHOICE (log entry 32): the free
value read while busy is one for each state. -/
def State.rxlenPort (s : State) : BitVec 9 :=
  if s.busy = true then Config.freePortLen s else s.rxlen

/-- `timeout` (R37, R27): TIMEOUT, at any time. -/
def State.timeoutPort (s : State) : Millis := s.timeout

/-- R86 and R87: the bytes of the length field sum to 0 modulo 256. -/
def lengthChecksumOk (bytes : List Byte) : Bool := sum8 bytes == 0

/-- R143: `T[0] = neg8(RSUM)` and `T[1] = 0x00`. -/
def trailerOk (rsum t0 t1 : Byte) : Bool := t0 == neg8 rsum && t1 == 0x00

/-- `(NowMs() - T0) mod 2^32` (R221). -/
def State.elapsed (s : State) : Millis := s.now - s.hid.t0

/-- The elapsed time has reached `ms` (R221: "reached", elapsed ≥ T). -/
def State.elapsedReached (s : State) (ms : Millis) : Bool := decide (ms.toNat ≤ s.elapsed.toNat)

end Sys2Proof.Machine
end

