-- ==== Sys2Proof/Machine/Ops.lean ====
section
/-! DEFINITION. The named operations over the state: sequencing, the transport primitives of 00_scope.md R12, the
failure path (the block's exception entry, 60_exceptions.md R211) and its end, and the phases of a data frame
(43_transaction.md R185). -/

namespace Sys2Proof.Machine

/-! ### Sequencing -/

/-- `SEQ <- q`. -/
def State.goto (q : SeqState) (s : State) : State := { s with seq := q }

/-- SEQ enters a state that hands over `n` bytes: CNT counts them (R29). -/
def State.startWrite (q : SeqState) (n : Nat) (s : State) : State :=
  { s with seq := q, hid := { s.hid with cnt := BitVec.ofNat 16 n } }

/-- SEQ enters a state with a read request for `n` bytes: CNT counts them, T0 notes the time (R29, R221). -/
def State.startRead (q : SeqState) (n : Nat) (s : State) : State :=
  { s with seq := q, hid := { s.hid with cnt := BitVec.ofNat 16 n, t0 := s.now } }

/-- A transport event is added to the trace: a read request, a sleep and a flush when they are over (log entry 33). -/
def State.emit (e : Event) (s : State) : State := { s with trace := e :: s.trace }

/-- The pulse of the step before is over: done_valid is 1 for one cycle (R36, log entry 26). -/
def State.nextCycle (s : State) : State := { s with done := none }

/-! ### Taking a failure and returning from it -/

/-- `fail(r, c)` of R13, the block's exception entry (R211): PEND takes the Result; with cancel the sequencer goes to
the cancel sequence, else straight to DONE (R185: "→ CAN(r)" and "→ DONE(r)"). Nothing else is saved, masked or
switched. -/
def State.fail (r : Result) (cancel : Bool) (s : State) : State :=
  let t : State := { s with hid := { s.hid with pend := r } }
  if cancel then t.startWrite .canTx fixedFrame.length else t.goto .done

/-- `finish(r)` of R13: the Result goes to the host and the sequencer returns to IDLE. -/
def State.finish (r : Result) (s : State) : State := { s with done := some r, seq := .idle }

/-- The received state after a SENDRAW that ended in Success (R23, R144): RXLEN is DLEN and RXBUF keeps the payload;
the bytes from RXLEN on are unspecified, so they read as free values drawn anew. -/
def State.keepPayload (s : State) : State :=
  { s with rxlen := s.hid.dlen.setWidth 9, rxbuf := Memory.below s.rxbuf s.hid.dlen.toNat, draw := s.draw + 1 }

/-- The received state after any other Result (R23, R211): RXLEN and every byte of RXBUF are free values drawn anew. -/
def State.losePayload (s : State) : State :=
  { s with rxlen := Config.freeRxlen s.draw, rxbuf := [], draw := s.draw + 1 }

/-- The hidden working state is unspecified outside the operation that uses it (R29, log entry 7). -/
def State.forgetHidden (s : State) : State := { s with hid := Config.freeHidden s.draw }

/-- DONE, the return from every SENDRAW (R185, R213): PEND is delivered, on Success RXLEN is stored, SEQ is IDLE. -/
def State.deliver (s : State) : State :=
  if s.hid.pend = .success then (s.keepPayload.forgetHidden).finish s.hid.pend
  else (s.losePayload.forgetHidden).finish s.hid.pend

/-! ### The transport: output -/

/-- `Flush()` completed (R57): the output path is empty; the RX wire stream is left alone. DESIGN CHOICE (log entry 30):
no step but this one moves a byte out of the output path; the spec says that the transport may buffer (R73) and not when
a byte leaves it without a flush. DESIGN CHOICE (log entry 33): the call enters the trace here, when the flush completes, so
a pending flush is not in the trace; R12 makes every call an event and does not say at which end of it. -/
def State.flushed (s : State) : State :=
  { s with txSent := s.txSent ++ s.txQueue, txQueue := [], trace := .flush :: s.trace }

/-- How many of `k` bytes the transport accepts now. -/
def State.accepts (s : State) (k : Nat) : Nat :=
  match s.txRoom with
  | none => k
  | some r => min r k

/-- Bytes handed over join the `Write` event of their frame; how a frame is split into calls has no meaning (R53).
They do so as they are handed over (log entry 33). -/
def addWrite (bytes : List Byte) (trace : List Event) : List Event :=
  match bytes, trace with
  | [], tr => tr
  | b :: bs, .write w :: r => .write (w ++ b :: bs) :: r
  | b :: bs, tr => .write (b :: bs) :: tr

/-- `TxWrite(bytes)` for bytes the transport has accepted (R58): they join the TX wire stream, CNT counts them off. -/
def State.write (bytes : List Byte) (s : State) : State :=
  { s with
    txQueue := s.txQueue ++ bytes
    txRoom := s.txRoom.map (· - bytes.length)
    trace := addWrite bytes s.trace
    hid := { s.hid with cnt := BitVec.ofNat 16 (s.hid.cnt.toNat - bytes.length) } }

/-- What is still due of the bytes a writing state hands over: the last CNT of them. -/
def State.due (s : State) (bytes : List Byte) : List Byte := bytes.drop (bytes.length - s.hid.cnt.toNat)

/-- A writing state hands over what is still due, as far as the transport accepts it. -/
def State.send (bytes : List Byte) (s : State) : State :=
  s.write ((s.due bytes).take (s.accepts (s.due bytes).length))

/-- The payload bytes TX_PAYLOAD takes now: those still due that the host has offered and the transport accepts
(R52, R115). -/
def State.payloadNow (s : State) : List Byte :=
  (s.pl.take s.hid.cnt.toNat).take (s.accepts (s.pl.take s.hid.cnt.toNat).length)

/-! ### The transport: input and time -/

/-- The environment's next act on the receive side, if it has one (R63). -/
def State.arrive (s : State) : State :=
  match s.coming with
  | [] => s
  | .byte b :: r => { s with rx := s.rx ++ [b], coming := r }
  | .tick :: r => { s with now := s.now + 1, coming := r }

/-- The block waits for the time T0 + `ms`, or for what comes before: the next arrival; when nothing more comes, the
time passes, if the clock runs (R66), else nothing happens (R252, log entry 13). -/
def State.waitUntil (ms : Millis) (s : State) : State :=
  if s.coming = [] then
    if s.clockRuns then { s with now := s.hid.t0 + ms } else s
  else s.arrive

/-- The number of bytes of the read request of the current state (R59). -/
def State.readCount (s : State) : Nat :=
  match s.seq with
  | .rxAck => 6
  | .rxHdr => 5
  | .rxExt => 3
  | .rxPayload => s.hid.dlen.toNat
  | .rxTrailer => 2
  | _ => 0

/-- Where the bytes of a fixed-size read start in HDR (R29). -/
def State.readBase (s : State) : Nat :=
  match s.seq with
  | .rxExt => 5
  | _ => 0

/-- How many bytes of the request have come in. -/
def State.readSoFar (s : State) : Nat := s.readCount - s.hid.cnt.toNat

/-- Bytes of the request go to their place: the payload to RXBUF and into RSUM (R141), all others to HDR (R29). -/
def State.place (bytes : List Byte) (s : State) : State :=
  match s.seq with
  | .rxPayload =>
    { s with
      rxbuf := Memory.writeAll s.rxbuf s.readSoFar bytes
      hid := { s.hid with rsum := s.hid.rsum + sum8 bytes } }
  | _ => { s with hid := { s.hid with hdr := s.hid.hdr.putAll (s.readBase + s.readSoFar) bytes } }

/-- CNT counts off `n` bytes. -/
def State.countOff (n : Nat) (s : State) : State :=
  { s with hid := { s.hid with cnt := BitVec.ofNat 16 (s.hid.cnt.toNat - n) } }

/-- The request takes what has arrived, from the front of the stream, at most CNT bytes (R54). -/
def State.absorb (s : State) : State :=
  let bytes := s.rx.take s.hid.cnt.toNat
  { (s.place bytes).countOff bytes.length with rx := s.rx.drop s.hid.cnt.toNat }

/-- The bytes of a complete request, as the `Read` event shows them. -/
def State.readBytes (s : State) : List Byte :=
  match s.seq with
  | .rxPayload => s.rxBytes s.hid.dlen.toNat
  | _ => (s.hid.hdr.bytes.drop s.readBase).take s.readCount

/-- The event of a complete request; a request for zero bytes is none (R61). -/
def State.readDone (s : State) : State :=
  if s.readCount = 0 then s else s.emit (.readOk s.readCount s.readBytes)

/-- The event of a request that timed out: the bytes that had arrived are gone (R62). -/
def State.readLost (s : State) : State := s.emit (.readTimeout s.readCount s.readSoFar)

/-- How many of the waiting bytes a request that expires at once takes with it (R62, R223). -/
def State.zeroLost (s : State) : Nat := min s.zeroMayLose s.rx.length

/-- The request under TIMEOUT = 0 that expires at once (R223): what it takes of the waiting bytes is lost. -/
def State.zeroExpire (s : State) : State :=
  { s.countOff s.zeroLost with rx := s.rx.drop s.zeroLost }

/-- One step of a read request (R59). -/
inductive ReadResult where
  /-- All bytes are in place. -/
  | complete (s : State)
  /-- The timeout expired first. -/
  | expired (s : State)
  /-- Neither yet. -/
  | waiting (s : State)
  deriving DecidableEq, Repr

/-- A free value has been used; the next use takes another. -/
def State.drawn (s : State) : State := { s with draw := s.draw + 1 }

/-- One step of the read request under TIMEOUT ≠ 0 (R221): take what has arrived; complete when that is all; expired
when the elapsed time has reached TIMEOUT; else wait. -/
def State.readTimed (s : State) : ReadResult :=
  let t := s.absorb
  if t.hid.cnt = 0 then .complete t.readDone
  else if t.elapsedReached t.timeout then .expired t.readLost
  else .waiting (t.waitUntil t.timeout)

/-- The read request under TIMEOUT = 0 (R223, decision D8): whether the clock or the bytes are tested first is open. -/
def State.readZero (s : State) : ReadResult :=
  if Config.zeroTimeoutExpires s.draw then .expired s.zeroExpire.readLost.drawn
  else
    let t := s.absorb
    if t.hid.cnt = 0 then .complete t.readDone.drawn else .expired t.readLost.drawn

/-- One step of `RxReadExact`. A request with no byte to come is complete (R61). -/
def State.readRequest (s : State) : ReadResult :=
  if s.hid.cnt = 0 then .complete s.readDone
  else if s.timeout = 0 then s.readZero
  else s.readTimed

/-! ### The phases of a data frame (R185) -/

/-- TX_HEADER: the header bytes go out; then the payload, or the trailer when there is none. -/
def State.sendHeader (header : List Byte) (s : State) : State :=
  let t := s.send header
  if t.hid.cnt = 0 then
    if t.hid.tlen = 0 then t.startWrite .txTrailer 2 else t.startWrite .txPayload t.hid.tlen.toNat
  else t

/-- The payload bytes leave the host's stream, go out and into TSUM (R30, R115). -/
def State.takePayload (s : State) : State :=
  let out := s.payloadNow
  { s.write out with
    pl := s.pl.drop out.length
    hid := { (s.write out).hid with tsum := s.hid.tsum + sum8 out } }

/-- TX_PAYLOAD. A host that withholds bytes stalls the block here (R52, R253). -/
def State.sendPayload (s : State) : State :=
  let t := s.takePayload
  if t.hid.cnt = 0 then t.startWrite .txTrailer 2 else t

/-- TX_TRAILER: DCS and the trailing zero; then the ACK read is opened, with nothing between (R171). -/
def State.sendTrailer (s : State) : State :=
  let t := s.send (txTrailer s.hid.tsum)
  if t.hid.cnt = 0 then t.startRead .rxAck 6 else t

/-- RX_CHECK once the length checksum is good: DLEN, the length limit, and on to the payload or, for DLEN = 0, to the
trailer with RSUM = 0 (R139, R140, R185). DESIGN CHOICE (log entry 34): RSUM is cleared here for every good length
checksum; R185 says so for DLEN = 0 only, and R29 names RX_PAYLOAD as the state that writes it. -/
def State.acceptLength (dlen : Length) (s : State) : State :=
  let t : State := { s with hid := { s.hid with dlen := dlen, rsum := 0 } }
  if Config.maxResp < dlen.toNat then t.fail .failed false
  else if dlen = 0 then t.startRead .rxTrailer 2
  else t.startRead .rxPayload dlen.toNat

/-- RX_CHECK (R137, R138, R140): the length checksum over the bytes of the length field, then the length limit. A
failure sends no cancel. -/
def State.checkLength (lengthField : List Byte) (dlen : Length) (s : State) : State :=
  if lengthChecksumOk lengthField then s.acceptLength dlen else s.fail .invalid false

/-- RX_PAYLOAD (R141): a short read is Failed with cancel. -/
def State.receivePayload (s : State) : Host.Outcome State Fault Refusal :=
  if Config.maxResp < s.hid.dlen.toNat then .fault (.rxbufIndex s.hid.dlen.toNat)
  else
    match s.readRequest with
    | .complete t => .next (t.startRead .rxTrailer 2)
    | .expired t => .next (t.fail .failed true)
    | .waiting t => .next t

/-- RX_TRAILER once both bytes are there (R143, R144): Success, or Invalid with cancel. -/
def State.checkTrailer (s : State) : State :=
  if trailerOk s.hid.rsum s.hid.hdr.b0 s.hid.hdr.b1 then
    State.goto .done { s with hid := { s.hid with pend := .success } }
  else s.fail .invalid true

/-- RX_TRAILER (R142): a short read is Invalid with cancel (decision D13). -/
def State.receiveTrailer (s : State) : State :=
  match s.readRequest with
  | .complete t => t.checkTrailer
  | .expired t => t.fail .invalid true
  | .waiting t => t

/-! ### Reset -/

/-- `rst` (R240, R242): the block is as after reset, an operation in flight is abandoned with no Result and no event;
RXBUF is unspecified, so it reads as free values drawn anew; the host's and the transport's side keep what they hold. -/
def State.resetBlock (s : State) : State :=
  { s with
    rxbuf := []
    rxlen := 0
    timeout := Config.timeoutDefault
    seq := .idle
    hid := Hidden.reset
    done := none
    draw := s.draw + 1 }

end Sys2Proof.Machine
end

