-- ==== Sys2Proof/Machine/Frames.lean ====
section
/-! DEFINITION. The meanings of the frame forms: ACK, CANCEL, DATA_SHORT, DATA_EXT. A frame takes several steps; SEQ
says which part of it a step does (43_transaction.md R185, log entries 1 and 2). -/

namespace Sys2Proof.Machine

/-- ACK: the six bytes read at the ACK position are the ACK frame; the header read is opened (R131). -/
def execAck (s : State) : Host.Outcome State Fault Refusal :=
  match s.seq with
  | .rxAck => .next (s.startRead .rxHdr 5)
  | _ => .refused .outOfPosition

/-- CAN_TX: the cancel frame goes out (R160). -/
def State.sendCancel (s : State) : State :=
  let t := s.send fixedFrame
  if t.hid.cnt = 0 then t.startRead .canSleep 0 else t

/-- CAN_SLEEP: SleepMs(1) is over after the second tick_1ms pulse (R64, R224, log entry 12). -/
def State.cancelSleep (s : State) : State :=
  if s.elapsedReached Config.sleepTicks then (s.emit (.sleep Config.cancelSleepMs)).goto .canFlush
  else s.waitUntil Config.sleepTicks

/-- CAN_FLUSH: then the Result in PEND is delivered (R160, R161). -/
def State.cancelFlush (s : State) : State := if s.flushDone then s.flushed.goto .done else s

/-- CANCEL: write the cancel frame, sleep 1 ms, flush; PEND is kept (R160, R161). -/
def execCancel (s : State) : Host.Outcome State Fault Refusal :=
  match s.seq with
  | .canTx => .next s.sendCancel
  | .canSleep => .next s.cancelSleep
  | .canFlush => .next s.cancelFlush
  | _ => .refused .outOfPosition

/-- DATA_SHORT. Sent: header, payload, trailer (R114). Received: the header read has ended (R132), then the length
checks (R138, R140), the payload (R141) and the trailer (R142 to R144). -/
def execDataShort (len lcs : Byte) (s : State) : Host.Outcome State Fault Refusal :=
  match s.seq with
  | .txHeader => .next (s.sendHeader (encode (.dataShort len lcs)).bytes)
  | .txPayload => .next s.sendPayload
  | .txTrailer => .next s.sendTrailer
  | .rxHdr => .next (s.goto .rxCheck)
  | .rxCheck => .next (s.checkLength [len, lcs] (shortLength len))
  | .rxPayload => s.receivePayload
  | .rxTrailer => .next s.receiveTrailer
  | _ => .refused .outOfPosition

/-- DATA_EXT. Sent: header, payload, trailer (R114). Received: the read of the three length bytes has ended (R136),
then the length checks (R137, R140, R96), the payload (R141) and the trailer (R142 to R144). -/
def execDataExt (lenH lenL lcs : Byte) (s : State) : Host.Outcome State Fault Refusal :=
  match s.seq with
  | .txHeader => .next (s.sendHeader (encode (.dataExt lenH lenL lcs)).bytes)
  | .txPayload => .next s.sendPayload
  | .txTrailer => .next s.sendTrailer
  | .rxExt => .next (s.goto .rxCheck)
  | .rxCheck => .next (s.checkLength [lenH, lenL, lcs] (extLength lenH lenL))
  | .rxPayload => s.receivePayload
  | .rxTrailer => .next s.receiveTrailer
  | _ => .refused .outOfPosition

end Sys2Proof.Machine
end

