-- ==== Sys2Proof/Machine/HostOps.lean ====
section
/-! DEFINITION. The meanings of the host operations: SENDRAW, ASSERTACK, SETTIMEOUT and the reserved op code
(43_transaction.md). An operation is accepted in IDLE only (R184). -/

namespace Sys2Proof.Machine

/-- SENDRAW accepted (R184, R185): TLEN takes the length, SEQ ← TX_FLUSH. DESIGN CHOICE (log entry 34): TSUM is cleared
here; R30 gives it from TX_HEADER on, as the sum of the bytes transmitted so far. -/
def State.acceptSendRaw (len : Length) (s : State) : State :=
  { s with seq := .txFlush, hid := { s.hid with tlen := len, tsum := 0 } }

/-- TX_FLUSH: the initial `Flush()`, then the header (R171, R185). -/
def State.firstFlush (s : State) : State :=
  if s.flushDone then s.flushed.startWrite .txHeader (txHeader s.hid.tlen).length else s

/-- SENDRAW (R171): its own parts are the acceptance, the initial flush and the delivery of the Result; between them
run the frames. Outside IDLE no operation is accepted (R247). -/
def execSendRaw (len : Length) (s : State) : Host.Outcome State Fault Refusal :=
  match s.seq with
  | .idle => .next (s.acceptSendRaw len)
  | .txFlush => .next s.firstFlush
  | .done => .next s.deliver
  | _ => .refused .busy

/-- The received payload is exactly `D5 33` (R181). -/
def State.payloadIsAck (s : State) : Bool :=
  decide (s.rxlen.toNat = Config.ackPayload.length) && decide (s.rxBytes Config.ackPayload.length = Config.ackPayload)

/-- The Result of ASSERTACK (R181). -/
def State.ackResult (prev : Result) (s : State) : Result :=
  if prev ≠ .success then prev else if s.payloadIsAck then .success else .noAck

/-- ASSERTACK (R181): no state is written, there is no transport event. -/
def execAssertAck (prev : Result) (s : State) : Host.Outcome State Fault Refusal :=
  match s.seq with
  | .idle => .next (s.finish (s.ackResult prev))
  | _ => .refused .busy

/-- SETTIMEOUT (R183): `TIMEOUT <- t; finish(Success)`. -/
def execSetTimeout (t : Millis) (s : State) : Host.Outcome State Fault Refusal :=
  match s.seq with
  | .idle => .next (State.finish .success { s with timeout := t })
  | _ => .refused .busy

/-- RESERVED_OP0 (R100, R184, U3): "0 is reserved and a model refuses it". -/
def execReservedOp0 (_ : State) : Host.Outcome State Fault Refusal := .refused .reservedOpCode

end Sys2Proof.Machine
end

