-- ==== Sys2Proof/Machine/Dispatch.lean ====
section
/-! DEFINITION. One arm per instruction. -/

namespace Sys2Proof.Machine

/-- The meaning of an instruction in a state. -/
def exec (i : Instr) (s : State) : Host.Outcome State Fault Refusal :=
  match i with
  | .ack => Sys2Proof.Machine.execAck s
  | .cancel => Sys2Proof.Machine.execCancel s
  | .dataShort len lcs => Sys2Proof.Machine.execDataShort len lcs s
  | .dataExt lenH lenL lcs => Sys2Proof.Machine.execDataExt lenH lenL lcs s
  | .sendRaw len => Sys2Proof.Machine.execSendRaw len s
  | .assertAck prev => Sys2Proof.Machine.execAssertAck prev s
  | .setTimeout t => Sys2Proof.Machine.execSetTimeout t s
  | .reservedOp0 => Sys2Proof.Machine.execReservedOp0 s

end Sys2Proof.Machine
end

