-- ==== Sys2Proof/Machine/Fetch.lean ====
section
/-! DEFINITION. Which instruction a step runs. In IDLE it is the operation on the command port; in a reading state of
a header it is the frame the bytes decode to, once the read request has its bytes; in every other state it is the frame
or operation in progress (43_transaction.md R185, 30_encoding.md R92, R93). Bytes that are no frame of the position, and
a read request that times out, take the failure path (41_decode.md R146 rows 1 to 5). -/

namespace Sys2Proof.Machine

/-- What a fetch answers. -/
inductive Fetched where
  /-- The instruction, and the state moved past its words. -/
  | run (i : Instr) (s : State)
  /-- No instruction in this step; the state after it. -/
  | move (s : State)
  /-- The words on the command port are refused. -/
  | reject (r : Refusal)
  deriving DecidableEq, Repr

/-- The refusal of words on the command port. -/
def commandRefusal (r : Reject) : Refusal :=
  match r with
  | .reservedResult k => .reservedResultCode k
  | _ => .reservedOpCode

/-- IDLE (R184): the operation on the command port is taken; with none offered the block does nothing (R241) and the
environment goes on. -/
def fetchCommand (s : State) : Fetched :=
  match s.ops with
  | [] => .move s.arrive
  | c :: rest =>
    match decode (.command c) with
    | .ok i => .run i { s with ops := rest }
    | .rejected r => .reject (commandRefusal r)

/-- RX_ACK (R131): any mismatch or short read is NoAck with cancel. -/
def fetchAck (s : State) : Fetched :=
  match s.readRequest with
  | .complete t =>
    match decode (.wire .fromDevice (t.hid.hdr.bytes.take 6)) with
    | .ok i => .run i t
    | .rejected _ => .move (t.fail .noAck true)
  | .expired t => .move (t.fail .noAck true)
  | .waiting t => .move t

/-- RX_HDR (R132 to R135): a short read is Failed with cancel, a wrong preamble Invalid with cancel, the marker opens
the read of the three extended-length bytes, any other header is a short-form frame. -/
def fetchHeader (s : State) : Fetched :=
  match s.readRequest with
  | .complete t =>
    match decode (.wire .fromDevice (t.hid.hdr.bytes.take 5)) with
    | .ok i => .run i t
    | .rejected .extendedFollows => .move (t.startRead .rxExt 3)
    | .rejected _ => .move (t.fail .invalid Config.preambleMismatchCancels)
  | .expired t => .move (t.fail .failed true)
  | .waiting t => .move t

/-- RX_EXT (R136): the eight header bytes are an extended-form frame; a short read is Invalid, with cancel by decision
D12. -/
def fetchExtended (s : State) : Fetched :=
  match s.readRequest with
  | .complete t => .run (.dataExt t.hid.hdr.b5 t.hid.hdr.b6 t.hid.hdr.b7) t
  | .expired t => .move (t.fail .invalid Config.extShortReadCancels)
  | .waiting t => .move t

/-- The instruction of the current step. -/
def fetch (s : State) : Fetched :=
  match s.seq with
  | .idle => fetchCommand s
  | .txFlush => .run (.sendRaw s.hid.tlen) s
  | .txHeader => .run (txFrame s.hid.tlen) s
  | .txPayload => .run (txFrame s.hid.tlen) s
  | .txTrailer => .run (txFrame s.hid.tlen) s
  | .rxAck => fetchAck s
  | .rxHdr => fetchHeader s
  | .rxExt => fetchExtended s
  | .rxCheck => .run (rxFrame s.hid.hdr) s
  | .rxPayload => .run (rxFrame s.hid.hdr) s
  | .rxTrailer => .run (rxFrame s.hid.hdr) s
  | .canTx => .run .cancel s
  | .canSleep => .run .cancel s
  | .canFlush => .run .cancel s
  | .done => .run (.sendRaw s.hid.tlen) s

/-- An operation of the opcode table on the command port of an idle block (log entry 20). -/
def placeCommand (c : Command) (s : State) : State :=
  { s with rst := false, seq := .idle, ops := c :: s.ops }

/-- TIMEOUT as it must be for a read of waiting bytes to be sure to succeed (R223, log entry 25). -/
def readableTimeout (t : Millis) : Millis := if t = 0 then 1 else t

/-- Bytes waiting at the front of the RX wire stream of a block that has just opened a read request for `n` bytes. -/
def placeRead (q : SeqState) (n : Nat) (bytes : List Byte) (s : State) : State :=
  State.startRead q n
    { s with rst := false, timeout := readableTimeout s.timeout, rx := bytes ++ s.rx }

/-- The rest of a data frame whose words above its header are 0: `len` payload bytes, DCS and the trailing zero. -/
def zeroRest (len : Nat) : List Byte := List.replicate (len + 2) 0

/-- The words of a frame where the block reads them: six bytes at the ACK position, five at the header position, the
last three of eight after a header that ends in the marker (R93). -/
def placeWire (bytes : List Byte) (s : State) : State :=
  match bytes with
  | [h0, h1, h2, len, lcs] => placeRead .rxHdr 5 ([h0, h1, h2, len, lcs] ++ zeroRest len.toNat) s
  | [h0, h1, h2, h3, h4, lenH, lenL, lcs] =>
    placeRead .rxExt 3 ([lenH, lenL, lcs] ++ zeroRest (extLength lenH lenL).toNat)
      { s with hid := { s.hid with hdr := s.hid.hdr.putAll 0 [h0, h1, h2, h3, h4] } }
  | _ => placeRead .rxAck 6 bytes s

/-- The words where the step fetches its next instruction. -/
def placeWords (w : Words) (s : State) : State :=
  match w with
  | .command c => placeCommand c s
  | .wire _ bytes => placeWire bytes s

end Sys2Proof.Machine
end

