-- ==== Sys2Proof/Machine/Step.lean ====
section
/-! DEFINITION. One step of the machine: the end of one wait of the transition table 43_transaction.md R185, or one
arrival from the environment (log entry 1). -/

namespace Sys2Proof.Machine

/-- `rst` wins (R242); else the pulse of the step before ends, an instruction is fetched and run. -/
def step (s : State) : Host.Outcome State Fault Refusal :=
  if s.rst = true then .next s.resetBlock
  else
    match fetch s.nextCycle with
    | .run i t => exec i t
    | .move t => .next t
    | .reject r => .refused r

/-- `s` with the opcode-table row's words where the next step fetches its instruction: on the command port of an idle
block, or at the front of the RX wire stream at the position of the frame (log entry 20). -/
def State.withFetchWord (s : State) (nbits w : Nat) : State := placeWords (tableWords nbits w) s

end Sys2Proof.Machine
end

