-- ==== Sys2Proof/Machine/Script.lean ====
section
/-! DEFINITION. The big step of a SENDRAW (43_transaction.md R171, 41_decode.md R145) in the scripted environment of
20_memory.md R63: a finite byte sequence is there to be read, a read request succeeds when it still holds enough bytes
and otherwise times out taking all that is left. R187: the big step and the small step agree; the step of the machine is
Machine/Step.lean, and this file is what claims compare it with. -/

namespace Sys2Proof.Machine

/-- What DECODE makes of a script: the Result, whether the cancel sequence runs, the received payload (of a Success),
the bytes left unread, and the read events in order. -/
structure Reception where
  result : Result
  cancel : Bool
  payload : List Byte
  left : List Byte
  events : List Event
  deriving DecidableEq, Repr

/-- Events that come before those of a reception. -/
def Reception.after (r : Reception) (e : List Event) : Reception := { r with events := e ++ r.events }

/-- A read request for `n` bytes that does not get them takes all that is left (R63). -/
def scriptShort (r : Result) (n : Nat) (rx : List Byte) : Reception := ⟨r, true, [], [], [.readTimeout n rx.length]⟩

/-- Step 6 and 7 of R145. -/
def scriptTrailer (p rx : List Byte) : Reception :=
  match rx with
  | t0 :: t1 :: left =>
    if trailerOk (sum8 p) t0 t1 then ⟨.success, false, p, left, [.readOk 2 [t0, t1]]⟩
    else ⟨.invalid, true, [], left, [.readOk 2 [t0, t1]]⟩
  | _ => scriptShort .invalid 2 rx

/-- Step 5 of R145. -/
def scriptPayload (dlen : Nat) (rx : List Byte) : Reception :=
  if rx.length < dlen then scriptShort .failed dlen rx
  else
    (scriptTrailer (rx.take dlen) (rx.drop dlen)).after
      (if dlen = 0 then [] else [.readOk dlen (rx.take dlen)])

/-- The checks of steps 3 and 4 of R145. -/
def scriptLength (lengthField : List Byte) (dlen : Nat) (rx : List Byte) : Reception :=
  if lengthChecksumOk lengthField = false then ⟨.invalid, false, [], rx, []⟩
  else if Config.maxResp < dlen then ⟨.failed, false, [], rx, []⟩
  else scriptPayload dlen rx

/-- Step 3 of R145, extended form. -/
def scriptExtended (rx : List Byte) : Reception :=
  match rx with
  | e0 :: e1 :: e2 :: r =>
    (scriptLength [e0, e1, e2] (256 * e0.toNat + e1.toNat) r).after [.readOk 3 [e0, e1, e2]]
  | _ => { scriptShort .invalid 3 rx with cancel := Config.extShortReadCancels }

/-- Step 2 of R145. -/
def scriptHeader (rx : List Byte) : Reception :=
  match rx with
  | h0 :: h1 :: h2 :: h3 :: h4 :: r =>
    Reception.after
      (if preambleOk h0 h1 h2 = false then ⟨.invalid, Config.preambleMismatchCancels, [], r, []⟩
      else if extMarker h3 h4 = true then scriptExtended r
      else scriptLength [h3, h4] h3.toNat r)
      [.readOk 5 [h0, h1, h2, h3, h4]]
  | _ => scriptShort .failed 5 rx

/-- DECODE on a script (R145). -/
def scriptDecode (rx : List Byte) : Reception :=
  match rx with
  | a0 :: a1 :: a2 :: a3 :: a4 :: a5 :: r =>
    if [a0, a1, a2, a3, a4, a5] = fixedFrame then
      (scriptHeader r).after [.readOk 6 [a0, a1, a2, a3, a4, a5]]
    else ⟨.noAck, true, [], r, [.readOk 6 [a0, a1, a2, a3, a4, a5]]⟩
  | _ => scriptShort .noAck 6 rx

/-- The events of the cancel sequence (R160). -/
def cancelEvents : List Event := [.write fixedFrame, .sleep Config.cancelSleepMs, .flush]

/-- The trace of a SENDRAW on a script (R173), in order. -/
def scriptTrace (p rx : List Byte) : List Event :=
  [.flush, .write (frame p)] ++ (scriptDecode rx).events ++
    (if (scriptDecode rx).cancel then cancelEvents else [])

end Sys2Proof.Machine
end

