-- ==== Sys2Proof/Safety.lean ====
section
/-! DEFINITION. The terms the claims use: an environment that keeps its duties, the transition graph of SEQ, and the
invariant of the machine. -/

namespace Sys2Proof.Machine

/-- The environment keeps the duties of 20_memory.md R66, and reset is released: flushes complete, every byte offered
to the transport is accepted, the clock advances. -/
structure State.EnvReady (s : State) : Prop where
  released : s.rst = false
  flushes : s.flushDone = true
  accepts : s.txRoom = none
  clock : s.clockRuns = true

/-- `k` steps, stopping at the first fault or refusal. -/
def run : Nat → State → Host.Outcome State Fault Refusal
  | 0, s => .next s
  | k + 1, s =>
    match step s with
    | .next t => run k t
    | .fault r => .fault r
    | .refused r => .refused r

/-- `s` leads to `t` in at most `n` steps. -/
def State.reaches (n : Nat) (s t : State) : Prop := ∃ k ≤ n, run k s = .next t

/-- RXBUF, RXLEN and TIMEOUT are unchanged, and so is what every index of RXBUF reads as. -/
def State.sameRegs (s t : State) : Prop :=
  t.rxbuf = s.rxbuf ∧ t.rxlen = s.rxlen ∧ t.timeout = s.timeout ∧ ∀ i, t.rxByte i = s.rxByte i

/-- The host's side is unchanged: the offered operations, the payload stream, the level of rst. -/
def State.sameHost (s t : State) : Prop := t.ops = s.ops ∧ t.pl = s.pl ∧ t.rst = s.rst

/-- The transmit side is unchanged. That no byte leaves the output path meanwhile is log entry 30. -/
def State.sameTx (s t : State) : Prop :=
  t.txQueue = s.txQueue ∧ t.txSent = s.txSent ∧ t.txRoom = s.txRoom ∧ t.flushDone = s.flushDone

/-- The receive side and the clock are unchanged. That nothing arrives in such a step is log entry 28. -/
def State.sameRx (s t : State) : Prop :=
  t.rx = s.rx ∧ t.coming = s.coming ∧ t.clockRuns = s.clockRuns ∧ t.now = s.now

/-- The host's side of it (R52): the payload bytes that a SENDRAW in its transmit part still needs are on the payload
stream. -/
def State.payloadSupplied (s : State) : Prop :=
  match s.seq with
  | .txFlush => s.hid.tlen.toNat ≤ s.pl.length
  | .txHeader => s.hid.tlen.toNat ≤ s.pl.length
  | .txPayload => s.hid.cnt.toNat ≤ s.pl.length
  | _ => True

/-- The states SEQ goes to from a state, by the table 43_transaction.md R185; from IDLE only an accepted SENDRAW leads
away. -/
def seqSuccessors : SeqState → List SeqState
  | .idle => [.txFlush]
  | .txFlush => [.txHeader]
  | .txHeader => [.txPayload, .txTrailer]
  | .txPayload => [.txTrailer]
  | .txTrailer => [.rxAck]
  | .rxAck => [.canTx, .rxHdr]
  | .rxHdr => [.canTx, .rxExt, .rxCheck]
  | .rxExt => [.canTx, .rxCheck]
  | .rxCheck => [.done, .rxPayload, .rxTrailer]
  | .rxPayload => [.canTx, .rxTrailer]
  | .rxTrailer => [.canTx, .done]
  | .canTx => [.canSleep]
  | .canSleep => [.canFlush]
  | .canFlush => [.done]
  | .done => [.idle]

/-- The bytes of the open read request that came in before this step, in order: HDR or RXBUF holds them (R29, R141). -/
def State.gathered (s : State) : List Byte := s.readBytes.take s.readSoFar

/-- `h` is a header that the decoder accepts and that declares `n` bytes: short form (R138), or extended form, with any
length (R96, R137). -/
def isHeader (n : Nat) (h : List Byte) : Prop :=
  (∃ len lcs : Byte, h = [0x00, 0x00, 0xFF, len, lcs] ∧ (len.toNat + lcs.toNat) % 256 = 0 ∧ n = len.toNat) ∨
  ∃ lenH lenL lcs : Byte, h = [0x00, 0x00, 0xFF, 0xFF, 0xFF, lenH, lenL, lcs] ∧
    (lenH.toNat + lenL.toNat + lcs.toNat) % 256 = 0 ∧ n = 256 * lenH.toNat + lenL.toNat

/-- RXBUF[0 .. n-1] have specified values. -/
def State.listed (s : State) (n : Nat) : Prop := ∀ i < n, (Memory.read? s.rxbuf i).isSome = true

/-- The failure Results of DECODE (R130): never Success and never NotFound. -/
def isDecodeFailure (r : Result) : Prop := r = .failed ∨ r = .noAck ∨ r = .invalid

/-- CNT is at work: at least one byte and at most `n` are to come. -/
def State.counting (s : State) (n : Nat) : Prop := 0 < s.hid.cnt.toNat ∧ s.hid.cnt.toNat ≤ n

/-- The first `n` payload bytes have been received: they have specified values and RSUM is their sum (R141). -/
def State.received (s : State) (n : Nat) : Prop := s.listed n ∧ s.hid.rsum = sum8 (s.rxBytes n)

/-- What holds in each state of the sequencer. -/
def State.seqInv (s : State) : Prop :=
  match s.seq with
  | .idle => True
  | .txFlush => s.hid.tsum = 0
  | .txHeader => s.hid.tsum = 0 ∧ s.counting (txHeader s.hid.tlen).length
  | .txPayload => s.counting s.hid.tlen.toNat
  | .txTrailer => s.counting 2
  | .rxAck => s.counting 6
  | .rxHdr => s.counting 5
  | .rxExt => s.counting 3 ∧ s.hid.hdr.bytes.take 5 = [0x00, 0x00, 0xFF, 0xFF, 0xFF]
  | .rxCheck => s.hid.hdr.bytes.take 3 = [0x00, 0x00, 0xFF]
  | .rxPayload =>
    s.counting s.hid.dlen.toNat ∧ s.hid.dlen.toNat ≤ Config.maxResp ∧
      s.received (s.hid.dlen.toNat - s.hid.cnt.toNat)
  | .rxTrailer => s.counting 2 ∧ s.hid.dlen.toNat ≤ Config.maxResp ∧ s.received s.hid.dlen.toNat
  | .canTx => s.counting 6 ∧ isDecodeFailure s.hid.pend
  | .canSleep => isDecodeFailure s.hid.pend
  | .canFlush => isDecodeFailure s.hid.pend
  | .done =>
    isDecodeFailure s.hid.pend ∨
      (s.hid.pend = .success ∧ s.hid.dlen.toNat ≤ Config.maxResp ∧ s.listed s.hid.dlen.toNat)

/-- The invariant: RXBUF is in canonical form (so no byte lies outside 0 to 264), and the hidden working state fits
the state of the sequencer. -/
def State.Inv (s : State) : Prop := Memory.wf s.rxbuf ∧ s.seqInv

end Sys2Proof.Machine
end

