-- ==== Sys2Proof/Certificates/Slice0/Obligations.lean ====
section
/-! DEFINITION. The statements for the provers. -/

open Sys2Proof Sys2Proof.Machine

/-! ### Encoding -/

/-- 30_encoding.md R81 to R83, R100, 10_state.md R36, R28: the encoding of every well-formed instruction decodes to
it, for every value of every operand. -/
def Obligations.DecodeOfEncodeIsTheInstruction : Prop :=
  ∀ i : Instr, i.wellFormed = true → decode (encode i) = .ok i

/-- R81 to R83, R92: whatever bytes decode to an instruction are that instruction's own bytes, and the instruction is
well formed; no byte of a frame header is dropped or taken for another form. -/
def Obligations.DecodedWireBytesAreTheEncoding : Prop :=
  ∀ (d : Direction) (bytes : List Byte) (i : Instr),
    decode (.wire d bytes) = .ok i → (encode i).bytes = bytes ∧ i.wellFormed = true

/-- Words written out from R81 to R83, R100 and 95_test_vectors.md sections 3 and 8 decode to what they stand for. -/
def Obligations.WrittenWordsDecode : Prop :=
  decode (.wire .fromDevice [0x00, 0x00, 0xFF, 0x00, 0xFF, 0x00]) = .ok .ack ∧
  decode (.wire .toDevice [0x00, 0x00, 0xFF, 0x00, 0xFF, 0x00]) = .ok .cancel ∧
  decode (.wire .fromDevice [0x00, 0x00, 0xFF, 0x04, 0xFC]) = .ok (.dataShort 0x04 0xFC) ∧
  decode (.wire .fromDevice [0x00, 0x00, 0xFF, 0xFF, 0x01]) = .ok (.dataShort 0xFF 0x01) ∧
  decode (.wire .fromDevice [0x00, 0x00, 0xFF, 0xFF, 0xFF, 0x01, 0x09, 0xF6]) = .ok (.dataExt 0x01 0x09 0xF6) ∧
  decode (.command ⟨1, 0x00000100⟩) = .ok (.sendRaw 256) ∧
  decode (.command ⟨2, 0x00000004⟩) = .ok (.assertAck .notFound) ∧
  decode (.command ⟨3, 0x000000FA⟩) = .ok (.setTimeout 250)

/-- 10_state.md R36, U5: which bits of op_arg each operation takes; the others do not matter. -/
def Obligations.CommandPortOperands : Prop :=
  ∀ a : BitVec 32,
    decode (.command ⟨0, a⟩) = .ok .reservedOp0 ∧
    decode (.command ⟨1, a⟩) = .ok (.sendRaw (a.setWidth 16)) ∧
    (∀ r : Result, decode (.command ⟨2, a⟩) = .ok (.assertAck r) ↔ a.setWidth 3 = r.code) ∧
    decode (.command ⟨3, a⟩) = .ok (.setTimeout a)

/-- 30_encoding.md R81: the fixed frame, byte by byte, and that it is no data frame of length 0. -/
def Obligations.FixedFrameBytes : Prop :=
  fixedFrame = [0x00, 0x00, 0xFF, 0x00, 0xFF, 0x00] ∧
  decode (.wire .fromDevice fixedFrame) = .ok .ack ∧
  decode (.wire .toDevice fixedFrame) = .ok .cancel ∧
  decode (.wire .fromDevice (fixedFrame.take 5)) = .ok (.dataShort 0x00 0xFF) ∧
  sum8 [0x00, 0xFF] = 0xFF ∧ lengthChecksumOk [0x00, 0xFF] = false

/-- 30_encoding.md R82: the short-form frame of a payload of `n ≤ 255` bytes, field by field. -/
def Obligations.ShortFrameLayout : Prop :=
  ∀ p : List Byte, p.length ≤ 255 →
    frame p = [0x00, 0x00, 0xFF, BitVec.ofNat 8 p.length, neg8 (BitVec.ofNat 8 p.length)] ++ p ++
      [neg8 (sum8 p), 0x00] ∧
    (frame p).length = p.length + 7

/-- 30_encoding.md R83: the extended-form frame of a payload of 256 to 65535 bytes, field by field. -/
def Obligations.ExtendedFrameLayout : Prop :=
  ∀ p : List Byte, 255 < p.length → p.length ≤ 65535 →
    frame p =
      [0x00, 0x00, 0xFF, 0xFF, 0xFF, BitVec.ofNat 8 (p.length / 256), BitVec.ofNat 8 (p.length % 256),
        neg8 (BitVec.ofNat 8 (p.length / 256 + p.length % 256))] ++ p ++ [neg8 (sum8 p), 0x00] ∧
    (frame p).length = p.length + 10

/-- 40_encode.md R112: the checksum invariant and its consequences; that the trailer check of a payload with one byte changed
is Invalid with cancel is 41_decode.md R143. The model's own: that the check finds the DCS in HDR[0] (log entry 18). -/
def Obligations.ChecksumInvariant : Prop :=
  (∀ p : List Byte, sum8 p + cks p = 0) ∧
  (∀ (p : List Byte) (d : Byte), d = cks p ↔ sum8 p + d = 0) ∧
  (∀ (p : List Byte) (i : Nat) (h : i < p.length) (b : Byte), b ≠ p[i] →
    cks (p.set i b) ≠ cks p ∧
    ∀ s : State, s.hid.rsum = sum8 (p.set i b) → s.hid.hdr.b0 = cks p → s.checkTrailer = s.fail .invalid true) ∧
  (∀ p q : List Byte, sum8 p = sum8 q → trailerOk (sum8 q) (cks p) 0x00 = true)

/-! ### Reset and the idle block -/

/-- 70_reset_and_hazards.md R241, 10_state.md R33: IDLE, BUSY 0, TIMEOUT 1000, RXLEN 0, no Result pending. The model's
own: that no event has happened yet (log entry 8), and that the unspecified RXBUF reads as free values (log entry 5). -/
def Obligations.StateAfterReset : Prop :=
  State.reset.seq = .idle ∧ State.reset.busy = false ∧ State.reset.timeout = 1000 ∧ State.reset.rxlen = 0 ∧
  State.reset.done = none ∧ State.reset.trace = [] ∧
  ∀ i, State.reset.rxByte i = Config.freeRxByte State.reset.draw i

/-- R241: with no operation offered the block does nothing: no state of the block changes, nothing is sent, no event.
The model's own: that exactly one arrival happens in each such step, and what it is (log entry 28), and that the
done_valid pulse ends in it (log entry 26), and that no byte leaves the output path in it (log entry 30). -/
def Obligations.IdleBlockDoesNothing : Prop :=
  ∀ s : State, s.rst = false → s.seq = .idle → s.ops = [] →
    ∃ t, step s = .next t ∧ t.seq = .idle ∧ t.done = none ∧ t.hid = s.hid ∧ s.sameRegs t ∧ s.sameHost t ∧ s.sameTx t ∧
      t.trace = s.trace ∧ t.clockRuns = s.clockRuns ∧
      (s.coming = [] → t.rx = s.rx ∧ t.coming = [] ∧ t.now = s.now) ∧
      (∀ b r, s.coming = .byte b :: r → t.rx = s.rx ++ [b] ∧ t.coming = r ∧ t.now = s.now) ∧
      (∀ r, s.coming = .tick :: r → t.rx = s.rx ∧ t.coming = r ∧ t.now = s.now + 1)

/-- R242, with the values of R33, R36 and R241: reset, whatever the block is doing. The operation is abandoned: no Result,
no event; the host's and the transport's side keep what they hold. The model's own: that nothing arrives and no time
passes in a reset step (log entry 17), that no byte leaves the output path in it (log entry 30), and how the unspecified
RXBUF reads (log entry 5). -/
def Obligations.ResetAbandonsTheOperation : Prop :=
  ∀ s : State, s.rst = true →
    ∃ t, step s = .next t ∧ t.seq = .idle ∧ t.timeout = 1000 ∧ t.rxlen = 0 ∧ t.done = none ∧
      (∀ i, t.rxByte i = Config.freeRxByte t.draw i) ∧ t.trace = s.trace ∧ s.sameHost t ∧ s.sameTx t ∧ s.sameRx t

/-! ### Host operations -/

/-- 43_transaction.md R183: SETTIMEOUT writes TIMEOUT and nothing else, gives Success, and TIMEOUT is constant during
a transaction. -/
def Obligations.SetTimeoutWritesTimeoutOnly : Prop :=
  (∀ (v : Millis) (s : State), s.seq = .idle →
    exec (.setTimeout v) s = .next { s with timeout := v, done := some .success, seq := .idle }) ∧
  (∀ (v : Millis) (s : State), s.seq ≠ .idle → exec (.setTimeout v) s = .refused .busy) ∧
  (∀ s t : State, s.rst = false → s.seq ≠ .idle → step s = .next t → t.timeout = s.timeout)

/-- 43_transaction.md R181: the Result of ASSERTACK, and that it writes no state. -/
def Obligations.AssertAckResult : Prop :=
  (∀ (prev : Result) (s : State), s.seq = .idle → prev ≠ .success →
    exec (.assertAck prev) s = .next { s with done := some prev, seq := .idle }) ∧
  (∀ s : State, s.seq = .idle → s.rxlen.toNat = 2 → s.rxByte 0 = 0xD5 → s.rxByte 1 = 0x33 →
    exec (.assertAck .success) s = .next { s with done := some .success, seq := .idle }) ∧
  (∀ s : State, s.seq = .idle → ¬(s.rxlen.toNat = 2 ∧ s.rxByte 0 = 0xD5 ∧ s.rxByte 1 = 0x33) →
    exec (.assertAck .success) s = .next { s with done := some .noAck, seq := .idle })

/-- 43_transaction.md R184, R185 (IDLE, SENDRAW accepted): SEQ ← TX_FLUSH, TLEN takes the length; nothing else of the
block changes but TSUM. The model's own: that TSUM, which counts from 0 (R30), is cleared here (log entry 34), and that
nothing arrives in the step (log entry 28). -/
def Obligations.SendRawIsAccepted : Prop :=
  ∀ (n : Length) (s : State), s.seq = .idle →
    exec (.sendRaw n) s = .next { s with seq := .txFlush, hid := { s.hid with tlen := n, tsum := 0 } }

/-- 30_encoding.md R100, U3: op code 0 is reserved and refused; the arm of its row refuses in every state. -/
def Obligations.ReservedOpCodeIsRefused : Prop :=
  (∀ s : State, exec .reservedOp0 s = .refused .reservedOpCode) ∧
  (∀ (s : State) (a : BitVec 32) (rest : List Command), s.rst = false → s.seq = .idle → s.ops = ⟨0, a⟩ :: rest →
    step s = .refused .reservedOpCode)

/-- 43_transaction.md R182 (c), U4: ASSERTACK with a reserved Result code is refused, with each other code it runs. -/
def Obligations.ReservedResultCodesAreRefused : Prop :=
  ∀ (s : State) (a : BitVec 32) (rest : List Command), s.rst = false → s.seq = .idle → s.ops = ⟨2, a⟩ :: rest →
    (5 ≤ (a.setWidth 3).toNat → step s = .refused (.reservedResultCode (a.setWidth 3))) ∧
    ((a.setWidth 3).toNat < 5 → ∃ t, step s = .next t ∧ t.seq = .idle ∧ t.ops = rest ∧ t.done ≠ none)

/-- 70_reset_and_hazards.md R247: while BUSY = 1 no operation is accepted, the offered ones are held; in IDLE the one
offered is accepted. Executed in a busy state, an operation is refused; only SENDRAW's own parts run at TX_FLUSH and DONE. -/
def Obligations.OperationsAreHeldWhileBusy : Prop :=
  (∀ s : State, (s.busy = true → s.opReady = false) ∧ (s.rst = false → s.busy = false → s.opReady = true)) ∧
  (∀ s t : State, s.rst = false → s.busy = true → step s = .next t → t.ops = s.ops) ∧
  (∀ s : State, s.busy = true →
    (∀ r, exec (.assertAck r) s = .refused .busy) ∧ (∀ v, exec (.setTimeout v) s = .refused .busy) ∧
    (s.seq ≠ .txFlush → s.seq ≠ .done → ∀ n, exec (.sendRaw n) s = .refused .busy)) ∧
  (∀ (s : State) (n : BitVec 32) (rest : List Command), s.rst = false → s.seq = .idle → s.ops = ⟨1, n⟩ :: rest →
    ∃ t, step s = .next t ∧ t.busy = true ∧ t.ops = rest)

/-! ### A step runs the decoded instruction -/

/-- Where the words that the sequencer looks at decode to an instruction, the step is `exec` of it: on the command port
of an idle block, past the operation; at a read position where all its bytes have come, in this step or in steps before
it, past them (they are in HDR, the `Read` event is in the trace). Around `exec` the step only ends the done_valid pulse.
The model's own: which row of the opcode table runs in each state of SEQ (log entry 2; R92, R93, R184 and R185 give what
each state does), the places in HDR (log entry 18), the pulse of one step (log entry 26); and of the read positions, that the
request completes where its bytes are there, however much time has passed (log entry 11; 60_exceptions.md R221 gives the
timer, R222 leaves the race to the environment), that one step takes all it needs (log entry 1), that the event enters the
trace when the request ends (log entry 33), and that nothing arrives in the step (log entry 28). -/
def Obligations.StepRunsTheDecodedInstruction : Prop :=
  (∀ (s : State) (c : Command) (rest : List Command) (i : Instr),
    s.rst = false → s.seq = .idle → s.ops = c :: rest → decode (.command c) = .ok i →
    step s = exec i { s with done := none, ops := rest }) ∧
  (∀ (s : State) (i : Instr),
    s.rst = false → s.timeout ≠ 0 → s.seq = .rxAck → s.hid.cnt ≠ 0 → s.hid.cnt.toNat ≤ 6 →
    s.hid.cnt.toNat ≤ s.rx.length → decode (.wire .fromDevice (s.gathered ++ s.rx.take s.hid.cnt.toNat)) = .ok i →
    step s = exec i
      { s with
        done := none, rx := s.rx.drop s.hid.cnt.toNat
        trace := .readOk 6 (s.gathered ++ s.rx.take s.hid.cnt.toNat) :: s.trace
        hid := { s.hid with
          cnt := 0, hdr := s.hid.hdr.putAll (6 - s.hid.cnt.toNat) (s.rx.take s.hid.cnt.toNat) } }) ∧
  (∀ (s : State) (i : Instr),
    s.rst = false → s.timeout ≠ 0 → s.seq = .rxHdr → s.hid.cnt ≠ 0 → s.hid.cnt.toNat ≤ 5 →
    s.hid.cnt.toNat ≤ s.rx.length → decode (.wire .fromDevice (s.gathered ++ s.rx.take s.hid.cnt.toNat)) = .ok i →
    step s = exec i
      { s with
        done := none, rx := s.rx.drop s.hid.cnt.toNat
        trace := .readOk 5 (s.gathered ++ s.rx.take s.hid.cnt.toNat) :: s.trace
        hid := { s.hid with
          cnt := 0, hdr := s.hid.hdr.putAll (5 - s.hid.cnt.toNat) (s.rx.take s.hid.cnt.toNat) } }) ∧
  (∀ (s : State) (i : Instr),
    s.rst = false → s.timeout ≠ 0 → s.seq = .rxExt → s.hid.cnt ≠ 0 → s.hid.cnt.toNat ≤ 3 →
    s.hid.cnt.toNat ≤ s.rx.length →
    decode (.wire .fromDevice (s.hid.hdr.bytes.take 5 ++ s.gathered ++ s.rx.take s.hid.cnt.toNat)) = .ok i →
    step s = exec i
      { s with
        done := none, rx := s.rx.drop s.hid.cnt.toNat
        trace := .readOk 3 (s.gathered ++ s.rx.take s.hid.cnt.toNat) :: s.trace
        hid := { s.hid with
          cnt := 0, hdr := s.hid.hdr.putAll (8 - s.hid.cnt.toNat) (s.rx.take s.hid.cnt.toNat) } }) ∧
  (∀ s : State, s.rst = false → s.seq ∈ [.txHeader, .txPayload, .txTrailer] →
    step s = exec (txFrame s.hid.tlen) { s with done := none }) ∧
  (∀ s : State, s.rst = false → s.seq ∈ [.rxCheck, .rxPayload, .rxTrailer] →
    step s = exec (rxFrame s.hid.hdr) { s with done := none }) ∧
  (∀ s : State, s.rst = false → s.seq ∈ [.canTx, .canSleep, .canFlush] → step s = exec .cancel { s with done := none }) ∧
  (∀ s : State, s.rst = false → s.seq ∈ [.txFlush, .done] → step s = exec (.sendRaw s.hid.tlen) { s with done := none })

/-! ### The transmit side -/

/-- 20_memory.md R57: what `Flush()` does, and that the block calls it in two places: TX_FLUSH and CAN_FLUSH. The model's
own: that a flush that is answered is one step, in which nothing arrives (log entries 1 and 28), and that the call enters the
trace when the flush completes (log entry 33). -/
def Obligations.FlushDrainsOutputOnly : Prop :=
  (∀ (n : Length) (s : State), s.seq = .txFlush → s.flushDone = true →
    exec (.sendRaw n) s = .next
      { s with
        txSent := s.txSent ++ s.txQueue, txQueue := [], trace := .flush :: s.trace, seq := .txHeader
        hid := { s.hid with cnt := BitVec.ofNat 16 (txHeader s.hid.tlen).length } }) ∧
  (∀ s : State, s.seq = .canFlush → s.flushDone = true →
    exec .cancel s = .next
      { s with txSent := s.txSent ++ s.txQueue, txQueue := [], trace := .flush :: s.trace, seq := .done }) ∧
  (∀ s t : State, step s = .next t → t.trace = .flush :: s.trace → s.seq = .txFlush ∨ s.seq = .canFlush)

/-- 43_transaction.md R185 (TX_HEADER), R82, R83: the meanings of the two data frames at TX_HEADER hand over what is due
of the header bytes, LEN and LCS as they stand in the instruction. A transport with room for all of it: the block goes on
to the payload, or to the trailer for an empty one. A transport with room for `r` bytes of it: those `r` go out first.
The model's own: how much one step hands over (log entry 1), that the bytes then stand in the output path (log entry 30)
and in the trace (log entry 33), and that nothing arrives in the step (log entry 28). -/
def Obligations.HeaderBytesAreSent : Prop :=
  ∀ (i : Instr) (h : List Byte) (s : State),
    ((∃ len lcs, i = .dataShort len lcs ∧ h = [0x00, 0x00, 0xFF, len, lcs]) ∨
      ∃ lenH lenL lcs, i = .dataExt lenH lenL lcs ∧ h = [0x00, 0x00, 0xFF, 0xFF, 0xFF, lenH, lenL, lcs]) →
    s.seq = .txHeader → s.hid.cnt.toNat ≤ h.length →
    ((∀ r, s.txRoom = some r → s.hid.cnt.toNat ≤ r) →
      exec i s = .next
        { s with
          txQueue := s.txQueue ++ h.drop (h.length - s.hid.cnt.toNat)
          txRoom := s.txRoom.map (· - s.hid.cnt.toNat)
          trace := addWrite (h.drop (h.length - s.hid.cnt.toNat)) s.trace
          seq := if s.hid.tlen = 0 then .txTrailer else .txPayload
          hid := { s.hid with cnt := if s.hid.tlen = 0 then 2 else s.hid.tlen } }) ∧
    (∀ r, s.txRoom = some r → r < s.hid.cnt.toNat →
      exec i s = .next
        { s with
          txQueue := s.txQueue ++ (h.drop (h.length - s.hid.cnt.toNat)).take r
          txRoom := some 0
          trace := addWrite ((h.drop (h.length - s.hid.cnt.toNat)).take r) s.trace
          hid := { s.hid with cnt := BitVec.ofNat 16 (s.hid.cnt.toNat - r) } })

/-- R185 (TX_PAYLOAD), 20_memory.md R52, R115: payload bytes still due are taken from the front of the payload stream,
handed over and added to TSUM; no other byte of the stream is taken. With all of them offered and room for all of them
the block goes on to the trailer. With fewer offered, or room for fewer, it takes as many as both allow and stays.
The model's own: that one step takes as many as it can (log entry 1), that they then stand in the output path (log entry
30) and in the trace (log entry 33), and that nothing arrives in the step (log entry 28). -/
def Obligations.PayloadBytesAreSent : Prop :=
  ∀ (i : Instr) (s : State), ((∃ len lcs, i = .dataShort len lcs) ∨ ∃ h l c, i = .dataExt h l c) →
    s.seq = .txPayload →
    (s.hid.cnt.toNat ≤ s.pl.length → (∀ r, s.txRoom = some r → s.hid.cnt.toNat ≤ r) →
      exec i s = .next
        { s with
          txQueue := s.txQueue ++ s.pl.take s.hid.cnt.toNat
          txRoom := s.txRoom.map (· - s.hid.cnt.toNat)
          trace := addWrite (s.pl.take s.hid.cnt.toNat) s.trace
          pl := s.pl.drop s.hid.cnt.toNat
          seq := .txTrailer
          hid := { s.hid with cnt := 2, tsum := s.hid.tsum + sum8 (s.pl.take s.hid.cnt.toNat) } }) ∧
    (∀ n, n < s.hid.cnt.toNat → n ≤ s.pl.length → (∀ r, s.txRoom = some r → n ≤ r) →
      (n = s.pl.length ∨ s.txRoom = some n) →
      exec i s = .next
        { s with
          txQueue := s.txQueue ++ s.pl.take n
          txRoom := s.txRoom.map (· - n)
          trace := addWrite (s.pl.take n) s.trace
          pl := s.pl.drop n
          hid := { s.hid with
            cnt := BitVec.ofNat 16 (s.hid.cnt.toNat - n), tsum := s.hid.tsum + sum8 (s.pl.take n) } })

/-- R185 (TX_TRAILER), 30_encoding.md R88, R89: what is due of DCS and the trailing zero is handed over; then the six-byte
ACK read is opened with nothing between. A transport with room for `r` of the bytes due takes those first. The model's
own: how much one step hands over (log entry 1), that the bytes then stand in the output path (log entry 30) and in the
trace (log entry 33), and that nothing arrives in the step (log entry 28). -/
def Obligations.TrailerBytesAreSent : Prop :=
  ∀ (i : Instr) (s : State), ((∃ len lcs, i = .dataShort len lcs) ∨ ∃ h l c, i = .dataExt h l c) →
    s.seq = .txTrailer → s.hid.cnt.toNat ≤ 2 →
    ((∀ r, s.txRoom = some r → s.hid.cnt.toNat ≤ r) →
      exec i s = .next
        { s with
          txQueue := s.txQueue ++ [neg8 s.hid.tsum, 0x00].drop (2 - s.hid.cnt.toNat)
          txRoom := s.txRoom.map (· - s.hid.cnt.toNat)
          trace := addWrite ([neg8 s.hid.tsum, 0x00].drop (2 - s.hid.cnt.toNat)) s.trace
          seq := .rxAck
          hid := { s.hid with cnt := 6, t0 := s.now } }) ∧
    (∀ r, s.txRoom = some r → r < s.hid.cnt.toNat →
      exec i s = .next
        { s with
          txQueue := s.txQueue ++ ([neg8 s.hid.tsum, 0x00].drop (2 - s.hid.cnt.toNat)).take r
          txRoom := some 0
          trace := addWrite (([neg8 s.hid.tsum, 0x00].drop (2 - s.hid.cnt.toNat)).take r) s.trace
          hid := { s.hid with cnt := BitVec.ofNat 16 (s.hid.cnt.toNat - r) } })

/-- 40_encode.md R114: ENCODE writes exactly `frame(P)`, one contiguous `Write`, whatever the length and content of P;
it changes no architectural state, takes exactly P from the payload stream, and is followed by the ACK read. The model's
own: that no byte arrives and no time passes meanwhile (log entry 28), that the frame is still in the output path at the
end (log entry 30), and the number of steps (log entry 1). -/
def Obligations.EncodeWritesTheFrame : Prop :=
  ∀ (p more : List Byte) (s : State), p.length ≤ 65535 → s.rst = false → s.txRoom = none →
    s.seq = .txHeader → s.hid.tlen.toNat = p.length → s.hid.tsum = 0 →
    s.hid.cnt.toNat = (txHeader s.hid.tlen).length → s.pl = p ++ more →
    ∃ t, s.reaches 3 t ∧ t.seq = .rxAck ∧ t.hid.cnt = 6 ∧ t.txQueue = s.txQueue ++ frame p ∧ t.txSent = s.txSent ∧
      t.trace = addWrite (frame p) s.trace ∧ t.pl = more ∧ t.ops = s.ops ∧ s.sameRegs t ∧ s.sameRx t

/-! ### The receive side -/

/-- 41_decode.md R131: the ACK frame. When the last of the six bytes is there (the others may have come in earlier steps),
the ACK frame opens the header read; six others, or a short read, are NoAck with cancel. No architectural state is
written. The expiry of a short read is 60_exceptions.md R221. (That the bytes decide where they are there, whatever the time:
log entry 11; what a step takes: 1; places in HDR: 18; the event at the end of the request: 33; frames of a step: 28, 30.) -/
def Obligations.AckPosition : Prop :=
  (∀ s : State, s.rst = false → s.seq = .rxAck → s.hid.cnt ≠ 0 → s.hid.cnt.toNat ≤ 6 → s.timeout ≠ 0 →
    s.hid.cnt.toNat ≤ s.rx.length →
    ∃ t, step s = .next t ∧ t.rx = s.rx.drop s.hid.cnt.toNat ∧
      t.trace = .readOk 6 (s.gathered ++ s.rx.take s.hid.cnt.toNat) :: s.trace ∧
      (s.gathered ++ s.rx.take s.hid.cnt.toNat = [0x00, 0x00, 0xFF, 0x00, 0xFF, 0x00] →
        t.seq = .rxHdr ∧ t.hid.cnt = 5 ∧ t.hid.t0 = s.now ∧ t.hid.pend = s.hid.pend) ∧
      (s.gathered ++ s.rx.take s.hid.cnt.toNat ≠ [0x00, 0x00, 0xFF, 0x00, 0xFF, 0x00] →
        t.seq = .canTx ∧ t.hid.cnt = 6 ∧ t.hid.pend = .noAck) ∧
      s.sameRegs t ∧ s.sameHost t ∧ s.sameTx t ∧ t.now = s.now ∧ t.coming = s.coming) ∧
  (∀ s : State, s.rst = false → s.seq = .rxAck → s.hid.cnt.toNat ≤ 6 → s.timeout ≠ 0 →
    s.rx.length < s.hid.cnt.toNat → s.elapsedReached s.timeout = true →
    ∃ t, step s = .next t ∧ t.rx = [] ∧ t.seq = .canTx ∧ t.hid.cnt = 6 ∧ t.hid.pend = .noAck ∧
      t.trace = .readTimeout 6 (6 - s.hid.cnt.toNat + s.rx.length) :: s.trace ∧
      s.sameRegs t ∧ s.sameHost t ∧ s.sameTx t ∧ t.now = s.now ∧ t.coming = s.coming)

/-- 41_decode.md R133, R134, R135: the header. A short read is Failed with cancel; when the last of the five bytes is there
(the others may have come in earlier steps), a wrong preamble is Invalid with cancel (conflict C2, the default of log entry
19), the marker opens the read of three more bytes, with the full TIMEOUT afresh (R60), and any other header is a
short-form frame. The expiry of a short read is 60_exceptions.md R221. (That the bytes decide where they are there, whatever
the time: log entry 11; what a step takes: 1; places in HDR: 18; the event at the end of the request: 33; frames of a step:
28, 30.) -/
def Obligations.HeaderPosition : Prop :=
  (∀ (s : State) (h0 h1 h2 h3 h4 : Byte),
    s.rst = false → s.seq = .rxHdr → s.hid.cnt ≠ 0 → s.hid.cnt.toNat ≤ 5 → s.timeout ≠ 0 →
    s.hid.cnt.toNat ≤ s.rx.length → s.gathered ++ s.rx.take s.hid.cnt.toNat = [h0, h1, h2, h3, h4] →
    ∃ t, step s = .next t ∧ t.rx = s.rx.drop s.hid.cnt.toNat ∧ t.trace = .readOk 5 [h0, h1, h2, h3, h4] :: s.trace ∧
      (¬(h0 = 0x00 ∧ h1 = 0x00 ∧ h2 = 0xFF) → t.seq = .canTx ∧ t.hid.cnt = 6 ∧ t.hid.pend = .invalid) ∧
      (h0 = 0x00 → h1 = 0x00 → h2 = 0xFF → h3 = 0xFF ∧ h4 = 0xFF → t.seq = .rxExt ∧ t.hid.cnt = 3 ∧ t.hid.t0 = s.now) ∧
      (h0 = 0x00 → h1 = 0x00 → h2 = 0xFF → ¬(h3 = 0xFF ∧ h4 = 0xFF) →
        t.seq = .rxCheck ∧ rxFrame t.hid.hdr = .dataShort h3 h4) ∧
      s.sameRegs t ∧ s.sameHost t ∧ s.sameTx t ∧ t.now = s.now ∧ t.coming = s.coming) ∧
  (∀ s : State, s.rst = false → s.seq = .rxHdr → s.hid.cnt.toNat ≤ 5 → s.timeout ≠ 0 →
    s.rx.length < s.hid.cnt.toNat → s.elapsedReached s.timeout = true →
    ∃ t, step s = .next t ∧ t.rx = [] ∧ t.seq = .canTx ∧ t.hid.cnt = 6 ∧ t.hid.pend = .failed ∧
      t.trace = .readTimeout 5 (5 - s.hid.cnt.toNat + s.rx.length) :: s.trace ∧
      s.sameRegs t ∧ s.sameHost t ∧ s.sameTx t ∧ t.now = s.now ∧ t.coming = s.coming)

/-- 41_decode.md R136: the three extended-length bytes. When the last of them is there (the others may have come in earlier
steps) the frame is DATA_EXT of the three; a short read is Invalid with cancel (decision D12, the default of log entry
19). The expiry of a short read is 60_exceptions.md R221, and the places in HDR are R29. (That the bytes decide where they are
there, whatever the time: log entry 11; what a step takes: 1; the event at the end of the request: 33; frames of a step: 28,
30.) -/
def Obligations.ExtendedLengthPosition : Prop :=
  (∀ (s : State) (e0 e1 e2 : Byte),
    s.rst = false → s.seq = .rxExt → s.hid.cnt ≠ 0 → s.hid.cnt.toNat ≤ 3 → s.timeout ≠ 0 →
    s.hid.hdr.bytes.take 5 = [0x00, 0x00, 0xFF, 0xFF, 0xFF] → s.hid.cnt.toNat ≤ s.rx.length →
    s.gathered ++ s.rx.take s.hid.cnt.toNat = [e0, e1, e2] →
    ∃ t, step s = .next t ∧ t.rx = s.rx.drop s.hid.cnt.toNat ∧ t.trace = .readOk 3 [e0, e1, e2] :: s.trace ∧
      t.seq = .rxCheck ∧ rxFrame t.hid.hdr = .dataExt e0 e1 e2 ∧
      s.sameRegs t ∧ s.sameHost t ∧ s.sameTx t ∧ t.now = s.now ∧ t.coming = s.coming) ∧
  (∀ s : State, s.rst = false → s.seq = .rxExt → s.hid.cnt.toNat ≤ 3 → s.timeout ≠ 0 →
    s.rx.length < s.hid.cnt.toNat → s.elapsedReached s.timeout = true →
    ∃ t, step s = .next t ∧ t.rx = [] ∧ t.seq = .canTx ∧ t.hid.cnt = 6 ∧ t.hid.pend = .invalid ∧
      t.trace = .readTimeout 3 (3 - s.hid.cnt.toNat + s.rx.length) :: s.trace ∧
      s.sameRegs t ∧ s.sameHost t ∧ s.sameTx t ∧ t.now = s.now ∧ t.coming = s.coming)

/-- 41_decode.md R131, R133, R136, R141, R142: whatever TIMEOUT is (0 among the values, R223), a read request that has
expired takes the failure path of its step with cancel, and one that is not over only waits. An expired request has lost
fewer bytes than it still asked for, and its one event says how many of the whole request were lost (20_memory.md R62).
WHEN a request has expired is ReadRequestIsAllOrNothing, what a waiting one keeps is ReadsWaitUntilTheirTime, and what a
complete one leads to is CompleteReadsGoOn. (Row 5: the default of log entry 19; row 10: decision D13; that nothing arrives
in the step: log entry 28; that no byte leaves the output path in it: log entry 30; the event at the end of the request: log
entry 33.) -/
def Obligations.ExpiredReadsFailWithCancel : Prop :=
  ∀ s u : State, s.rst = false →
    (s.nextCycle.readRequest = .expired u →
      (s.seq = .rxAck → step s = .next (u.fail .noAck true)) ∧
      (s.seq = .rxHdr → step s = .next (u.fail .failed true)) ∧
      (s.seq = .rxExt → step s = .next (u.fail .invalid true)) ∧
      (s.seq = .rxPayload → s.hid.dlen.toNat ≤ 265 → step s = .next (u.fail .failed true)) ∧
      (s.seq = .rxTrailer → step s = .next (u.fail .invalid true))) ∧
    (s.nextCycle.readRequest = .waiting u →
      s.seq = .rxAck ∨ s.seq = .rxHdr ∨ s.seq = .rxExt ∨ (s.seq = .rxPayload ∧ s.hid.dlen.toNat ≤ 265) ∨
        s.seq = .rxTrailer → step s = .next u) ∧
    (s.nextCycle.readRequest = .expired u → s.hid.cnt.toNat ≤ s.readCount →
      (∃ k, k < s.hid.cnt.toNat ∧ k ≤ s.rx.length ∧ u.rx = s.rx.drop k ∧
        u.trace = .readTimeout s.readCount (s.readCount - s.hid.cnt.toNat + k) :: s.trace) ∧
      (s.seq ≠ .rxPayload → u.rxbuf = s.rxbuf) ∧ u.rxlen = s.rxlen ∧ u.timeout = s.timeout ∧ u.done = none ∧
      s.sameHost u ∧ s.sameTx u ∧ u.coming = s.coming ∧ u.now = s.now) ∧
    ∀ r, (u.fail r true).hid.pend = r ∧ (u.fail r true).seq = .canTx ∧ (u.fail r true).hid.cnt = 6 ∧
      u.sameRegs (u.fail r true) ∧ (u.fail r true).rx = u.rx ∧ (u.fail r true).trace = u.trace ∧
      u.sameHost (u.fail r true) ∧ u.sameTx (u.fail r true)

/-- 41_decode.md R131, R132, R136: a frame whose words have been read at its position goes on to the next state of
R185 and changes nothing else but CNT and T0 of the read it opens (10_state.md R29, R60). That nothing arrives in the step
is log entry 28. -/
def Obligations.ReadFramesGoOn : Prop :=
  (∀ s : State, s.seq = .rxAck →
    exec .ack s = .next { s with seq := .rxHdr, hid := { s.hid with cnt := 5, t0 := s.now } }) ∧
  (∀ (len lcs : Byte) (s : State), s.seq = .rxHdr → exec (.dataShort len lcs) s = .next { s with seq := .rxCheck }) ∧
  (∀ (h l c : Byte) (s : State), s.seq = .rxExt → exec (.dataExt h l c) s = .next { s with seq := .rxCheck })

/-- 41_decode.md R137, R138: a length checksum that is not 0 modulo 256 is Invalid WITHOUT cancel; nothing is read,
nothing is sent. That nothing arrives in the step is log entry 28. -/
def Obligations.LengthChecksumFailure : Prop :=
  (∀ (len lcs : Byte) (s : State), s.seq = .rxCheck → (len.toNat + lcs.toNat) % 256 ≠ 0 →
    exec (.dataShort len lcs) s = .next { s with seq := .done, hid := { s.hid with pend := .invalid } }) ∧
  (∀ (h l c : Byte) (s : State), s.seq = .rxCheck → (h.toNat + l.toNat + c.toNat) % 256 ≠ 0 →
    exec (.dataExt h l c) s = .next { s with seq := .done, hid := { s.hid with pend := .invalid } })

/-- 41_decode.md R140: a declared length above 265 is Failed WITHOUT cancel and without a read of payload bytes; 265
passes; only an extended-form header can fail here; the length checksum comes first. DLEN takes the length (R137 to R139);
the read of the payload, or for DLEN = 0 of the trailer, is opened (43_transaction.md R185) at the current time (R60). The
model's own: that RSUM is cleared here, for a length above 265 and one from 1 to 265 too (log entry 34; R185 gives RSUM = 0
for DLEN = 0 only), and that nothing arrives in the step (log entry 28). -/
def Obligations.LengthLimit : Prop :=
  (∀ (h l c : Byte) (s : State), s.seq = .rxCheck → (h.toNat + l.toNat + c.toNat) % 256 = 0 →
    265 < 256 * h.toNat + l.toNat →
    exec (.dataExt h l c) s = .next
      { s with
        seq := .done
        hid := { s.hid with pend := .failed, dlen := BitVec.ofNat 16 (256 * h.toNat + l.toNat), rsum := 0 } }) ∧
  (∀ (h l c : Byte) (s : State), s.seq = .rxCheck → (h.toNat + l.toNat + c.toNat) % 256 ≠ 0 →
    265 < 256 * h.toNat + l.toNat →
    exec (.dataExt h l c) s = .next { s with seq := .done, hid := { s.hid with pend := .invalid } }) ∧
  (∀ (h l c : Byte) (s : State), s.seq = .rxCheck → (h.toNat + l.toNat + c.toNat) % 256 = 0 →
    256 * h.toNat + l.toNat ≤ 265 → 0 < 256 * h.toNat + l.toNat →
    exec (.dataExt h l c) s = .next
      { s with
        seq := .rxPayload
        hid := { s.hid with dlen := BitVec.ofNat 16 (256 * h.toNat + l.toNat), rsum := 0
                            cnt := BitVec.ofNat 16 (256 * h.toNat + l.toNat), t0 := s.now } }) ∧
  (∀ (len lcs : Byte) (s : State), s.seq = .rxCheck → (len.toNat + lcs.toNat) % 256 = 0 → len ≠ 0 →
    exec (.dataShort len lcs) s = .next
      { s with
        seq := .rxPayload
        hid := { s.hid with dlen := BitVec.ofNat 16 len.toNat, rsum := 0, cnt := BitVec.ofNat 16 len.toNat, t0 := s.now } }) ∧
  (∀ s : State, s.seq = .rxCheck →
    exec (.dataShort 0 0) s = .next
      { s with seq := .rxTrailer, hid := { s.hid with dlen := 0, rsum := 0, cnt := 2, t0 := s.now } } ∧
    exec (.dataExt 0 0 0) s = exec (.dataShort 0 0) s)

/-- 41_decode.md R141: the payload read. The bytes that arrive go to RXBUF, the next one behind those that came in earlier
steps, and every other index is left alone; RSUM adds them up; when the last is there the trailer read is opened, with the
full TIMEOUT afresh (R60); a short read is Failed with cancel. The expiry of a short read is 60_exceptions.md R221. (That the
bytes decide where they are there, whatever the time: log entry 11; what a step takes: 1; that the bytes go to RXBUF and
RSUM as they arrive: 18; the event at the end of the request: 33; frames of a step: 28, 30.) -/
def Obligations.PayloadIsStored : Prop :=
  (∀ (i : Instr) (s : State), ((∃ len lcs, i = .dataShort len lcs) ∨ ∃ h l c, i = .dataExt h l c) →
    s.seq = .rxPayload → s.timeout ≠ 0 → s.hid.cnt ≠ 0 → s.hid.cnt.toNat ≤ s.hid.dlen.toNat → s.hid.dlen.toNat ≤ 265 →
    s.hid.cnt.toNat ≤ s.rx.length →
    ∃ t, exec i s = .next t ∧ t.seq = .rxTrailer ∧ t.hid.cnt = 2 ∧ t.hid.t0 = s.now ∧
      t.rx = s.rx.drop s.hid.cnt.toNat ∧
      (∀ j, j < s.hid.cnt.toNat →
        Memory.read? t.rxbuf (s.hid.dlen.toNat - s.hid.cnt.toNat + j) = s.rx[j]?) ∧
      (∀ j, j < s.hid.dlen.toNat - s.hid.cnt.toNat ∨ s.hid.dlen.toNat ≤ j →
        Memory.read? t.rxbuf j = Memory.read? s.rxbuf j) ∧
      t.hid.rsum = s.hid.rsum + sum8 (s.rx.take s.hid.cnt.toNat) ∧
      t.trace = .readOk s.hid.dlen.toNat (s.gathered ++ s.rx.take s.hid.cnt.toNat) :: s.trace ∧
      t.hid.hdr = s.hid.hdr ∧ t.hid.dlen = s.hid.dlen ∧ t.rxlen = s.rxlen ∧ t.timeout = s.timeout ∧ t.draw = s.draw ∧
      s.sameHost t ∧ s.sameTx t ∧ t.now = s.now ∧ t.coming = s.coming) ∧
  (∀ (i : Instr) (s : State), ((∃ len lcs, i = .dataShort len lcs) ∨ ∃ h l c, i = .dataExt h l c) →
    s.seq = .rxPayload → s.timeout ≠ 0 → s.hid.dlen.toNat ≤ 265 → s.hid.cnt.toNat ≤ s.hid.dlen.toNat →
    s.rx.length < s.hid.cnt.toNat → s.elapsedReached s.timeout = true →
    ∃ t, exec i s = .next t ∧ t.seq = .canTx ∧ t.hid.cnt = 6 ∧ t.hid.pend = .failed ∧ t.rx = [] ∧
      t.trace = .readTimeout s.hid.dlen.toNat (s.hid.dlen.toNat - s.hid.cnt.toNat + s.rx.length) :: s.trace ∧
      (∀ j, j < s.readSoFar ∨ s.readSoFar + s.rx.length ≤ j → Memory.read? t.rxbuf j = Memory.read? s.rxbuf j) ∧
      t.rxlen = s.rxlen ∧ t.timeout = s.timeout ∧ t.draw = s.draw ∧
      s.sameHost t ∧ s.sameTx t ∧ t.now = s.now ∧ t.coming = s.coming)

/-- 41_decode.md R142, R143: the trailer. When the second byte is there (the first may have come in an earlier step), both
good is Success; a wrong DCS, a trailing byte that is not 0, or a short read (decision D13) is Invalid with cancel.
The expiry of a short read is 60_exceptions.md R221. (That the bytes decide where they are there, whatever the time: log
entry 11; what a step takes: 1; places in HDR: 18; the event at the end of the request: 33; frames of a step: 28, 30.) -/
def Obligations.TrailerIsVerified : Prop :=
  (∀ (i : Instr) (s : State) (t0 t1 : Byte),
    ((∃ len lcs, i = .dataShort len lcs) ∨ ∃ h l c, i = .dataExt h l c) →
    s.seq = .rxTrailer → s.timeout ≠ 0 → s.hid.cnt ≠ 0 → s.hid.cnt.toNat ≤ 2 → s.hid.cnt.toNat ≤ s.rx.length →
    s.gathered ++ s.rx.take s.hid.cnt.toNat = [t0, t1] →
    ∃ t, exec i s = .next t ∧ t.rx = s.rx.drop s.hid.cnt.toNat ∧ t.trace = .readOk 2 [t0, t1] :: s.trace ∧ t.hid.dlen = s.hid.dlen ∧
      (t0 = neg8 s.hid.rsum → t1 = 0x00 → t.seq = .done ∧ t.hid.pend = .success) ∧
      (t0 ≠ neg8 s.hid.rsum ∨ t1 ≠ 0x00 → t.seq = .canTx ∧ t.hid.cnt = 6 ∧ t.hid.pend = .invalid) ∧
      s.sameRegs t ∧ s.sameHost t ∧ s.sameTx t ∧ t.now = s.now ∧ t.coming = s.coming) ∧
  (∀ (i : Instr) (s : State), ((∃ len lcs, i = .dataShort len lcs) ∨ ∃ h l c, i = .dataExt h l c) →
    s.seq = .rxTrailer → s.timeout ≠ 0 → s.hid.cnt.toNat ≤ 2 →
    s.rx.length < s.hid.cnt.toNat → s.elapsedReached s.timeout = true →
    ∃ t, exec i s = .next t ∧ t.seq = .canTx ∧ t.hid.cnt = 6 ∧ t.hid.pend = .invalid ∧ t.rx = [] ∧
      t.trace = .readTimeout 2 (2 - s.hid.cnt.toNat + s.rx.length) :: s.trace ∧
      s.sameRegs t ∧ s.sameHost t ∧ s.sameTx t ∧ t.now = s.now ∧ t.coming = s.coming)

/-- 41_decode.md R144, 10_state.md R23 (after a Success): DONE stores RXLEN and delivers Success; the payload bytes of
RXBUF stand, the bytes from RXLEN on are unspecified: they read as free values, whatever they were before.
(Frames of a step: log entries 28 and 30.) -/
def Obligations.SuccessIsDelivered : Prop :=
  ∀ (n : Length) (s : State), s.seq = .done → s.hid.pend = .success → s.hid.dlen.toNat ≤ 265 →
    s.listed s.hid.dlen.toNat →
    ∃ t, exec (.sendRaw n) s = .next t ∧ t.seq = .idle ∧ t.done = some .success ∧
      t.rxlen.toNat = s.hid.dlen.toNat ∧
      (∀ i, i < s.hid.dlen.toNat → t.rxByte i = s.rxByte i) ∧
      (∀ i, s.hid.dlen.toNat ≤ i → t.rxByte i = Config.freeRxByte t.draw i) ∧
      t.timeout = s.timeout ∧ t.trace = s.trace ∧ s.sameHost t ∧ s.sameTx t ∧ s.sameRx t

/-- 60_exceptions.md R211, 10_state.md R23 (after any other Result): DONE delivers the Result; RXLEN and every byte of
RXBUF are unspecified, whatever they were before; TIMEOUT is unchanged. (Frames of a step: log entries 28 and 30.) -/
def Obligations.FailureLeavesReceivedStateOpen : Prop :=
  ∀ (n : Length) (s : State), s.seq = .done → s.hid.pend ≠ .success →
    ∃ t, exec (.sendRaw n) s = .next t ∧ t.seq = .idle ∧ t.done = some s.hid.pend ∧
      t.rxlen = Config.freeRxlen s.draw ∧ (∀ i, t.rxByte i = Config.freeRxByte t.draw i) ∧
      t.timeout = s.timeout ∧ t.trace = s.trace ∧ s.sameHost t ∧ s.sameTx t ∧ s.sameRx t

/-! ### The cancel sequence -/

/-- 42_cancel.md R160: from CAN_TX the block writes the six bytes, sleeps, flushes, in this order, and is then at DONE
with the Result it had chosen. The number of steps rests on log entries 1 and 28. -/
def Obligations.CancelSequence : Prop :=
  ∀ s : State, s.EnvReady → s.seq = .canTx → s.hid.cnt = 6 →
    ∃ t, s.reaches (s.coming.length + 5) t ∧ t.seq = .done ∧
      t.trace = .flush :: .sleep 1 :: addWrite [0x00, 0x00, 0xFF, 0x00, 0xFF, 0x00] s.trace ∧
      t.txSent = s.txSent ++ s.txQueue ++ [0x00, 0x00, 0xFF, 0x00, 0xFF, 0x00] ∧ t.txQueue = [] ∧
      t.hid.pend = s.hid.pend ∧ s.sameRegs t ∧ t.ops = s.ops ∧ t.pl = s.pl ∧ (∃ late, t.rx = s.rx ++ late)

/-- 42_cancel.md R161: in each of its states of SEQ, CANCEL has no failure outcome, writes no architectural state and no
PEND, and takes no byte of the RX wire stream, whether its part ends in this step or the block stays where it is (R252). -/
def Obligations.CancelKeepsArchitecturalState : Prop :=
  ∀ s : State, s.seq = .canTx ∨ s.seq = .canSleep ∨ s.seq = .canFlush →
    ∃ t, exec .cancel s = .next t ∧ t.hid.pend = s.hid.pend ∧ t.hid.hdr = s.hid.hdr ∧ t.hid.dlen = s.hid.dlen ∧
      s.sameRegs t ∧ s.sameHost t ∧ t.done = s.done ∧ (∃ late, t.rx = s.rx ++ late)

/-! ### Whole-machine rules -/

/-- The invariant holds after reset. -/
def Obligations.ResetMeetsTheInvariant : Prop := State.reset.Inv

/-- Every step keeps the invariant: RXBUF in canonical form within 0 to 264, DLEN within 265 wherever payload is stored,
RSUM the sum of the stored payload, CNT within the current transfer, PEND a Result SENDRAW may give. (Where the bytes of a
read are held while it runs: log entry 18; where RSUM and TSUM are cleared: log entry 34.) -/
def Obligations.StepKeepsTheInvariant : Prop := ∀ s t : State, s.Inv → step s = .next t → t.Inv

/-- 30_encoding.md R95, 60_exceptions.md R200: from a state of the invariant no step faults, and only reserved codes on
the command port of an idle block are refused; every byte sequence the block can meet has an outcome. -/
def Obligations.OnlyReservedCodesStop : Prop :=
  ∀ s : State, s.Inv →
    (∃ t, step s = .next t) ∨
    (s.seq = .idle ∧ ∃ c rest, s.ops = c :: rest ∧
      (c.opCode = 0 ∧ step s = .refused .reservedOpCode ∨
        c.opCode = 2 ∧ 5 ≤ (c.opArg.setWidth 3).toNat ∧ step s = .refused (.reservedResultCode (c.opArg.setWidth 3))))

/-- 43_transaction.md R185: SEQ moves along the transition table only; it stays where it is while an event is awaited. -/
def Obligations.SequencerFollowsTheTable : Prop :=
  ∀ s t : State, s.rst = false → step s = .next t → t.seq = s.seq ∨ t.seq ∈ seqSuccessors s.seq

/-- 10_state.md R27: TIMEOUT is written only by SETTIMEOUT in IDLE (and reset). -/
def Obligations.OnlySetTimeoutWritesTimeout : Prop :=
  ∀ s t : State, s.rst = false → step s = .next t → t.timeout ≠ s.timeout →
    s.seq = .idle ∧ ∃ v rest, s.ops = ⟨3, v⟩ :: rest ∧ t.timeout = v

/-- 10_state.md R32: who writes RXBUF and RXLEN: the payload read and the end of a SENDRAW (and reset); ASSERTACK,
SETTIMEOUT, ENCODE and CANCEL never. -/
def Obligations.WhoWritesReceivedState : Prop :=
  ∀ s t : State, s.rst = false → step s = .next t →
    (t.rxbuf ≠ s.rxbuf → s.seq = .rxPayload ∨ s.seq = .done) ∧
    (t.rxlen ≠ s.rxlen → s.seq = .done)

/-- 20_memory.md R53, R58, 10_state.md R36, R37: the TX wire stream only grows, at its end, exactly where tx_valid and
tx_ready are both 1, and only in the states that write. The model's own: that bytes leave the output path only at the two
flushes (log entry 30). -/
def Obligations.TxWireStreamOnlyGrows : Prop :=
  ∀ s t : State, step s = .next t →
    (∃ out, t.txSent ++ t.txQueue = s.txSent ++ s.txQueue ++ out ∧ (out ≠ [] → s.seq.writes = true) ∧
      (out ≠ [] ↔ s.txValid = true ∧ s.txReady = true)) ∧
    (t.txSent ≠ s.txSent → s.seq = .txFlush ∨ s.seq = .canFlush)

/-- 20_memory.md R54, 10_state.md R36, R37: bytes leave the RX wire stream from the front only, only in a read request, at
most as many as it still needs, and exactly where rx_valid and rx_ready are both 1; what joins at the end is the one byte
that arrives in the step, if one does (log entry 28). -/
def Obligations.RxWireStreamIsTakenFromTheFront : Prop :=
  ∀ s t : State, step s = .next t →
    ∃ k late, t.rx = s.rx.drop k ++ late ∧ k ≤ s.rx.length ∧ k ≤ s.hid.cnt.toNat ∧
      (0 < k → s.seq.reads = true) ∧ (0 < k ↔ s.rxValid = true ∧ s.rxReady = true) ∧
      ((late = [] ∧ (t.coming = s.coming ∨ s.coming = .tick :: t.coming)) ∨
        ∃ b, late = [b] ∧ s.coming = .byte b :: t.coming)

/-- 10_state.md R28: a Result is delivered exactly when an operation ends: at DONE, and where ASSERTACK or SETTIMEOUT is
taken from the command port. The block is then in IDLE; SENDRAW gives PEND, SETTIMEOUT gives Success (R183), and SENDRAW
never gives NotFound (43_transaction.md R172). -/
def Obligations.ResultsAreDeliveredInIdle : Prop :=
  ∀ s t : State, step s = .next t →
    ((∃ r, t.done = some r) ↔
      s.rst = false ∧ (s.seq = .done ∨
        (s.seq = .idle ∧ ∃ c rest, s.ops = c :: rest ∧ (c.opCode = 2 ∨ c.opCode = 3)))) ∧
    (∀ r, t.done = some r →
      t.seq = .idle ∧ (s.seq = .done → r = s.hid.pend) ∧
      (s.seq = .idle → ∀ v rest, s.ops = ⟨3, v⟩ :: rest → r = .success)) ∧
    (s.Inv → t.done = some .notFound → s.seq = .idle)

/-- 20_memory.md R59, R60, R62, 60_exceptions.md R221: a read request ends with all its bytes, or having lost fewer than it
asked for; while it waits it has taken what had arrived. Under a TIMEOUT other than 0 it completes if and only if its
bytes are there; with bytes missing it expires if and only if the time since its start has reached TIMEOUT, and else
waits. The model's own: that the bytes are looked at before the clock (log entry 11), that one step takes all the bytes that
are there (log entry 1), and that at most one byte arrives in a step that waits (log entry 28). -/
def Obligations.ReadRequestIsAllOrNothing : Prop :=
  ∀ s : State, s.hid.cnt ≠ 0 →
    ((∃ t, s.readRequest = .complete t ∧ s.hid.cnt.toNat ≤ s.rx.length ∧ t.rx = s.rx.drop s.hid.cnt.toNat ∧
        t.hid.cnt = 0) ∨
      (∃ t k, s.readRequest = .expired t ∧ k < s.hid.cnt.toNat ∧ k ≤ s.rx.length ∧ t.rx = s.rx.drop k) ∨
      (∃ t, s.readRequest = .waiting t ∧ s.rx.length < s.hid.cnt.toNat ∧ t.rx.length ≤ 1 ∧
        t.hid.cnt.toNat = s.hid.cnt.toNat - s.rx.length)) ∧
    (s.timeout ≠ 0 →
      ((∃ t, s.readRequest = .complete t) ↔ s.hid.cnt.toNat ≤ s.rx.length) ∧
      ((∃ t, s.readRequest = .expired t) ↔
        s.rx.length < s.hid.cnt.toNat ∧ s.timeout.toNat ≤ (s.now - s.hid.t0).toNat) ∧
      ((∃ t, s.readRequest = .waiting t) ↔
        s.rx.length < s.hid.cnt.toNat ∧ (s.now - s.hid.t0).toNat < s.timeout.toNat))

/-- 60_exceptions.md R223: under TIMEOUT = 0 both outcomes of a read request are admitted. The model's own (log entry 10):
that the request ends at once, and that which outcome it has, for waiting bytes, is the free value
`Config.zeroTimeoutExpires`, of which nothing is said. -/
def Obligations.ZeroTimeoutReadEndsAtOnce : Prop :=
  ∀ s : State, s.timeout = 0 → s.hid.cnt ≠ 0 →
    (s.rx.length < s.hid.cnt.toNat → ∃ t, s.readRequest = .expired t) ∧
    (s.hid.cnt.toNat ≤ s.rx.length →
      (Config.zeroTimeoutExpires s.draw = true → ∃ t, s.readRequest = .expired t) ∧
      (Config.zeroTimeoutExpires s.draw = false → ∃ t, s.readRequest = .complete t))

/-- 70_reset_and_hazards.md R252, R253: an environment that does not complete a flush, a sleep or a write, or a host
that offers no payload byte, holds the block in its state. The model's own: that such a step answers the same state again,
with the done_valid pulse over (log entries 13 and 26), so that nothing arrives and no time passes in it (log entry 28) and
no byte leaves the output path (log entry 30), and that a flush or a sleep that is not over is not in the trace (log entry
33). -/
def Obligations.UnansweredEventsHoldTheBlock : Prop :=
  ∀ s : State, s.rst = false →
    (s.seq = .txFlush ∨ s.seq = .canFlush → s.flushDone = false → step s = .next { s with done := none }) ∧
    (s.seq = .canSleep → s.coming = [] → s.clockRuns = false → (s.now - s.hid.t0).toNat < 2 →
      step s = .next { s with done := none }) ∧
    (s.seq.writes = true → s.hid.cnt ≠ 0 → s.txRoom = some 0 → step s = .next { s with done := none }) ∧
    (s.seq = .txPayload → s.hid.cnt ≠ 0 → s.pl = [] → step s = .next { s with done := none })

/-- 10_state.md R26, R36, R37: the outputs. BUSY; the read port: RXBUF, RXLEN while idle, TIMEOUT at any time; done_valid
with res_code; the ready and valid lines and flush_req, by the state of SEQ. Under reset the lines of the last group are 0
(log entry 31); rx_ready under TIMEOUT = 0 is left open (log entry 10). -/
def Obligations.PortsShowTheState : Prop :=
  ∀ s : State,
    (s.busy = true ↔ s.seq ≠ .idle) ∧
    (s.busy = false → s.rxlenPort = s.rxlen ∧ ∀ a : BitVec 9, a.toNat < 265 → s.rbData a = s.rxByte a.toNat) ∧
    s.timeoutPort = s.timeout ∧
    (s.doneValid = true ↔ ∃ r, s.done = some r ∧ s.resCode = some r.code) ∧
    (s.opReady = true ↔ s.rst = false ∧ s.seq = .idle) ∧
    (s.plReady = true ↔ s.rst = false ∧ s.seq = .txPayload ∧ s.hid.cnt ≠ 0 ∧ s.txRoom ≠ some 0) ∧
    (s.txValid = true ↔ s.rst = false ∧ s.hid.cnt ≠ 0 ∧
      (s.seq ∈ [.txHeader, .txTrailer, .canTx] ∨ s.seq = .txPayload ∧ s.pl ≠ [])) ∧
    (s.rxReady = true →
      s.rst = false ∧ s.hid.cnt ≠ 0 ∧ s.seq ∈ [.rxAck, .rxHdr, .rxExt, .rxPayload, .rxTrailer]) ∧
    (s.rst = false → s.hid.cnt ≠ 0 → s.seq ∈ [.rxAck, .rxHdr, .rxExt, .rxPayload, .rxTrailer] → s.timeout ≠ 0 →
      s.rxReady = true) ∧
    (s.flushReq = true ↔ s.rst = false ∧ (s.seq = .txFlush ∨ s.seq = .canFlush))

/-! ### Headlines -/

/-- 41_decode.md R146: the failure table on a script, row by row, and the row without failure, for every header the decoder
accepts: short, extended, and the extended ones with a length of 255 or less (R96, `isHeader`). The cancel of rows 4 and 5
is a parameter of the spec at its default (log entry 19; conflict C2, decision D12), row 10 is decision D13. -/
def Obligations.FailureTable : Prop :=
  (∀ rx : List Byte, rx.length < 6 → (scriptDecode rx).result = .noAck ∧ (scriptDecode rx).cancel = true) ∧
  (∀ a r : List Byte, a.length = 6 → a ≠ fixedFrame →
    (scriptDecode (a ++ r)).result = .noAck ∧ (scriptDecode (a ++ r)).cancel = true) ∧
  (∀ r : List Byte, r.length < 5 →
    (scriptDecode (fixedFrame ++ r)).result = .failed ∧ (scriptDecode (fixedFrame ++ r)).cancel = true) ∧
  (∀ h0 h1 h2 h3 h4 : Byte, ∀ r : List Byte, ¬(h0 = 0x00 ∧ h1 = 0x00 ∧ h2 = 0xFF) →
    (scriptDecode (fixedFrame ++ [h0, h1, h2, h3, h4] ++ r)).result = .invalid ∧
    (scriptDecode (fixedFrame ++ [h0, h1, h2, h3, h4] ++ r)).cancel = true) ∧
  (∀ r : List Byte, r.length < 3 →
    (scriptDecode (fixedFrame ++ [0x00, 0x00, 0xFF, 0xFF, 0xFF] ++ r)).result = .invalid ∧
    (scriptDecode (fixedFrame ++ [0x00, 0x00, 0xFF, 0xFF, 0xFF] ++ r)).cancel = true) ∧
  (∀ e0 e1 e2 : Byte, ∀ r : List Byte, (e0.toNat + e1.toNat + e2.toNat) % 256 ≠ 0 →
    (scriptDecode (fixedFrame ++ [0x00, 0x00, 0xFF, 0xFF, 0xFF, e0, e1, e2] ++ r)).result = .invalid ∧
    (scriptDecode (fixedFrame ++ [0x00, 0x00, 0xFF, 0xFF, 0xFF, e0, e1, e2] ++ r)).cancel = false) ∧
  (∀ l c : Byte, ∀ r : List Byte, ¬(l = 0xFF ∧ c = 0xFF) → (l.toNat + c.toNat) % 256 ≠ 0 →
    (scriptDecode (fixedFrame ++ [0x00, 0x00, 0xFF, l, c] ++ r)).result = .invalid ∧
    (scriptDecode (fixedFrame ++ [0x00, 0x00, 0xFF, l, c] ++ r)).cancel = false) ∧
  (∀ (n : Nat) (h r : List Byte), isHeader n h → 265 < n →
    (scriptDecode (fixedFrame ++ h ++ r)).result = .failed ∧ (scriptDecode (fixedFrame ++ h ++ r)).cancel = false) ∧
  (∀ (n : Nat) (h r : List Byte), isHeader n h → n ≤ 265 → r.length < n →
    (scriptDecode (fixedFrame ++ h ++ r)).result = .failed ∧ (scriptDecode (fixedFrame ++ h ++ r)).cancel = true) ∧
  (∀ h p r : List Byte, isHeader p.length h → p.length ≤ 265 → r.length < 2 →
    (scriptDecode (fixedFrame ++ h ++ p ++ r)).result = .invalid ∧
    (scriptDecode (fixedFrame ++ h ++ p ++ r)).cancel = true) ∧
  (∀ (h p r : List Byte) (t0 t1 : Byte), isHeader p.length h → p.length ≤ 265 → t0 ≠ cks p ∨ t1 ≠ 0x00 →
    (scriptDecode (fixedFrame ++ h ++ p ++ t0 :: t1 :: r)).result = .invalid ∧
    (scriptDecode (fixedFrame ++ h ++ p ++ t0 :: t1 :: r)).cancel = true) ∧
  (∀ h p r : List Byte, isHeader p.length h → p.length ≤ 265 →
    scriptDecode (fixedFrame ++ h ++ p ++ [cks p, 0x00] ++ r) =
      ⟨.success, false, p, r, (scriptDecode (fixedFrame ++ h ++ p ++ [cks p, 0x00] ++ r)).events⟩) ∧
  (∀ p : List Byte, p.length ≤ 65535 →
    isHeader p.length (txHeader (BitVec.ofNat 16 p.length)) ∧
    frame p = txHeader (BitVec.ofNat 16 p.length) ++ p ++ [cks p, 0x00])

/-- 41_decode.md R147, 90_conflicts.md C1: the round trip on the machine itself. A SENDRAW of any command, with the ACK
frame and the frame of P waiting, ends in Success with RXLEN = |P| and RXBUF[0..|P|-1] = P for |P| ≤ 265, and in Failed
for 266 to 65535, with no payload byte read; without the ACK frame in front it ends in NoAck for every P. The model's own:
that nothing arrives while the bytes are there to be read (log entry 28), and the number of steps (log entry 1). -/
def Obligations.RoundTripThroughTheMachine : Prop :=
  ∀ (p q more late : List Byte) (a : BitVec 32) (rest : List Command) (s : State),
    s.EnvReady → s.seq = .idle → s.timeout ≠ 0 → s.ops = ⟨1, a⟩ :: rest → (a.setWidth 16).toNat = q.length →
    s.pl = q ++ more → p.length ≤ 65535 →
    (p.length ≤ 265 → s.rx = fixedFrame ++ frame p ++ late →
      ∃ t, s.reaches 12 t ∧ t.seq = .idle ∧ t.done = some .success ∧ t.rxlen.toNat = p.length ∧
        t.rxBytes p.length = p ∧ t.rx = late ∧ t.ops = rest ∧ t.pl = more ∧ t.timeout = s.timeout) ∧
    (265 < p.length → s.rx = fixedFrame ++ frame p ++ late →
      ∃ t, s.reaches 12 t ∧ t.seq = .idle ∧ t.done = some .failed ∧ t.rx = p ++ [cks p, 0x00] ++ late ∧
        t.txSent ++ t.txQueue = s.txSent ++ s.txQueue ++ frame q) ∧
    (s.rx = frame p ++ late →
      ∃ t, s.reaches (s.coming.length + 16) t ∧ t.seq = .idle ∧ t.done = some .noAck ∧
        t.txSent = s.txSent ++ s.txQueue ++ frame q ++ fixedFrame ∧ t.txQueue = [])

/-- 43_transaction.md R187, R171, R173: the big step and the small step agree. In the scripted environment of R63 a
SENDRAW of any command on any received bytes ends with the Result, the trace, the unread bytes and, on Success, the
payload that DECODE as a function gives. The cancel of rows 4 and 5 of R146 is at the default of log entry 19; the number
of steps is log entry 1. -/
def Obligations.BigStepAndSmallStepAgree : Prop :=
  ∀ (q more : List Byte) (a : BitVec 32) (rest : List Command) (s : State),
    s.EnvReady → s.seq = .idle → s.timeout ≠ 0 → s.coming = [] → s.ops = ⟨1, a⟩ :: rest →
    (a.setWidth 16).toNat = q.length → s.pl = q ++ more →
    ∃ t, s.reaches 24 t ∧ t.seq = .idle ∧ t.done = some (scriptDecode s.rx).result ∧
      t.trace = (scriptTrace q s.rx).reverse ++ s.trace ∧ t.rx = (scriptDecode s.rx).left ∧
      t.ops = rest ∧ t.pl = more ∧ t.timeout = s.timeout ∧
      ((scriptDecode s.rx).result = .success →
        t.rxlen.toNat = (scriptDecode s.rx).payload.length ∧
        t.rxBytes (scriptDecode s.rx).payload.length = (scriptDecode s.rx).payload)

/-- 43_transaction.md R174 (c), 20_memory.md R66: every SENDRAW ends. From any busy state of the invariant, under every
arrival of bytes and milliseconds, with an environment that keeps its duties and a host that supplies the payload, the
block is back in IDLE with a Result, and the Result is one SENDRAW may give. The number of steps rests on log entries 1
and 28. -/
def Obligations.EverySendRawEnds : Prop :=
  ∀ s : State, s.Inv → s.EnvReady → s.payloadSupplied → s.busy = true →
    ∃ t r, s.reaches (s.coming.length + 30) t ∧ t.seq = .idle ∧ t.done = some r ∧
      (r = .success ∨ r = .failed ∨ r = .noAck ∨ r = .invalid)

/-! ### Parts that go on, parts that wait, and the transfers on the ports -/

/-- 42_cancel.md R160, 43_transaction.md R185 (CAN_TX, CAN_SLEEP): CANCEL hands over what is due of the six bytes, and with
all of them handed over starts the sleep; a transport with room for `r` of the bytes due takes those first; the sleep ends with its
event when two pulses have come, and not before (20_memory.md R64, R165 (b), 60_exceptions.md R224: a lower bound; two
pulses: log entry 12), whatever arrives and whether the clock runs or not. The model's own: how much one step hands over
(log entry 1), that the bytes then stand in the output path (log entry 30), that nothing arrives while the block writes, and
what happens in a step of the sleep (log entry 28); bytes join the trace as they are handed over, the sleep when it is over
(log entry 33). -/
def Obligations.CancelPartsGoOn : Prop :=
  ∀ s : State,
    (s.seq = .canTx → s.hid.cnt.toNat ≤ 6 → (∀ r, s.txRoom = some r → s.hid.cnt.toNat ≤ r) →
      exec .cancel s = .next
        { s with
          txQueue := s.txQueue ++ [0x00, 0x00, 0xFF, 0x00, 0xFF, 0x00].drop (6 - s.hid.cnt.toNat)
          txRoom := s.txRoom.map (· - s.hid.cnt.toNat)
          trace := addWrite ([0x00, 0x00, 0xFF, 0x00, 0xFF, 0x00].drop (6 - s.hid.cnt.toNat)) s.trace
          seq := .canSleep
          hid := { s.hid with cnt := 0, t0 := s.now } }) ∧
    (∀ r, s.seq = .canTx → s.hid.cnt.toNat ≤ 6 → s.txRoom = some r → r < s.hid.cnt.toNat →
      exec .cancel s = .next
        { s with
          txQueue := s.txQueue ++ ([0x00, 0x00, 0xFF, 0x00, 0xFF, 0x00].drop (6 - s.hid.cnt.toNat)).take r
          txRoom := some 0
          trace := addWrite (([0x00, 0x00, 0xFF, 0x00, 0xFF, 0x00].drop (6 - s.hid.cnt.toNat)).take r) s.trace
          hid := { s.hid with cnt := BitVec.ofNat 16 (s.hid.cnt.toNat - r) } }) ∧
    (s.seq = .canSleep → 2 ≤ (s.now - s.hid.t0).toNat →
      exec .cancel s = .next { s with seq := .canFlush, trace := .sleep 1 :: s.trace }) ∧
    (s.seq = .canSleep → (s.now - s.hid.t0).toNat < 2 →
      ∃ t, exec .cancel s = .next t ∧ t.seq = .canSleep ∧ t.trace = s.trace ∧ t.hid = s.hid ∧ t.done = s.done ∧
        s.sameRegs t ∧ s.sameHost t ∧ s.sameTx t ∧ t.clockRuns = s.clockRuns ∧
        (s.coming = [] → t.rx = s.rx ∧ t.coming = [] ∧ t.now = if s.clockRuns then s.hid.t0 + 2 else s.now) ∧
        (∀ b r, s.coming = .byte b :: r → t.rx = s.rx ++ [b] ∧ t.coming = r ∧ t.now = s.now) ∧
        (∀ r, s.coming = .tick :: r → t.rx = s.rx ∧ t.coming = r ∧ t.now = s.now + 1))

/-- 20_memory.md R60, 60_exceptions.md R221: in each of the five reading states, a request with bytes missing and time left
does not end: it keeps the bytes that came in earlier steps, puts those that are there behind them, counts them off CNT
(10_state.md R29), keeps its start time and its place in the table, and adds no event. The places are HDR (R29), or RXBUF
and RSUM (R29, 41_decode.md R141). The model's own: the places in HDR, and that RXBUF is written as the bytes arrive (log entry 18);
that one step takes all the bytes that are there (log entry 1); what happens while it waits (the next arrival; with none,
the time passes, if the clock runs: log entry 28); that no byte leaves the output path (log entry 30); that a request that is
not over is not in the trace (log entry 33). -/
def Obligations.ReadsWaitUntilTheirTime : Prop :=
  ∀ s : State, s.rst = false → s.seq.reads = true → s.hid.cnt.toNat ≤ s.readCount →
    (s.seq = .rxPayload → s.hid.dlen.toNat ≤ 265) → s.timeout ≠ 0 → s.rx.length < s.hid.cnt.toNat →
    (s.now - s.hid.t0).toNat < s.timeout.toNat →
    ∃ t, step s = .next t ∧ t.seq = s.seq ∧ t.gathered = s.gathered ++ s.rx ∧
      t.hid.cnt.toNat = s.hid.cnt.toNat - s.rx.length ∧ t.hid.t0 = s.hid.t0 ∧ t.hid.dlen = s.hid.dlen ∧
      t.hid.pend = s.hid.pend ∧
      t.hid.rsum = (if s.seq = .rxPayload then s.hid.rsum + sum8 s.rx else s.hid.rsum) ∧
      t.trace = s.trace ∧ t.done = none ∧ t.rxlen = s.rxlen ∧ t.timeout = s.timeout ∧ s.sameHost t ∧ s.sameTx t ∧
      t.clockRuns = s.clockRuns ∧
      (s.coming = [] → t.rx = [] ∧ t.coming = [] ∧ t.now = if s.clockRuns then s.hid.t0 + s.timeout else s.now) ∧
      (∀ b r, s.coming = .byte b :: r → t.rx = [b] ∧ t.coming = r ∧ t.now = s.now) ∧
      (∀ r, s.coming = .tick :: r → t.rx = [] ∧ t.coming = r ∧ t.now = s.now + 1)

/-- 10_state.md R36, R37: a transfer happens exactly where both lines of a pair are 1: an operation, payload bytes, a
flush. (The transport's two byte streams: TxWireStreamOnlyGrows, RxWireStreamIsTakenFromTheFront.) A step takes one
operation, and of the payload as many bytes as it can (log entry 1). That the flush enters the trace when it completes is
log entry 33. -/
def Obligations.PortTransfersHappen : Prop :=
  ∀ s t : State, step s = .next t →
    (s.opValid = true → s.opReady = true → t.ops = s.ops.tail) ∧
    (¬(s.opValid = true ∧ s.opReady = true) → t.ops = s.ops) ∧
    (∃ n, t.pl = s.pl.drop n ∧ n ≤ s.pl.length ∧ (0 < n ↔ s.plValid = true ∧ s.plReady = true)) ∧
    (t.trace = .flush :: s.trace ↔ s.flushReq = true ∧ s.flushDone = true)

/-- 41_decode.md R131, R133 to R136, R141 to R144: whatever TIMEOUT is (0 among the values, R223), a read request that
completes has taken exactly the bytes it still needed, shows those of all its steps in its one event, and goes on as its
step of DECODE says: the six bytes are compared, the header is decoded, the length bytes make the frame, the payload stands
in RXBUF and opens the trailer read, the trailer is checked; each read it opens starts at the current time (R60). WHEN a
request completes is ReadRequestIsAllOrNothing and ZeroTimeoutReadEndsAtOnce. The cancel of a wrong preamble is the default
of log entry 19. (What a step takes: log entry 1; places in HDR, and RXBUF written as the bytes arrive: 18; the event at the
end of the request: 33; frames of a step: 28, 30.) -/
def Obligations.CompleteReadsGoOn : Prop :=
  ∀ s u : State, s.rst = false → s.seq.reads = true → s.hid.cnt ≠ 0 → s.hid.cnt.toNat ≤ s.readCount →
    s.nextCycle.readRequest = .complete u →
    (s.hid.cnt.toNat ≤ s.rx.length ∧ u.rx = s.rx.drop s.hid.cnt.toNat ∧
      u.trace = .readOk s.readCount (s.gathered ++ s.rx.take s.hid.cnt.toNat) :: s.trace ∧ u.hid.cnt = 0 ∧
      u.hid.dlen = s.hid.dlen ∧ u.hid.pend = s.hid.pend ∧ (s.seq ≠ .rxPayload → u.rxbuf = s.rxbuf ∧ u.hid.rsum = s.hid.rsum) ∧
      u.rxlen = s.rxlen ∧ u.timeout = s.timeout ∧ u.done = none ∧ s.sameHost u ∧ s.sameTx u ∧ u.coming = s.coming ∧
      u.clockRuns = s.clockRuns ∧ u.now = s.now) ∧
    (s.seq = .rxAck →
      (s.gathered ++ s.rx.take s.hid.cnt.toNat = [0x00, 0x00, 0xFF, 0x00, 0xFF, 0x00] →
        step s = .next { u with seq := .rxHdr, hid := { u.hid with cnt := 5, t0 := s.now } }) ∧
      (s.gathered ++ s.rx.take s.hid.cnt.toNat ≠ [0x00, 0x00, 0xFF, 0x00, 0xFF, 0x00] →
        step s = .next { u with seq := .canTx, hid := { u.hid with pend := .noAck, cnt := 6 } })) ∧
    (s.seq = .rxHdr → ∀ h0 h1 h2 h3 h4 : Byte, s.gathered ++ s.rx.take s.hid.cnt.toNat = [h0, h1, h2, h3, h4] →
      (¬(h0 = 0x00 ∧ h1 = 0x00 ∧ h2 = 0xFF) →
        step s = .next { u with seq := .canTx, hid := { u.hid with pend := .invalid, cnt := 6 } }) ∧
      (h0 = 0x00 → h1 = 0x00 → h2 = 0xFF → h3 = 0xFF ∧ h4 = 0xFF →
        step s = .next { u with seq := .rxExt, hid := { u.hid with cnt := 3, t0 := s.now } }) ∧
      (h0 = 0x00 → h1 = 0x00 → h2 = 0xFF → ¬(h3 = 0xFF ∧ h4 = 0xFF) →
        step s = .next { u with seq := .rxCheck } ∧ rxFrame u.hid.hdr = .dataShort h3 h4)) ∧
    (s.seq = .rxExt →
      step s = .next { u with seq := .rxCheck } ∧
      ∀ e0 e1 e2 : Byte, s.hid.hdr.bytes.take 5 = [0x00, 0x00, 0xFF, 0xFF, 0xFF] →
        s.gathered ++ s.rx.take s.hid.cnt.toNat = [e0, e1, e2] → rxFrame u.hid.hdr = .dataExt e0 e1 e2) ∧
    (s.seq = .rxPayload → s.hid.dlen.toNat ≤ 265 →
      step s = .next { u with seq := .rxTrailer, hid := { u.hid with cnt := 2, t0 := s.now } } ∧
      u.hid.rsum = s.hid.rsum + sum8 (s.rx.take s.hid.cnt.toNat) ∧
      (∀ j, j < s.hid.cnt.toNat → Memory.read? u.rxbuf (s.hid.dlen.toNat - s.hid.cnt.toNat + j) = s.rx[j]?) ∧
      (∀ j, j < s.hid.dlen.toNat - s.hid.cnt.toNat ∨ s.hid.dlen.toNat ≤ j →
        Memory.read? u.rxbuf j = Memory.read? s.rxbuf j)) ∧
    (s.seq = .rxTrailer → ∀ t0 t1 : Byte, s.gathered ++ s.rx.take s.hid.cnt.toNat = [t0, t1] →
      (t0 = neg8 s.hid.rsum → t1 = 0x00 →
        step s = .next { u with seq := .done, hid := { u.hid with pend := .success } }) ∧
      (t0 ≠ neg8 s.hid.rsum ∨ t1 ≠ 0x00 →
        step s = .next { u with seq := .canTx, hid := { u.hid with pend := .invalid, cnt := 6 } }))
end

