-- ==== Sys2Proof/Laws/Memory.lean ====
section
/-! SUPPORT. The laws of RXBUF: reading after writing, and the canonical form that every operation keeps. -/

namespace Sys2Proof.Machine

theorem read_write_same (m : Memory) (i : Nat) (b : Byte) : Memory.read? (Memory.write m i b) i = some b := by
  induction m with
  | nil => simp [Memory.write, Memory.read?]
  | cons c r ih =>
    obtain ⟨k, v⟩ := c
    by_cases h1 : i < k
    · simp [Memory.write, Memory.read?, h1]
    · by_cases h2 : i = k
      · simp [Memory.write, Memory.read?, h2]
      · simp [Memory.write, Memory.read?, h1, h2, ih, Ne.symm h2]

/-- In canonical form nothing below the first listed index has a value. -/
theorem read_below_head (m : Memory) (i : Nat) (h : ∀ c ∈ m, i < c.1) : Memory.read? m i = none := by
  induction m with
  | nil => rfl
  | cons c r ih =>
    obtain ⟨k, v⟩ := c
    have hk : i < k := h (k, v) (by simp)
    have := ih fun c hc => h c (by simp [hc])
    simp [Memory.read?, this, Nat.ne_of_gt hk]

theorem read_write_other (m : Memory) (i j : Nat) (b : Byte) (h : i ≠ j) :
    Memory.read? (Memory.write m i b) j = Memory.read? m j := by
  induction m with
  | nil => simp [Memory.write, Memory.read?, h]
  | cons c r ih =>
    obtain ⟨k, v⟩ := c
    by_cases h1 : i < k
    · simp [Memory.write, Memory.read?, h1, h]
    · by_cases h2 : i = k
      · subst h2; simp [Memory.write, Memory.read?, h]
      · simp [Memory.write, Memory.read?, h1, h2, ih]

theorem mem_write (m : Memory) (i : Nat) (b : Byte) (c : Host.Cell) (h : c ∈ Memory.write m i b) :
    c = (i, b) ∨ c ∈ m := by
  induction m with
  | nil => simpa [Memory.write] using h
  | cons d r ih =>
    obtain ⟨k, v⟩ := d
    by_cases h1 : i < k
    · simpa [Memory.write, h1] using h
    · by_cases h2 : i = k
      · subst h2
        simp [Memory.write] at h
        rcases h with h | h
        · exact .inl h
        · exact .inr (by simp [h])
      · simp [Memory.write, h1, h2] at h
        rcases h with h | h
        · exact .inr (by simp [h])
        · rcases ih h with h | h
          · exact .inl h
          · exact .inr (by simp [h])

/-- A write inside RXBUF keeps the canonical form. -/
theorem write_wf (m : Memory) (i : Nat) (b : Byte) (hm : Memory.wf m) (hi : i < Config.maxResp) :
    Memory.wf (Memory.write m i b) := by
  refine ⟨?_, fun c hc => ?_⟩
  · obtain ⟨hp, -⟩ := hm
    induction m with
    | nil => simp [Memory.write]
    | cons d r ih =>
      obtain ⟨k, v⟩ := d
      have hr := List.pairwise_cons.1 hp
      by_cases h1 : i < k
      · simp only [Memory.write, h1, if_true]
        refine List.pairwise_cons.2 ⟨fun c hc => ?_, hp⟩
        rcases List.mem_cons.1 hc with rfl | hc
        · exact h1
        · exact Nat.lt_trans h1 (hr.1 c hc)
      · by_cases h2 : i = k
        · subst h2
          simp only [Memory.write, Nat.lt_irrefl, if_false, if_true]
          exact List.pairwise_cons.2 ⟨fun c hc => hr.1 c hc, hr.2⟩
        · simp only [Memory.write, h1, h2, if_false]
          refine List.pairwise_cons.2 ⟨fun c hc => ?_, ih hr.2⟩
          rcases mem_write r i b c hc with rfl | hc
          · exact Nat.lt_of_le_of_ne (Nat.le_of_not_lt h1) (Ne.symm h2)
          · exact hr.1 c hc
  · rcases mem_write m i b c hc with rfl | hc
    · exact hi
    · exact hm.2 c hc

theorem writeAll_append (m : Memory) (i : Nat) (s t : List Byte) :
    Memory.writeAll m i (s ++ t) = Memory.writeAll (Memory.writeAll m i s) (i + s.length) t := by
  induction s generalizing m i with
  | nil => simp [Memory.writeAll]
  | cons b s ih => simp [Memory.writeAll, ih, Nat.add_assoc, Nat.add_comm 1]

/-- Outside the written indices every byte reads as before. -/
theorem read_writeAll_outside (m : Memory) (i j : Nat) (s : List Byte) (h : j < i ∨ i + s.length ≤ j) :
    Memory.read? (Memory.writeAll m i s) j = Memory.read? m j := by
  induction s generalizing m i with
  | nil => rfl
  | cons b s ih =>
    simp only [List.length_cons] at h
    rw [Memory.writeAll, ih _ _ (by omega), read_write_other _ _ _ _ (by omega)]

/-- Byte `j` of what was written stands at index `i + j`. -/
theorem read_writeAll_inside (m : Memory) (i j : Nat) (s : List Byte) (h : j < s.length) :
    Memory.read? (Memory.writeAll m i s) (i + j) = some s[j] := by
  induction s generalizing m i j with
  | nil => simp at h
  | cons b s ih =>
    cases j with
    | zero => rw [Memory.writeAll, read_writeAll_outside _ _ _ _ (by omega)]; exact read_write_same m i b
    | succ j =>
      have := ih (Memory.write m i b) (i + 1) j (by simpa using h)
      simpa [Memory.writeAll, Nat.add_assoc, Nat.add_comm 1] using this

theorem writeAll_wf (m : Memory) (i : Nat) (s : List Byte) (hm : Memory.wf m)
    (hi : i + s.length ≤ Config.maxResp) : Memory.wf (Memory.writeAll m i s) := by
  induction s generalizing m i with
  | nil => exact hm
  | cons b s ih =>
    simp only [List.length_cons] at hi
    exact ih _ _ (write_wf m i b hm (by omega)) (by omega)

theorem read_below (m : Memory) (n i : Nat) :
    Memory.read? (Memory.below m n) i = if i < n then Memory.read? m i else none := by
  induction m with
  | nil => simp [Memory.below, Memory.read?]
  | cons c r ih =>
    obtain ⟨k, v⟩ := c
    by_cases hk : k < n
    · by_cases hi : k = i
      · subst hi; simp [Memory.below, Memory.read?, hk]
      · simpa [Memory.below, Memory.read?, hk, hi] using ih
    · by_cases hi : k = i
      · subst hi; simpa [Memory.below, Memory.read?, hk] using ih
      · simpa [Memory.below, Memory.read?, hk, hi] using ih

theorem below_wf (m : Memory) (n : Nat) (hm : Memory.wf m) : Memory.wf (Memory.below m n) :=
  ⟨hm.1.filter _, fun c hc => hm.2 c (List.mem_filter.1 hc).1⟩

/-- An index outside RXBUF has no specified value. -/
theorem read_outside (m : Memory) (i : Nat) (hm : Memory.wf m) (hi : Config.maxResp ≤ i) :
    Memory.read? m i = none := by
  obtain ⟨-, hb⟩ := hm
  induction m with
  | nil => rfl
  | cons c r ih =>
    obtain ⟨k, v⟩ := c
    have hk : k < Config.maxResp := hb (k, v) (by simp)
    have := ih fun c hc => hb c (by simp [hc])
    simp [Memory.read?, this, show k ≠ i by omega]

end Sys2Proof.Machine
end

