-- ==== Sys2Proof/Laws/State.lean ====
section
/-! SUPPORT. One lemma per field for the named updates of State: each says what the update leaves in the field. -/

namespace Sys2Proof.Machine

@[simp] theorem goto_rxbuf (s : State) (q : SeqState) : (s.goto q).rxbuf = s.rxbuf := rfl
@[simp] theorem goto_rxlen (s : State) (q : SeqState) : (s.goto q).rxlen = s.rxlen := rfl
@[simp] theorem goto_timeout (s : State) (q : SeqState) : (s.goto q).timeout = s.timeout := rfl
@[simp] theorem goto_seq (s : State) (q : SeqState) : (s.goto q).seq = q := rfl
@[simp] theorem goto_hid (s : State) (q : SeqState) : (s.goto q).hid = s.hid := rfl
@[simp] theorem goto_done (s : State) (q : SeqState) : (s.goto q).done = s.done := rfl
@[simp] theorem goto_rst (s : State) (q : SeqState) : (s.goto q).rst = s.rst := rfl
@[simp] theorem goto_ops (s : State) (q : SeqState) : (s.goto q).ops = s.ops := rfl
@[simp] theorem goto_pl (s : State) (q : SeqState) : (s.goto q).pl = s.pl := rfl
@[simp] theorem goto_rx (s : State) (q : SeqState) : (s.goto q).rx = s.rx := rfl
@[simp] theorem goto_coming (s : State) (q : SeqState) : (s.goto q).coming = s.coming := rfl
@[simp] theorem goto_clockRuns (s : State) (q : SeqState) : (s.goto q).clockRuns = s.clockRuns := rfl
@[simp] theorem goto_now (s : State) (q : SeqState) : (s.goto q).now = s.now := rfl
@[simp] theorem goto_txQueue (s : State) (q : SeqState) : (s.goto q).txQueue = s.txQueue := rfl
@[simp] theorem goto_txSent (s : State) (q : SeqState) : (s.goto q).txSent = s.txSent := rfl
@[simp] theorem goto_txRoom (s : State) (q : SeqState) : (s.goto q).txRoom = s.txRoom := rfl
@[simp] theorem goto_flushDone (s : State) (q : SeqState) : (s.goto q).flushDone = s.flushDone := rfl
@[simp] theorem goto_trace (s : State) (q : SeqState) : (s.goto q).trace = s.trace := rfl
@[simp] theorem goto_draw (s : State) (q : SeqState) : (s.goto q).draw = s.draw := rfl

@[simp] theorem startWrite_rxbuf (s : State) (q : SeqState) (n : Nat) : (s.startWrite q n).rxbuf = s.rxbuf := rfl
@[simp] theorem startWrite_rxlen (s : State) (q : SeqState) (n : Nat) : (s.startWrite q n).rxlen = s.rxlen := rfl
@[simp] theorem startWrite_timeout (s : State) (q : SeqState) (n : Nat) : (s.startWrite q n).timeout = s.timeout := rfl
@[simp] theorem startWrite_seq (s : State) (q : SeqState) (n : Nat) : (s.startWrite q n).seq = q := rfl
@[simp] theorem startWrite_hdr (s : State) (q : SeqState) (n : Nat) : (s.startWrite q n).hid.hdr = s.hid.hdr := rfl
@[simp] theorem startWrite_dlen (s : State) (q : SeqState) (n : Nat) : (s.startWrite q n).hid.dlen = s.hid.dlen := rfl
@[simp] theorem startWrite_rsum (s : State) (q : SeqState) (n : Nat) : (s.startWrite q n).hid.rsum = s.hid.rsum := rfl
@[simp] theorem startWrite_cnt (s : State) (q : SeqState) (n : Nat) : (s.startWrite q n).hid.cnt = BitVec.ofNat 16 n := rfl
@[simp] theorem startWrite_pend (s : State) (q : SeqState) (n : Nat) : (s.startWrite q n).hid.pend = s.hid.pend := rfl
@[simp] theorem startWrite_t0 (s : State) (q : SeqState) (n : Nat) : (s.startWrite q n).hid.t0 = s.hid.t0 := rfl
@[simp] theorem startWrite_tlen (s : State) (q : SeqState) (n : Nat) : (s.startWrite q n).hid.tlen = s.hid.tlen := rfl
@[simp] theorem startWrite_tsum (s : State) (q : SeqState) (n : Nat) : (s.startWrite q n).hid.tsum = s.hid.tsum := rfl
@[simp] theorem startWrite_done (s : State) (q : SeqState) (n : Nat) : (s.startWrite q n).done = s.done := rfl
@[simp] theorem startWrite_rst (s : State) (q : SeqState) (n : Nat) : (s.startWrite q n).rst = s.rst := rfl
@[simp] theorem startWrite_ops (s : State) (q : SeqState) (n : Nat) : (s.startWrite q n).ops = s.ops := rfl
@[simp] theorem startWrite_pl (s : State) (q : SeqState) (n : Nat) : (s.startWrite q n).pl = s.pl := rfl
@[simp] theorem startWrite_rx (s : State) (q : SeqState) (n : Nat) : (s.startWrite q n).rx = s.rx := rfl
@[simp] theorem startWrite_coming (s : State) (q : SeqState) (n : Nat) : (s.startWrite q n).coming = s.coming := rfl
@[simp] theorem startWrite_clockRuns (s : State) (q : SeqState) (n : Nat) : (s.startWrite q n).clockRuns = s.clockRuns := rfl
@[simp] theorem startWrite_now (s : State) (q : SeqState) (n : Nat) : (s.startWrite q n).now = s.now := rfl
@[simp] theorem startWrite_txQueue (s : State) (q : SeqState) (n : Nat) : (s.startWrite q n).txQueue = s.txQueue := rfl
@[simp] theorem startWrite_txSent (s : State) (q : SeqState) (n : Nat) : (s.startWrite q n).txSent = s.txSent := rfl
@[simp] theorem startWrite_txRoom (s : State) (q : SeqState) (n : Nat) : (s.startWrite q n).txRoom = s.txRoom := rfl
@[simp] theorem startWrite_flushDone (s : State) (q : SeqState) (n : Nat) : (s.startWrite q n).flushDone = s.flushDone := rfl
@[simp] theorem startWrite_trace (s : State) (q : SeqState) (n : Nat) : (s.startWrite q n).trace = s.trace := rfl
@[simp] theorem startWrite_draw (s : State) (q : SeqState) (n : Nat) : (s.startWrite q n).draw = s.draw := rfl

@[simp] theorem startRead_rxbuf (s : State) (q : SeqState) (n : Nat) : (s.startRead q n).rxbuf = s.rxbuf := rfl
@[simp] theorem startRead_rxlen (s : State) (q : SeqState) (n : Nat) : (s.startRead q n).rxlen = s.rxlen := rfl
@[simp] theorem startRead_timeout (s : State) (q : SeqState) (n : Nat) : (s.startRead q n).timeout = s.timeout := rfl
@[simp] theorem startRead_seq (s : State) (q : SeqState) (n : Nat) : (s.startRead q n).seq = q := rfl
@[simp] theorem startRead_hdr (s : State) (q : SeqState) (n : Nat) : (s.startRead q n).hid.hdr = s.hid.hdr := rfl
@[simp] theorem startRead_dlen (s : State) (q : SeqState) (n : Nat) : (s.startRead q n).hid.dlen = s.hid.dlen := rfl
@[simp] theorem startRead_rsum (s : State) (q : SeqState) (n : Nat) : (s.startRead q n).hid.rsum = s.hid.rsum := rfl
@[simp] theorem startRead_cnt (s : State) (q : SeqState) (n : Nat) : (s.startRead q n).hid.cnt = BitVec.ofNat 16 n := rfl
@[simp] theorem startRead_pend (s : State) (q : SeqState) (n : Nat) : (s.startRead q n).hid.pend = s.hid.pend := rfl
@[simp] theorem startRead_t0 (s : State) (q : SeqState) (n : Nat) : (s.startRead q n).hid.t0 = s.now := rfl
@[simp] theorem startRead_tlen (s : State) (q : SeqState) (n : Nat) : (s.startRead q n).hid.tlen = s.hid.tlen := rfl
@[simp] theorem startRead_tsum (s : State) (q : SeqState) (n : Nat) : (s.startRead q n).hid.tsum = s.hid.tsum := rfl
@[simp] theorem startRead_done (s : State) (q : SeqState) (n : Nat) : (s.startRead q n).done = s.done := rfl
@[simp] theorem startRead_rst (s : State) (q : SeqState) (n : Nat) : (s.startRead q n).rst = s.rst := rfl
@[simp] theorem startRead_ops (s : State) (q : SeqState) (n : Nat) : (s.startRead q n).ops = s.ops := rfl
@[simp] theorem startRead_pl (s : State) (q : SeqState) (n : Nat) : (s.startRead q n).pl = s.pl := rfl
@[simp] theorem startRead_rx (s : State) (q : SeqState) (n : Nat) : (s.startRead q n).rx = s.rx := rfl
@[simp] theorem startRead_coming (s : State) (q : SeqState) (n : Nat) : (s.startRead q n).coming = s.coming := rfl
@[simp] theorem startRead_clockRuns (s : State) (q : SeqState) (n : Nat) : (s.startRead q n).clockRuns = s.clockRuns := rfl
@[simp] theorem startRead_now (s : State) (q : SeqState) (n : Nat) : (s.startRead q n).now = s.now := rfl
@[simp] theorem startRead_txQueue (s : State) (q : SeqState) (n : Nat) : (s.startRead q n).txQueue = s.txQueue := rfl
@[simp] theorem startRead_txSent (s : State) (q : SeqState) (n : Nat) : (s.startRead q n).txSent = s.txSent := rfl
@[simp] theorem startRead_txRoom (s : State) (q : SeqState) (n : Nat) : (s.startRead q n).txRoom = s.txRoom := rfl
@[simp] theorem startRead_flushDone (s : State) (q : SeqState) (n : Nat) : (s.startRead q n).flushDone = s.flushDone := rfl
@[simp] theorem startRead_trace (s : State) (q : SeqState) (n : Nat) : (s.startRead q n).trace = s.trace := rfl
@[simp] theorem startRead_draw (s : State) (q : SeqState) (n : Nat) : (s.startRead q n).draw = s.draw := rfl

@[simp] theorem emit_rxbuf (s : State) (e : Event) : (s.emit e).rxbuf = s.rxbuf := rfl
@[simp] theorem emit_rxlen (s : State) (e : Event) : (s.emit e).rxlen = s.rxlen := rfl
@[simp] theorem emit_timeout (s : State) (e : Event) : (s.emit e).timeout = s.timeout := rfl
@[simp] theorem emit_seq (s : State) (e : Event) : (s.emit e).seq = s.seq := rfl
@[simp] theorem emit_hid (s : State) (e : Event) : (s.emit e).hid = s.hid := rfl
@[simp] theorem emit_done (s : State) (e : Event) : (s.emit e).done = s.done := rfl
@[simp] theorem emit_rst (s : State) (e : Event) : (s.emit e).rst = s.rst := rfl
@[simp] theorem emit_ops (s : State) (e : Event) : (s.emit e).ops = s.ops := rfl
@[simp] theorem emit_pl (s : State) (e : Event) : (s.emit e).pl = s.pl := rfl
@[simp] theorem emit_rx (s : State) (e : Event) : (s.emit e).rx = s.rx := rfl
@[simp] theorem emit_coming (s : State) (e : Event) : (s.emit e).coming = s.coming := rfl
@[simp] theorem emit_clockRuns (s : State) (e : Event) : (s.emit e).clockRuns = s.clockRuns := rfl
@[simp] theorem emit_now (s : State) (e : Event) : (s.emit e).now = s.now := rfl
@[simp] theorem emit_txQueue (s : State) (e : Event) : (s.emit e).txQueue = s.txQueue := rfl
@[simp] theorem emit_txSent (s : State) (e : Event) : (s.emit e).txSent = s.txSent := rfl
@[simp] theorem emit_txRoom (s : State) (e : Event) : (s.emit e).txRoom = s.txRoom := rfl
@[simp] theorem emit_flushDone (s : State) (e : Event) : (s.emit e).flushDone = s.flushDone := rfl
@[simp] theorem emit_trace (s : State) (e : Event) : (s.emit e).trace = e :: s.trace := rfl
@[simp] theorem emit_draw (s : State) (e : Event) : (s.emit e).draw = s.draw := rfl

@[simp] theorem nextCycle_rxbuf (s : State) : (s.nextCycle).rxbuf = s.rxbuf := rfl
@[simp] theorem nextCycle_rxlen (s : State) : (s.nextCycle).rxlen = s.rxlen := rfl
@[simp] theorem nextCycle_timeout (s : State) : (s.nextCycle).timeout = s.timeout := rfl
@[simp] theorem nextCycle_seq (s : State) : (s.nextCycle).seq = s.seq := rfl
@[simp] theorem nextCycle_hid (s : State) : (s.nextCycle).hid = s.hid := rfl
@[simp] theorem nextCycle_done (s : State) : (s.nextCycle).done = none := rfl
@[simp] theorem nextCycle_rst (s : State) : (s.nextCycle).rst = s.rst := rfl
@[simp] theorem nextCycle_ops (s : State) : (s.nextCycle).ops = s.ops := rfl
@[simp] theorem nextCycle_pl (s : State) : (s.nextCycle).pl = s.pl := rfl
@[simp] theorem nextCycle_rx (s : State) : (s.nextCycle).rx = s.rx := rfl
@[simp] theorem nextCycle_coming (s : State) : (s.nextCycle).coming = s.coming := rfl
@[simp] theorem nextCycle_clockRuns (s : State) : (s.nextCycle).clockRuns = s.clockRuns := rfl
@[simp] theorem nextCycle_now (s : State) : (s.nextCycle).now = s.now := rfl
@[simp] theorem nextCycle_txQueue (s : State) : (s.nextCycle).txQueue = s.txQueue := rfl
@[simp] theorem nextCycle_txSent (s : State) : (s.nextCycle).txSent = s.txSent := rfl
@[simp] theorem nextCycle_txRoom (s : State) : (s.nextCycle).txRoom = s.txRoom := rfl
@[simp] theorem nextCycle_flushDone (s : State) : (s.nextCycle).flushDone = s.flushDone := rfl
@[simp] theorem nextCycle_trace (s : State) : (s.nextCycle).trace = s.trace := rfl
@[simp] theorem nextCycle_draw (s : State) : (s.nextCycle).draw = s.draw := rfl

@[simp] theorem finish_rxbuf (s : State) (r : Result) : (s.finish r).rxbuf = s.rxbuf := rfl
@[simp] theorem finish_rxlen (s : State) (r : Result) : (s.finish r).rxlen = s.rxlen := rfl
@[simp] theorem finish_timeout (s : State) (r : Result) : (s.finish r).timeout = s.timeout := rfl
@[simp] theorem finish_seq (s : State) (r : Result) : (s.finish r).seq = .idle := rfl
@[simp] theorem finish_hid (s : State) (r : Result) : (s.finish r).hid = s.hid := rfl
@[simp] theorem finish_done (s : State) (r : Result) : (s.finish r).done = some r := rfl
@[simp] theorem finish_rst (s : State) (r : Result) : (s.finish r).rst = s.rst := rfl
@[simp] theorem finish_ops (s : State) (r : Result) : (s.finish r).ops = s.ops := rfl
@[simp] theorem finish_pl (s : State) (r : Result) : (s.finish r).pl = s.pl := rfl
@[simp] theorem finish_rx (s : State) (r : Result) : (s.finish r).rx = s.rx := rfl
@[simp] theorem finish_coming (s : State) (r : Result) : (s.finish r).coming = s.coming := rfl
@[simp] theorem finish_clockRuns (s : State) (r : Result) : (s.finish r).clockRuns = s.clockRuns := rfl
@[simp] theorem finish_now (s : State) (r : Result) : (s.finish r).now = s.now := rfl
@[simp] theorem finish_txQueue (s : State) (r : Result) : (s.finish r).txQueue = s.txQueue := rfl
@[simp] theorem finish_txSent (s : State) (r : Result) : (s.finish r).txSent = s.txSent := rfl
@[simp] theorem finish_txRoom (s : State) (r : Result) : (s.finish r).txRoom = s.txRoom := rfl
@[simp] theorem finish_flushDone (s : State) (r : Result) : (s.finish r).flushDone = s.flushDone := rfl
@[simp] theorem finish_trace (s : State) (r : Result) : (s.finish r).trace = s.trace := rfl
@[simp] theorem finish_draw (s : State) (r : Result) : (s.finish r).draw = s.draw := rfl

@[simp] theorem flushed_rxbuf (s : State) : (s.flushed).rxbuf = s.rxbuf := rfl
@[simp] theorem flushed_rxlen (s : State) : (s.flushed).rxlen = s.rxlen := rfl
@[simp] theorem flushed_timeout (s : State) : (s.flushed).timeout = s.timeout := rfl
@[simp] theorem flushed_seq (s : State) : (s.flushed).seq = s.seq := rfl
@[simp] theorem flushed_hid (s : State) : (s.flushed).hid = s.hid := rfl
@[simp] theorem flushed_done (s : State) : (s.flushed).done = s.done := rfl
@[simp] theorem flushed_rst (s : State) : (s.flushed).rst = s.rst := rfl
@[simp] theorem flushed_ops (s : State) : (s.flushed).ops = s.ops := rfl
@[simp] theorem flushed_pl (s : State) : (s.flushed).pl = s.pl := rfl
@[simp] theorem flushed_rx (s : State) : (s.flushed).rx = s.rx := rfl
@[simp] theorem flushed_coming (s : State) : (s.flushed).coming = s.coming := rfl
@[simp] theorem flushed_clockRuns (s : State) : (s.flushed).clockRuns = s.clockRuns := rfl
@[simp] theorem flushed_now (s : State) : (s.flushed).now = s.now := rfl
@[simp] theorem flushed_txQueue (s : State) : (s.flushed).txQueue = [] := rfl
@[simp] theorem flushed_txSent (s : State) : (s.flushed).txSent = s.txSent ++ s.txQueue := rfl
@[simp] theorem flushed_txRoom (s : State) : (s.flushed).txRoom = s.txRoom := rfl
@[simp] theorem flushed_flushDone (s : State) : (s.flushed).flushDone = s.flushDone := rfl
@[simp] theorem flushed_trace (s : State) : (s.flushed).trace = .flush :: s.trace := rfl
@[simp] theorem flushed_draw (s : State) : (s.flushed).draw = s.draw := rfl

@[simp] theorem write_rxbuf (s : State) (b : List Byte) : (s.write b).rxbuf = s.rxbuf := rfl
@[simp] theorem write_rxlen (s : State) (b : List Byte) : (s.write b).rxlen = s.rxlen := rfl
@[simp] theorem write_timeout (s : State) (b : List Byte) : (s.write b).timeout = s.timeout := rfl
@[simp] theorem write_seq (s : State) (b : List Byte) : (s.write b).seq = s.seq := rfl
@[simp] theorem write_hdr (s : State) (b : List Byte) : (s.write b).hid.hdr = s.hid.hdr := rfl
@[simp] theorem write_dlen (s : State) (b : List Byte) : (s.write b).hid.dlen = s.hid.dlen := rfl
@[simp] theorem write_rsum (s : State) (b : List Byte) : (s.write b).hid.rsum = s.hid.rsum := rfl
@[simp] theorem write_cnt (s : State) (b : List Byte) : (s.write b).hid.cnt = BitVec.ofNat 16 (s.hid.cnt.toNat - b.length) := rfl
@[simp] theorem write_pend (s : State) (b : List Byte) : (s.write b).hid.pend = s.hid.pend := rfl
@[simp] theorem write_t0 (s : State) (b : List Byte) : (s.write b).hid.t0 = s.hid.t0 := rfl
@[simp] theorem write_tlen (s : State) (b : List Byte) : (s.write b).hid.tlen = s.hid.tlen := rfl
@[simp] theorem write_tsum (s : State) (b : List Byte) : (s.write b).hid.tsum = s.hid.tsum := rfl
@[simp] theorem write_done (s : State) (b : List Byte) : (s.write b).done = s.done := rfl
@[simp] theorem write_rst (s : State) (b : List Byte) : (s.write b).rst = s.rst := rfl
@[simp] theorem write_ops (s : State) (b : List Byte) : (s.write b).ops = s.ops := rfl
@[simp] theorem write_pl (s : State) (b : List Byte) : (s.write b).pl = s.pl := rfl
@[simp] theorem write_rx (s : State) (b : List Byte) : (s.write b).rx = s.rx := rfl
@[simp] theorem write_coming (s : State) (b : List Byte) : (s.write b).coming = s.coming := rfl
@[simp] theorem write_clockRuns (s : State) (b : List Byte) : (s.write b).clockRuns = s.clockRuns := rfl
@[simp] theorem write_now (s : State) (b : List Byte) : (s.write b).now = s.now := rfl
@[simp] theorem write_txQueue (s : State) (b : List Byte) : (s.write b).txQueue = s.txQueue ++ b := rfl
@[simp] theorem write_txSent (s : State) (b : List Byte) : (s.write b).txSent = s.txSent := rfl
@[simp] theorem write_txRoom (s : State) (b : List Byte) : (s.write b).txRoom = s.txRoom.map (· - b.length) := rfl
@[simp] theorem write_flushDone (s : State) (b : List Byte) : (s.write b).flushDone = s.flushDone := rfl
@[simp] theorem write_trace (s : State) (b : List Byte) : (s.write b).trace = addWrite b s.trace := rfl
@[simp] theorem write_draw (s : State) (b : List Byte) : (s.write b).draw = s.draw := rfl

@[simp] theorem countOff_rxbuf (s : State) (n : Nat) : (s.countOff n).rxbuf = s.rxbuf := rfl
@[simp] theorem countOff_rxlen (s : State) (n : Nat) : (s.countOff n).rxlen = s.rxlen := rfl
@[simp] theorem countOff_timeout (s : State) (n : Nat) : (s.countOff n).timeout = s.timeout := rfl
@[simp] theorem countOff_seq (s : State) (n : Nat) : (s.countOff n).seq = s.seq := rfl
@[simp] theorem countOff_hdr (s : State) (n : Nat) : (s.countOff n).hid.hdr = s.hid.hdr := rfl
@[simp] theorem countOff_dlen (s : State) (n : Nat) : (s.countOff n).hid.dlen = s.hid.dlen := rfl
@[simp] theorem countOff_rsum (s : State) (n : Nat) : (s.countOff n).hid.rsum = s.hid.rsum := rfl
@[simp] theorem countOff_cnt (s : State) (n : Nat) : (s.countOff n).hid.cnt = BitVec.ofNat 16 (s.hid.cnt.toNat - n) := rfl
@[simp] theorem countOff_pend (s : State) (n : Nat) : (s.countOff n).hid.pend = s.hid.pend := rfl
@[simp] theorem countOff_t0 (s : State) (n : Nat) : (s.countOff n).hid.t0 = s.hid.t0 := rfl
@[simp] theorem countOff_tlen (s : State) (n : Nat) : (s.countOff n).hid.tlen = s.hid.tlen := rfl
@[simp] theorem countOff_tsum (s : State) (n : Nat) : (s.countOff n).hid.tsum = s.hid.tsum := rfl
@[simp] theorem countOff_done (s : State) (n : Nat) : (s.countOff n).done = s.done := rfl
@[simp] theorem countOff_rst (s : State) (n : Nat) : (s.countOff n).rst = s.rst := rfl
@[simp] theorem countOff_ops (s : State) (n : Nat) : (s.countOff n).ops = s.ops := rfl
@[simp] theorem countOff_pl (s : State) (n : Nat) : (s.countOff n).pl = s.pl := rfl
@[simp] theorem countOff_rx (s : State) (n : Nat) : (s.countOff n).rx = s.rx := rfl
@[simp] theorem countOff_coming (s : State) (n : Nat) : (s.countOff n).coming = s.coming := rfl
@[simp] theorem countOff_clockRuns (s : State) (n : Nat) : (s.countOff n).clockRuns = s.clockRuns := rfl
@[simp] theorem countOff_now (s : State) (n : Nat) : (s.countOff n).now = s.now := rfl
@[simp] theorem countOff_txQueue (s : State) (n : Nat) : (s.countOff n).txQueue = s.txQueue := rfl
@[simp] theorem countOff_txSent (s : State) (n : Nat) : (s.countOff n).txSent = s.txSent := rfl
@[simp] theorem countOff_txRoom (s : State) (n : Nat) : (s.countOff n).txRoom = s.txRoom := rfl
@[simp] theorem countOff_flushDone (s : State) (n : Nat) : (s.countOff n).flushDone = s.flushDone := rfl
@[simp] theorem countOff_trace (s : State) (n : Nat) : (s.countOff n).trace = s.trace := rfl
@[simp] theorem countOff_draw (s : State) (n : Nat) : (s.countOff n).draw = s.draw := rfl

@[simp] theorem drawn_rxbuf (s : State) : (s.drawn).rxbuf = s.rxbuf := rfl
@[simp] theorem drawn_rxlen (s : State) : (s.drawn).rxlen = s.rxlen := rfl
@[simp] theorem drawn_timeout (s : State) : (s.drawn).timeout = s.timeout := rfl
@[simp] theorem drawn_seq (s : State) : (s.drawn).seq = s.seq := rfl
@[simp] theorem drawn_hid (s : State) : (s.drawn).hid = s.hid := rfl
@[simp] theorem drawn_done (s : State) : (s.drawn).done = s.done := rfl
@[simp] theorem drawn_rst (s : State) : (s.drawn).rst = s.rst := rfl
@[simp] theorem drawn_ops (s : State) : (s.drawn).ops = s.ops := rfl
@[simp] theorem drawn_pl (s : State) : (s.drawn).pl = s.pl := rfl
@[simp] theorem drawn_rx (s : State) : (s.drawn).rx = s.rx := rfl
@[simp] theorem drawn_coming (s : State) : (s.drawn).coming = s.coming := rfl
@[simp] theorem drawn_clockRuns (s : State) : (s.drawn).clockRuns = s.clockRuns := rfl
@[simp] theorem drawn_now (s : State) : (s.drawn).now = s.now := rfl
@[simp] theorem drawn_txQueue (s : State) : (s.drawn).txQueue = s.txQueue := rfl
@[simp] theorem drawn_txSent (s : State) : (s.drawn).txSent = s.txSent := rfl
@[simp] theorem drawn_txRoom (s : State) : (s.drawn).txRoom = s.txRoom := rfl
@[simp] theorem drawn_flushDone (s : State) : (s.drawn).flushDone = s.flushDone := rfl
@[simp] theorem drawn_trace (s : State) : (s.drawn).trace = s.trace := rfl
@[simp] theorem drawn_draw (s : State) : (s.drawn).draw = s.draw + 1 := rfl

end Sys2Proof.Machine
end

