-- ==== Sys2Proof/Laws/Ops.lean ====
section
/-! SUPPORT. One spec lemma per shared operation: what a write, a read request, an arrival and the failure path can do.
Proofs about the machine cite these. -/

namespace Sys2Proof.Machine

/-! ### Checksums -/

theorem sum8_append (s t : List Byte) : sum8 (s ++ t) = sum8 s + sum8 t := by
  induction s with
  | nil => simp [sum8]
  | cons b s ih => simp [sum8, ih, BitVec.add_assoc]

theorem add_neg8 (v : Byte) : v + neg8 v = 0 := by simp [neg8]

theorem eq_neg8_iff (v d : Byte) : d = neg8 v ↔ v + d = 0 := by
  unfold neg8
  constructor
  · rintro rfl; simp
  · intro h
    have := congrArg (· - v) h
    simpa [BitVec.add_comm v d, BitVec.add_sub_cancel] using this

/-! ### The failure path -/

@[simp] theorem fail_rxbuf (r c) (s : State) : (s.fail r c).rxbuf = s.rxbuf := by unfold State.fail; split <;> rfl
@[simp] theorem fail_rxlen (r c) (s : State) : (s.fail r c).rxlen = s.rxlen := by unfold State.fail; split <;> rfl
@[simp] theorem fail_timeout (r c) (s : State) : (s.fail r c).timeout = s.timeout := by unfold State.fail; split <;> rfl
@[simp] theorem fail_done (r c) (s : State) : (s.fail r c).done = s.done := by unfold State.fail; split <;> rfl
@[simp] theorem fail_rst (r c) (s : State) : (s.fail r c).rst = s.rst := by unfold State.fail; split <;> rfl
@[simp] theorem fail_ops (r c) (s : State) : (s.fail r c).ops = s.ops := by unfold State.fail; split <;> rfl
@[simp] theorem fail_pl (r c) (s : State) : (s.fail r c).pl = s.pl := by unfold State.fail; split <;> rfl
@[simp] theorem fail_rx (r c) (s : State) : (s.fail r c).rx = s.rx := by unfold State.fail; split <;> rfl
@[simp] theorem fail_coming (r c) (s : State) : (s.fail r c).coming = s.coming := by unfold State.fail; split <;> rfl
@[simp] theorem fail_clockRuns (r c) (s : State) : (s.fail r c).clockRuns = s.clockRuns := by
  unfold State.fail; split <;> rfl
@[simp] theorem fail_now (r c) (s : State) : (s.fail r c).now = s.now := by unfold State.fail; split <;> rfl
@[simp] theorem fail_txQueue (r c) (s : State) : (s.fail r c).txQueue = s.txQueue := by unfold State.fail; split <;> rfl
@[simp] theorem fail_txSent (r c) (s : State) : (s.fail r c).txSent = s.txSent := by unfold State.fail; split <;> rfl
@[simp] theorem fail_txRoom (r c) (s : State) : (s.fail r c).txRoom = s.txRoom := by unfold State.fail; split <;> rfl
@[simp] theorem fail_flushDone (r c) (s : State) : (s.fail r c).flushDone = s.flushDone := by
  unfold State.fail; split <;> rfl
@[simp] theorem fail_trace (r c) (s : State) : (s.fail r c).trace = s.trace := by unfold State.fail; split <;> rfl
@[simp] theorem fail_draw (r c) (s : State) : (s.fail r c).draw = s.draw := by unfold State.fail; split <;> rfl
@[simp] theorem fail_pend (r c) (s : State) : (s.fail r c).hid.pend = r := by unfold State.fail; split <;> rfl
@[simp] theorem fail_cancel_seq (r) (s : State) : (s.fail r true).seq = .canTx := rfl
@[simp] theorem fail_cancel_cnt (r) (s : State) : (s.fail r true).hid.cnt = 6 := rfl
@[simp] theorem fail_plain_seq (r) (s : State) : (s.fail r false).seq = .done := rfl

/-! ### The lines of the ports -/

@[simp] theorem txReady_iff (s : State) : s.txReady = true ↔ s.txRoom ≠ some 0 := decide_eq_true_iff

@[simp] theorem plValid_iff (s : State) : s.plValid = true ↔ s.pl ≠ [] := by simp [State.plValid]

@[simp] theorem rxValid_iff (s : State) : s.rxValid = true ↔ s.rx ≠ [] := by simp [State.rxValid]

theorem plReady_iff (s : State) :
    s.plReady = true ↔ s.rst = false ∧ s.seq = .txPayload ∧ s.hid.cnt ≠ 0 ∧ s.txRoom ≠ some 0 := by
  simp [State.plReady, and_assoc]

theorem rxReady_iff (s : State) :
    s.rxReady = true ↔ s.rst = false ∧ s.seq.reads = true ∧ s.hid.cnt ≠ 0 ∧ s.zeroTakesNone = false := by
  simp [State.rxReady, and_assoc]

/-! ### Arrivals and waiting -/

/-- At most one entry of `coming` has been taken, and `late` is what it brought (log entry 28). -/
def OneArrival (s t : State) (late : List Byte) : Prop :=
  (late = [] ∧ (t.coming = s.coming ∨ s.coming = .tick :: t.coming)) ∨ ∃ b, late = [b] ∧ s.coming = .byte b :: t.coming

theorem oneArrival_none {s t : State} (h : t.coming = s.coming) : OneArrival s t [] := .inl ⟨rfl, .inl h⟩

/-- What an arrival, or waiting for one, may change: the receive side and the clock. -/
structure OnlyReceives (s t : State) : Prop where
  same : ∃ rx coming now, t = { s with rx := rx, coming := coming, now := now }
  rx : ∃ late, t.rx = s.rx ++ late ∧ OneArrival s t late

theorem arrive_spec (s : State) : OnlyReceives s s.arrive := by
  unfold State.arrive
  split
  · exact ⟨⟨s.rx, s.coming, s.now, rfl⟩, [], by simp, oneArrival_none rfl⟩
  · next h => exact ⟨⟨_, _, _, rfl⟩, _, rfl, .inr ⟨_, rfl, h⟩⟩
  · next h => exact ⟨⟨_, _, _, rfl⟩, [], by simp, .inl ⟨rfl, .inr h⟩⟩

theorem waitUntil_spec (ms : Millis) (s : State) : OnlyReceives s (s.waitUntil ms) := by
  unfold State.waitUntil
  split
  · split
    · exact ⟨⟨_, _, _, rfl⟩, [], by simp, oneArrival_none rfl⟩
    · exact ⟨⟨s.rx, s.coming, s.now, rfl⟩, [], by simp, oneArrival_none rfl⟩
  · exact arrive_spec s

/-! ### Writes -/

theorem addWrite_append (a b : List Byte) (tr : List Event) : addWrite (a ++ b) tr = addWrite b (addWrite a tr) := by
  cases a with
  | nil => simp [addWrite]
  | cons x a =>
    cases b with
    | nil => simp [addWrite]
    | cons y b => cases tr with
      | nil => simp [addWrite]
      | cons e r => cases e <;> simp [addWrite]

theorem accepts_le (s : State) (k : Nat) : s.accepts k ≤ k := by
  unfold State.accepts; split
  · exact Nat.le_refl _
  · exact Nat.min_le_right _ _

theorem accepts_pos (s : State) (k : Nat) : 0 < s.accepts k ↔ 0 < k ∧ s.txRoom ≠ some 0 := by
  unfold State.accepts
  cases s.txRoom with
  | none => simp
  | some r => simp; omega

/-- TX_PAYLOAD takes a byte exactly where one is due, one is offered, and the transport takes it. -/
theorem payloadNow_ne_nil (s : State) : s.payloadNow ≠ [] ↔ s.hid.cnt ≠ 0 ∧ s.pl ≠ [] ∧ s.txRoom ≠ some 0 := by
  have hz : s.hid.cnt ≠ 0 ↔ 0 < s.hid.cnt.toNat := by rw [Nat.pos_iff_ne_zero]; simp [← BitVec.toNat_inj]
  rw [State.payloadNow, ← List.length_pos_iff, List.length_take, Nat.min_eq_left (accepts_le _ _), accepts_pos,
    List.length_take, Nat.lt_min, List.length_pos_iff, hz, and_assoc]

/-- With room for all that is due, a writing state hands it over and CNT is 0. -/
theorem send_enough (s : State) (bytes : List Byte) (hr : ∀ r, s.txRoom = some r → s.hid.cnt.toNat ≤ r)
    (hc : s.hid.cnt.toNat ≤ bytes.length) :
    s.send bytes = { s with
      txQueue := s.txQueue ++ bytes.drop (bytes.length - s.hid.cnt.toNat)
      txRoom := s.txRoom.map (· - s.hid.cnt.toNat)
      trace := addWrite (bytes.drop (bytes.length - s.hid.cnt.toNat)) s.trace
      hid := { s.hid with cnt := 0 } } := by
  have hl : (s.due bytes).length = s.hid.cnt.toNat := by simp [State.due]; omega
  have ha : s.accepts (s.due bytes).length = (s.due bytes).length := by
    unfold State.accepts
    split
    · rfl
    · next r h => rw [hl]; exact Nat.min_eq_right (hr r h)
  rw [State.send, ha, List.take_length, State.write, hl, Nat.sub_self]
  rfl

/-- With room for `r` of the bytes due, these go out and CNT counts them off. -/
theorem send_part (s : State) (bytes : List Byte) (r : Nat) (hr : s.txRoom = some r) (hn : r < s.hid.cnt.toNat)
    (hc : s.hid.cnt.toNat ≤ bytes.length) :
    s.send bytes = { s with
      txQueue := s.txQueue ++ (bytes.drop (bytes.length - s.hid.cnt.toNat)).take r
      txRoom := some 0
      trace := addWrite ((bytes.drop (bytes.length - s.hid.cnt.toNat)).take r) s.trace
      hid := { s.hid with cnt := BitVec.ofNat 16 (s.hid.cnt.toNat - r) } } := by
  have hl : (s.due bytes).length = s.hid.cnt.toNat := by simp [State.due]; omega
  have ha : s.accepts (s.due bytes).length = r := by
    rw [hl, State.accepts, hr]
    exact Nat.min_eq_left hn.le
  have ht : ((s.due bytes).take r).length = r := by rw [List.length_take, hl]; omega
  rw [State.send, ha, State.write, ht, hr, Option.map_some, Nat.sub_self]
  rfl

/-- With a transport that takes everything, a writing state hands over all that is due and CNT is 0. -/
theorem send_all (s : State) (bytes : List Byte) (hr : s.txRoom = none) (hc : s.hid.cnt.toNat = bytes.length) :
    s.send bytes = { s with
      txQueue := s.txQueue ++ bytes, trace := addWrite bytes s.trace, hid := { s.hid with cnt := 0 } } := by
  simp [State.send, State.due, State.accepts, State.write, hr, hc]

/-! ### Read requests -/

theorem absorb_cnt (s : State) :
    s.absorb.hid.cnt = BitVec.ofNat 16 (s.hid.cnt.toNat - min s.hid.cnt.toNat s.rx.length) := by
  simp only [State.absorb, State.countOff, State.place, List.length_take]
  split <;> rfl

theorem absorb_cnt_toNat (s : State) : s.absorb.hid.cnt.toNat = s.hid.cnt.toNat - s.rx.length := by
  rw [absorb_cnt, BitVec.toNat_ofNat, Nat.mod_eq_of_lt (by have := s.hid.cnt.isLt; omega)]
  omega

theorem absorb_cnt_zero_iff (s : State) : s.absorb.hid.cnt = 0 ↔ s.hid.cnt.toNat ≤ s.rx.length := by
  rw [← BitVec.toNat_inj, absorb_cnt_toNat]; simp; omega

@[simp] theorem absorb_rx (s : State) : s.absorb.rx = s.rx.drop s.hid.cnt.toNat := rfl

/-- What taking the arrived bytes may change. -/
theorem absorb_same (s : State) : ∃ rxbuf hdr rsum cnt,
    s.absorb = { s with
      rx := s.rx.drop s.hid.cnt.toNat, rxbuf := rxbuf, hid := { s.hid with hdr := hdr, rsum := rsum, cnt := cnt } } ∧
    (s.seq ≠ .rxPayload → rxbuf = s.rxbuf ∧ rsum = s.hid.rsum) ∧ (s.seq = .rxPayload → hdr = s.hid.hdr) := by
  simp only [State.absorb, State.countOff, State.place]
  split
  · next h => exact ⟨_, _, _, _, rfl, fun hn => absurd h hn, fun _ => rfl⟩
  · next h => exact ⟨_, _, _, _, rfl, fun _ => ⟨rfl, rfl⟩, fun hp => absurd hp h⟩

/-- A request whose bytes are all waiting completes, under a TIMEOUT that is not 0. -/
theorem readRequest_ready (s : State) (ht : s.timeout ≠ 0) (hc : s.hid.cnt ≠ 0) (hr : s.hid.cnt.toNat ≤ s.rx.length) :
    s.readRequest = .complete s.absorb.readDone := by
  simp only [State.readRequest, hc, ht, if_false, State.readTimed, (absorb_cnt_zero_iff s).2 hr, if_true]

/-- A request that has not all its bytes when its time is over has expired. -/
theorem readRequest_late (s : State) (ht : s.timeout ≠ 0) (hr : s.rx.length < s.hid.cnt.toNat)
    (he : s.elapsedReached s.timeout = true) : s.readRequest = .expired s.absorb.readLost := by
  have hc : s.hid.cnt ≠ 0 := by intro h; simp [h] at hr
  have hz : ¬ s.absorb.hid.cnt = 0 := by rw [absorb_cnt_zero_iff]; omega
  have hs : s.absorb.elapsedReached s.absorb.timeout = s.elapsedReached s.timeout := by
    obtain ⟨_, _, _, _, h, -⟩ := absorb_same s
    rw [h]; rfl
  simp only [State.readRequest, hc, ht, if_false, State.readTimed, hz, hs, he, if_true]

/-- A request that has not all its bytes and whose time is not over waits. -/
theorem readRequest_waits (s : State) (ht : s.timeout ≠ 0) (hr : s.rx.length < s.hid.cnt.toNat)
    (he : s.elapsedReached s.timeout = false) : s.readRequest = .waiting (s.absorb.waitUntil s.timeout) := by
  have hc : s.hid.cnt ≠ 0 := by intro h; simp [h] at hr
  have hz : ¬ s.absorb.hid.cnt = 0 := by rw [absorb_cnt_zero_iff]; omega
  have ht' : s.absorb.timeout = s.timeout := by
    obtain ⟨_, _, _, _, h, -⟩ := absorb_same s
    rw [h]
  have hs : s.absorb.elapsedReached s.timeout = false := by
    rw [← he]
    obtain ⟨_, _, _, _, h, -⟩ := absorb_same s
    rw [h]; rfl
  simp only [State.readRequest, hc, ht, if_false, State.readTimed, hz, ht', hs, Bool.false_eq_true]

/-- The state a read request answers, whichever way it ends. -/
def ReadResult.state : ReadResult → State
  | .complete t => t
  | .expired t => t
  | .waiting t => t

/-- What one step of a read request may change: RXBUF and RSUM in the payload read, HDR in the others, CNT, the receive
side, the clock, the trace by at most one read event, and the draw counter. -/
structure OnlyReads (s t : State) : Prop where
  same : ∃ rxbuf hdr rsum cnt rx coming now trace draw,
    t = { s with
      rxbuf := rxbuf, rx := rx, coming := coming, now := now, trace := trace, draw := draw
      hid := { s.hid with hdr := hdr, rsum := rsum, cnt := cnt } }
  buffer : s.seq ≠ .rxPayload → t.rxbuf = s.rxbuf ∧ t.hid.rsum = s.hid.rsum
  header : s.seq = .rxPayload → t.hid.hdr = s.hid.hdr
  stream : ∃ k late, t.rx = s.rx.drop k ++ late ∧ k ≤ s.rx.length ∧ k ≤ s.hid.cnt.toNat ∧
    (0 < k ↔ s.rx ≠ [] ∧ s.hid.cnt ≠ 0 ∧ s.zeroTakesNone = false) ∧ OneArrival s t late
  events : t.trace = s.trace ∨ (∃ n b, t.trace = .readOk n b :: s.trace) ∨ ∃ n k, t.trace = .readTimeout n k :: s.trace

theorem readDone_reads (s t : State) (h : OnlyReads s t) (ht : t.trace = s.trace) : OnlyReads s t.readDone := by
  unfold State.readDone
  split
  · exact h
  · obtain ⟨⟨_, _, _, _, _, _, _, _, _, rfl⟩, h2, h3, h4, -⟩ := h
    exact ⟨⟨_, _, _, _, _, _, _, _, _, rfl⟩, h2, h3, h4, .inr (.inl ⟨_, _, by rw [emit_trace, ht]⟩)⟩

theorem readLost_reads (s t : State) (h : OnlyReads s t) (ht : t.trace = s.trace) : OnlyReads s t.readLost := by
  obtain ⟨⟨_, _, _, _, _, _, _, _, _, rfl⟩, h2, h3, h4, -⟩ := h
  exact ⟨⟨_, _, _, _, _, _, _, _, _, rfl⟩, h2, h3, h4, .inr (.inr ⟨_, _, by rw [State.readLost, emit_trace, ht]⟩)⟩

theorem drawn_reads (s t : State) (h : OnlyReads s t) : OnlyReads s t.drawn := by
  obtain ⟨⟨_, _, _, _, _, _, _, _, _, rfl⟩, h2, h3, h4, h5⟩ := h
  exact ⟨⟨_, _, _, _, _, _, _, _, _, rfl⟩, h2, h3, h4, h5⟩

/-- A request that looks at the bytes takes one where one waits and is needed. -/
theorem absorb_takes (s : State) (hz : s.zeroTakesNone = false) :
    0 < min s.hid.cnt.toNat s.rx.length ↔ s.rx ≠ [] ∧ s.hid.cnt ≠ 0 ∧ s.zeroTakesNone = false := by
  rw [← List.length_pos_iff, ne_eq, ← BitVec.toNat_inj, hz]
  simp
  omega

theorem absorb_reads (s : State) (hz : s.zeroTakesNone = false) : OnlyReads s s.absorb := by
  obtain ⟨rxbuf, hdr, rsum, cnt, h, h2, h3⟩ := absorb_same s
  refine ⟨⟨rxbuf, hdr, rsum, cnt, _, s.coming, s.now, s.trace, s.draw, h⟩, ?_, ?_,
    ⟨min s.hid.cnt.toNat s.rx.length, [], ?_, Nat.min_le_right _ _, Nat.min_le_left _ _, absorb_takes s hz,
      oneArrival_none (by rw [h])⟩, ?_⟩
  · intro hn; rw [h]; exact h2 hn
  · intro hp; rw [h]; exact h3 hp
  · rw [absorb_rx, List.append_nil]
    rcases Nat.le_total s.hid.cnt.toNat s.rx.length with hl | hl
    · rw [Nat.min_eq_left hl]
    · rw [Nat.min_eq_right hl, List.drop_eq_nil_of_le hl, List.drop_length]
  · rw [h]; exact .inl rfl

theorem absorb_trace (s : State) : s.absorb.trace = s.trace := by
  obtain ⟨_, _, _, _, h, -⟩ := absorb_same s
  rw [h]

/-- Waiting adds its arrival behind what the request has taken. -/
theorem waitUntil_reads (s t : State) (ms : Millis) (h : OnlyReads s t) (hc : t.coming = s.coming)
    (hx : ∃ k, t.rx = s.rx.drop k ∧ k ≤ s.rx.length ∧ k ≤ s.hid.cnt.toNat ∧
      (0 < k ↔ s.rx ≠ [] ∧ s.hid.cnt ≠ 0 ∧ s.zeroTakesNone = false)) : OnlyReads s (t.waitUntil ms) := by
  obtain ⟨⟨rx, c, n, hw⟩, late, hl, hj⟩ := waitUntil_spec ms t
  obtain ⟨k, hk, hk1, hk2, hk3⟩ := hx
  have hj' : OneArrival s (t.waitUntil ms) late := by
    unfold OneArrival at hj ⊢
    rwa [hc] at hj
  obtain ⟨⟨_, _, _, _, _, _, _, _, _, rfl⟩, h2, h3, -, h5⟩ := h
  refine ⟨⟨_, _, _, _, _, _, _, _, _, hw⟩, ?_, ?_, ⟨k, late, by rw [hl, hk], hk1, hk2, hk3, hj'⟩, ?_⟩
  · intro hn; rw [hw]; exact h2 hn
  · intro hp; rw [hw]; exact h3 hp
  · rw [hw]; exact h5

/-- The request under TIMEOUT = 0 that expires at once takes `zeroLost` of the waiting bytes. -/
theorem zeroExpire_reads (s : State) (ht : s.timeout = 0) (he : Config.zeroTimeoutExpires s.draw = true)
    (hc : s.hid.cnt ≠ 0) : OnlyReads s s.zeroExpire := by
  have hp : 0 < s.hid.cnt.toNat := by
    rw [Nat.pos_iff_ne_zero, ne_eq, ← BitVec.toNat_zero (w := 16), BitVec.toNat_inj]
    exact hc
  refine ⟨⟨s.rxbuf, s.hid.hdr, s.hid.rsum, _, _, s.coming, s.now, s.trace, s.draw, rfl⟩, fun _ => ⟨rfl, rfl⟩,
    fun _ => rfl, ⟨s.zeroLost, [], by simp [State.zeroExpire], Nat.min_le_right _ _, ?_, ?_, oneArrival_none rfl⟩, .inl rfl⟩
  · unfold State.zeroLost State.zeroMayLose
    omega
  · rw [State.zeroLost, ← List.length_pos_iff]
    have hc' : ¬s.hid.cnt = 0#16 := hc
    simp [State.zeroTakesNone, ht, he, hc']
    omega

/-- The frame of one step of a read request. -/
theorem readRequest_reads (s : State) : OnlyReads s s.readRequest.state := by
  unfold State.readRequest
  split
  · next hc =>
    refine readDone_reads s s ⟨⟨s.rxbuf, s.hid.hdr, s.hid.rsum, s.hid.cnt, s.rx, s.coming, s.now, s.trace, s.draw, rfl⟩,
      fun _ => ⟨rfl, rfl⟩, fun _ => rfl, ⟨0, [], by simp, Nat.zero_le _, Nat.zero_le _, ?_, oneArrival_none rfl⟩,
      .inl rfl⟩ rfl
    simp [hc]
  · next hc =>
    split
    · next ht =>
      unfold State.readZero
      split
      · next he => exact drawn_reads s _ (readLost_reads s _ (zeroExpire_reads s ht he hc) rfl)
      · next he =>
        have ha := absorb_reads s (by simp [State.zeroTakesNone, he])
        dsimp only
        split
        · exact drawn_reads s _ (readDone_reads s _ ha (absorb_trace s))
        · exact drawn_reads s _ (readLost_reads s _ ha (absorb_trace s))
    · next ht =>
      have ht' : ¬s.timeout = 0#32 := ht
      have hz : s.zeroTakesNone = false := by simp [State.zeroTakesNone, ht']
      have ha := absorb_reads s hz
      unfold State.readTimed
      dsimp only
      split
      · exact readDone_reads s _ ha (absorb_trace s)
      · split
        · exact readLost_reads s _ ha (absorb_trace s)
        · refine waitUntil_reads s _ _ ha (by obtain ⟨_, _, _, _, h, -⟩ := absorb_same s; rw [h]) ?_
          refine ⟨min s.hid.cnt.toNat s.rx.length, ?_, Nat.min_le_right _ _, Nat.min_le_left _ _, absorb_takes s hz⟩
          rw [absorb_rx]
          rcases Nat.le_total s.hid.cnt.toNat s.rx.length with hl | hl
          · rw [Nat.min_eq_left hl]
          · rw [Nat.min_eq_right hl, List.drop_eq_nil_of_le hl, List.drop_length]

end Sys2Proof.Machine
end

