-- ==== Sys2Proof/Laws/PerInstr.lean ====
section
/-! SUPPORT. Statements made per instruction. Family TableWidth: the words of an instruction have as many bits as
spec/opcode_table.json gives its row (the header of a data frame, the op code of a host operation). -/

namespace Sys2Proof.Laws.TableWidth

/-- `width_bits` of the instruction's row, copied from the table. -/
def rowBits : Instr → Nat
  | .ack => 48
  | .cancel => 48
  | .dataShort _ _ => 40
  | .dataExt _ _ _ => 64
  | .sendRaw _ => 2
  | .assertAck _ => 2
  | .setTimeout _ => 2
  | .reservedOp0 => 2

/-- The encoding has the width of the row. -/
def Statement (i : Instr) : Prop := (encode i).tableBits = rowBits i

theorem ack : Statement .ack := rfl
theorem cancel : Statement .cancel := rfl
theorem dataShort (len lcs : Byte) : Statement (.dataShort len lcs) := rfl
theorem dataExt (lenH lenL lcs : Byte) : Statement (.dataExt lenH lenL lcs) := rfl
theorem sendRaw (len : Length) : Statement (.sendRaw len) := rfl
theorem assertAck (prev : Result) : Statement (.assertAck prev) := rfl
theorem setTimeout (t : Millis) : Statement (.setTimeout t) := rfl
theorem reservedOp0 : Statement .reservedOp0 := rfl

end Sys2Proof.Laws.TableWidth
end

