-- ==== Sys2Proof/Laws/StepEq.lean ====
section
/-! SUPPORT. The step written out for each state of the sequencer, and what a read request answers when its bytes are
all waiting. One equation per state of 43_transaction.md R185. -/

namespace Sys2Proof.Machine

/-! ### Which frame -/

theorem txFrame_cases (n : Length) :
    (∃ l c, txFrame n = .dataShort l c) ∨ ∃ h l c, txFrame n = .dataExt h l c := by
  unfold txFrame
  split
  · exact .inl ⟨_, _, rfl⟩
  · exact .inr ⟨_, _, _, rfl⟩

theorem rxFrame_cases (h : Hdr) :
    (extMarker h.b3 h.b4 = false ∧ rxFrame h = .dataShort h.b3 h.b4) ∨
    (extMarker h.b3 h.b4 = true ∧ rxFrame h = .dataExt h.b5 h.b6 h.b7) := by
  unfold rxFrame
  split
  · next hm => exact .inr ⟨hm, rfl⟩
  · next hm => exact .inl ⟨by simpa using hm, rfl⟩

/-- Decoding at the ACK position. -/
theorem decode_six (b : List Byte) (hb : b.length = 6) :
    decode (.wire .fromDevice b) = if b = fixedFrame then .ok .ack else .rejected .notFixedFrame := by
  match b, hb with
  | [_, _, _, _, _, _], _ => simp [decode, decodeWire, decodeFixed]

/-- Decoding at the header position. -/
theorem decode_five (h0 h1 h2 h3 h4 : Byte) :
    decode (.wire .fromDevice [h0, h1, h2, h3, h4]) =
      if preambleOk h0 h1 h2 = false then .rejected .badPreamble
      else if extMarker h3 h4 = true then .rejected .extendedFollows else .ok (.dataShort h3 h4) := rfl

theorem take_six (h : Hdr) : h.bytes.take 6 = [h.b0, h.b1, h.b2, h.b3, h.b4, h.b5] := rfl

theorem take_five (h : Hdr) : h.bytes.take 5 = [h.b0, h.b1, h.b2, h.b3, h.b4] := rfl

/-! ### Read requests by outcome -/

/-- What a step of a read request leaves alone, whichever way it ends. -/
theorem onlyReads_keeps {s t : State} (h : OnlyReads s t) :
    t.seq = s.seq ∧ t.timeout = s.timeout ∧ t.rxlen = s.rxlen ∧ t.done = s.done ∧ t.rst = s.rst ∧ t.ops = s.ops ∧
    t.pl = s.pl ∧ t.clockRuns = s.clockRuns ∧ t.txQueue = s.txQueue ∧ t.txSent = s.txSent ∧ t.txRoom = s.txRoom ∧
    t.flushDone = s.flushDone ∧ t.hid.pend = s.hid.pend ∧ t.hid.dlen = s.hid.dlen ∧ t.hid.t0 = s.hid.t0 ∧
    t.hid.tlen = s.hid.tlen ∧ t.hid.tsum = s.hid.tsum := by
  obtain ⟨⟨_, _, _, _, _, _, _, _, _, rfl⟩, -⟩ := h
  simp

theorem readRequest_complete {s t : State} (h : s.readRequest = .complete t) : OnlyReads s t := by
  have := readRequest_reads s
  rwa [h] at this

theorem readRequest_expired {s t : State} (h : s.readRequest = .expired t) : OnlyReads s t := by
  have := readRequest_reads s
  rwa [h] at this

theorem readRequest_waiting {s t : State} (h : s.readRequest = .waiting t) : OnlyReads s t := by
  have := readRequest_reads s
  rwa [h] at this

/-- The six bytes of the ACK position. -/
theorem read_ack (s : State) (a0 a1 a2 a3 a4 a5 : Byte) (r : List Byte) (hq : s.seq = .rxAck) (hc : s.hid.cnt = 6)
    (ht : s.timeout ≠ 0) (hx : s.rx = a0 :: a1 :: a2 :: a3 :: a4 :: a5 :: r) :
    s.readRequest = .complete { s with
      rx := r, trace := .readOk 6 [a0, a1, a2, a3, a4, a5] :: s.trace
      hid := { s.hid with
        cnt := 0, hdr := { s.hid.hdr with b0 := a0, b1 := a1, b2 := a2, b3 := a3, b4 := a4, b5 := a5 } } } := by
  rw [readRequest_ready _ ht (by rw [hc]; decide) (by rw [hc, hx]; simp)]
  simp [State.readDone, State.absorb, State.place, State.countOff, State.readCount, State.readBytes, State.readBase,
    State.readSoFar, State.emit, hq, hc, hx, Hdr.putAll, Hdr.put, Hdr.bytes]

/-- The five bytes of the header position. -/
theorem read_header (s : State) (h0 h1 h2 h3 h4 : Byte) (r : List Byte) (hq : s.seq = .rxHdr) (hc : s.hid.cnt = 5)
    (ht : s.timeout ≠ 0) (hx : s.rx = h0 :: h1 :: h2 :: h3 :: h4 :: r) :
    s.readRequest = .complete { s with
      rx := r, trace := .readOk 5 [h0, h1, h2, h3, h4] :: s.trace
      hid := { s.hid with
        cnt := 0, hdr := { s.hid.hdr with b0 := h0, b1 := h1, b2 := h2, b3 := h3, b4 := h4 } } } := by
  rw [readRequest_ready _ ht (by rw [hc]; decide) (by rw [hc, hx]; simp)]
  simp [State.readDone, State.absorb, State.place, State.countOff, State.readCount, State.readBytes, State.readBase,
    State.readSoFar, State.emit, hq, hc, hx, Hdr.putAll, Hdr.put, Hdr.bytes]

/-- The three extended-length bytes. -/
theorem read_extended (s : State) (e0 e1 e2 : Byte) (r : List Byte) (hq : s.seq = .rxExt) (hc : s.hid.cnt = 3)
    (ht : s.timeout ≠ 0) (hx : s.rx = e0 :: e1 :: e2 :: r) :
    s.readRequest = .complete { s with
      rx := r, trace := .readOk 3 [e0, e1, e2] :: s.trace
      hid := { s.hid with cnt := 0, hdr := { s.hid.hdr with b5 := e0, b6 := e1, b7 := e2 } } } := by
  rw [readRequest_ready _ ht (by rw [hc]; decide) (by rw [hc, hx]; simp)]
  simp [State.readDone, State.absorb, State.place, State.countOff, State.readCount, State.readBytes, State.readBase,
    State.readSoFar, State.emit, hq, hc, hx, Hdr.putAll, Hdr.put, Hdr.bytes]

/-- The two trailer bytes. -/
theorem read_trailer (s : State) (t0 t1 : Byte) (r : List Byte) (hq : s.seq = .rxTrailer) (hc : s.hid.cnt = 2)
    (ht : s.timeout ≠ 0) (hx : s.rx = t0 :: t1 :: r) :
    s.readRequest = .complete { s with
      rx := r, trace := .readOk 2 [t0, t1] :: s.trace
      hid := { s.hid with cnt := 0, hdr := { s.hid.hdr with b0 := t0, b1 := t1 } } } := by
  rw [readRequest_ready _ ht (by rw [hc]; decide) (by rw [hc, hx]; simp)]
  simp [State.readDone, State.absorb, State.place, State.countOff, State.readCount, State.readBytes, State.readBase,
    State.readSoFar, State.emit, hq, hc, hx, Hdr.putAll, Hdr.put, Hdr.bytes]

/-! ### The step, state by state -/

theorem step_released (s : State) (h : s.rst = false) :
    step s = match fetch s.nextCycle with
      | .run i t => exec i t
      | .move t => .next t
      | .reject r => .refused r := by
  have hn : ¬s.rst = true := by simp [h]
  exact if_neg hn

theorem step_idle (s : State) (h : s.rst = false) (hq : s.seq = .idle) :
    step s = match s.ops with
      | [] => .next s.nextCycle.arrive
      | c :: rest => match decode (.command c) with
        | .ok i => exec i { s.nextCycle with ops := rest }
        | .rejected r => .refused (commandRefusal r) := by
  rw [step_released s h]
  simp only [fetch, fetchCommand, show s.nextCycle.seq = _ from hq, show s.nextCycle.ops = s.ops from rfl]
  cases s.ops with
  | nil => rfl
  | cons c rest =>
    dsimp only
    split <;> rename_i h <;> split at h <;> cases h <;> simp_all

theorem step_txFlush (s : State) (h : s.rst = false) (hq : s.seq = .txFlush) :
    step s = .next s.nextCycle.firstFlush := by
  have hq' : s.nextCycle.seq = .txFlush := hq
  simp only [step_released s h, fetch, hq', exec, execSendRaw]

theorem step_txHeader (s : State) (h : s.rst = false) (hq : s.seq = .txHeader) :
    step s = .next (s.nextCycle.sendHeader (txHeader s.hid.tlen)) := by
  have hq' : s.nextCycle.seq = .txHeader := hq
  simp only [step_released s h, fetch, hq', txHeader, nextCycle_hid]
  rcases txFrame_cases s.hid.tlen with ⟨_, _, hf⟩ | ⟨_, _, _, hf⟩ <;> rw [hf] <;>
    simp only [exec, execDataShort, execDataExt, hq']

theorem step_txPayload (s : State) (h : s.rst = false) (hq : s.seq = .txPayload) :
    step s = .next s.nextCycle.sendPayload := by
  have hq' : s.nextCycle.seq = .txPayload := hq
  simp only [step_released s h, fetch, hq', nextCycle_hid]
  rcases txFrame_cases s.hid.tlen with ⟨_, _, hf⟩ | ⟨_, _, _, hf⟩ <;> rw [hf] <;>
    simp only [exec, execDataShort, execDataExt, hq']

theorem step_txTrailer (s : State) (h : s.rst = false) (hq : s.seq = .txTrailer) :
    step s = .next s.nextCycle.sendTrailer := by
  have hq' : s.nextCycle.seq = .txTrailer := hq
  simp only [step_released s h, fetch, hq', nextCycle_hid]
  rcases txFrame_cases s.hid.tlen with ⟨_, _, hf⟩ | ⟨_, _, _, hf⟩ <;> rw [hf] <;>
    simp only [exec, execDataShort, execDataExt, hq']

theorem step_rxAck (s : State) (h : s.rst = false) (hq : s.seq = .rxAck) :
    step s = .next (match s.nextCycle.readRequest with
      | .complete t =>
        if t.hid.hdr.bytes.take 6 = fixedFrame then t.startRead .rxHdr 5 else t.fail .noAck true
      | .expired t => t.fail .noAck true
      | .waiting t => t) := by
  have hq' : s.nextCycle.seq = .rxAck := hq
  simp only [step_released s h, fetch, hq', fetchAck]
  cases hr : s.nextCycle.readRequest with
  | complete t =>
    have ht : t.seq = .rxAck := (onlyReads_keeps (readRequest_complete hr)).1.trans hq
    dsimp only
    rw [decode_six _ (by rw [take_six]; rfl)]
    by_cases hf : t.hid.hdr.bytes.take 6 = fixedFrame
    · simp only [hf, if_true, exec, execAck, ht]
    · simp only [hf, if_false]
  | expired t => rfl
  | waiting t => rfl

theorem step_rxHdr (s : State) (h : s.rst = false) (hq : s.seq = .rxHdr) :
    step s = .next (match s.nextCycle.readRequest with
      | .complete t =>
        if preambleOk t.hid.hdr.b0 t.hid.hdr.b1 t.hid.hdr.b2 = false then t.fail .invalid true
        else if extMarker t.hid.hdr.b3 t.hid.hdr.b4 = true then t.startRead .rxExt 3
        else t.goto .rxCheck
      | .expired t => t.fail .failed true
      | .waiting t => t) := by
  have hq' : s.nextCycle.seq = .rxHdr := hq
  simp only [step_released s h, fetch, hq', fetchHeader]
  cases hr : s.nextCycle.readRequest with
  | complete t =>
    have ht : t.seq = .rxHdr := (onlyReads_keeps (readRequest_complete hr)).1.trans hq
    dsimp only
    rw [take_five, decode_five]
    by_cases hp : preambleOk t.hid.hdr.b0 t.hid.hdr.b1 t.hid.hdr.b2 = false
    · simp only [hp, if_true]; rfl
    · by_cases hm : extMarker t.hid.hdr.b3 t.hid.hdr.b4 = true
      · rw [if_neg hp, if_pos hm, if_neg hp, if_pos hm]
      · rw [if_neg hp, if_neg hm, if_neg hp, if_neg hm]
        simp only [exec, execDataShort, ht]
  | expired t => rfl
  | waiting t => rfl

theorem step_rxExt (s : State) (h : s.rst = false) (hq : s.seq = .rxExt) :
    step s = .next (match s.nextCycle.readRequest with
      | .complete t => t.goto .rxCheck
      | .expired t => t.fail .invalid true
      | .waiting t => t) := by
  have hq' : s.nextCycle.seq = .rxExt := hq
  simp only [step_released s h, fetch, hq', fetchExtended]
  cases hr : s.nextCycle.readRequest with
  | complete t =>
    have ht : t.seq = .rxExt := (onlyReads_keeps (readRequest_complete hr)).1.trans hq
    simp only [exec, execDataExt, ht]
  | expired t => rfl
  | waiting t => rfl

theorem step_rxCheck (s : State) (h : s.rst = false) (hq : s.seq = .rxCheck) :
    step s = .next (if extMarker s.hid.hdr.b3 s.hid.hdr.b4 = true
      then s.nextCycle.checkLength [s.hid.hdr.b5, s.hid.hdr.b6, s.hid.hdr.b7]
        (extLength s.hid.hdr.b5 s.hid.hdr.b6)
      else s.nextCycle.checkLength [s.hid.hdr.b3, s.hid.hdr.b4] (shortLength s.hid.hdr.b3)) := by
  have hq' : s.nextCycle.seq = .rxCheck := hq
  simp only [step_released s h, fetch, hq', nextCycle_hid]
  rcases rxFrame_cases s.hid.hdr with ⟨hm, hf⟩ | ⟨hm, hf⟩ <;> rw [hf] <;>
    simp only [exec, execDataShort, execDataExt, hq', hm, if_true, Bool.false_eq_true, if_false]

theorem step_rxPayload (s : State) (h : s.rst = false) (hq : s.seq = .rxPayload) :
    step s = s.nextCycle.receivePayload := by
  have hq' : s.nextCycle.seq = .rxPayload := hq
  simp only [step_released s h, fetch, hq', nextCycle_hid]
  rcases rxFrame_cases s.hid.hdr with ⟨-, hf⟩ | ⟨-, hf⟩ <;> rw [hf] <;>
    simp only [exec, execDataShort, execDataExt, hq']

theorem step_rxTrailer (s : State) (h : s.rst = false) (hq : s.seq = .rxTrailer) :
    step s = .next s.nextCycle.receiveTrailer := by
  have hq' : s.nextCycle.seq = .rxTrailer := hq
  simp only [step_released s h, fetch, hq', nextCycle_hid]
  rcases rxFrame_cases s.hid.hdr with ⟨-, hf⟩ | ⟨-, hf⟩ <;> rw [hf] <;>
    simp only [exec, execDataShort, execDataExt, hq']

theorem step_canTx (s : State) (h : s.rst = false) (hq : s.seq = .canTx) : step s = .next s.nextCycle.sendCancel := by
  have hq' : s.nextCycle.seq = .canTx := hq
  simp only [step_released s h, fetch, hq', exec, execCancel]

theorem step_canSleep (s : State) (h : s.rst = false) (hq : s.seq = .canSleep) :
    step s = .next s.nextCycle.cancelSleep := by
  have hq' : s.nextCycle.seq = .canSleep := hq
  simp only [step_released s h, fetch, hq', exec, execCancel]

theorem step_canFlush (s : State) (h : s.rst = false) (hq : s.seq = .canFlush) :
    step s = .next s.nextCycle.cancelFlush := by
  have hq' : s.nextCycle.seq = .canFlush := hq
  simp only [step_released s h, fetch, hq', exec, execCancel]

theorem step_done (s : State) (h : s.rst = false) (hq : s.seq = .done) : step s = .next s.nextCycle.deliver := by
  have hq' : s.nextCycle.seq = .done := hq
  simp only [step_released s h, fetch, hq', exec, execSendRaw]

end Sys2Proof.Machine
end

