-- ==== Sys2Proof/Laws/Run.lean ====
section
/-! SUPPORT. Runs put together from steps, and the whole parts of a SENDRAW as single state changes: a writing state
whose transport accepts everything, and the payload read. -/

namespace Sys2Proof.Machine

theorem reaches_refl (n : Nat) (s : State) : s.reaches n s := ⟨0, Nat.zero_le n, rfl⟩

theorem reaches_step {n : Nat} {s t u : State} (h : step s = .next u) (hu : u.reaches n t) : s.reaches (n + 1) t := by
  obtain ⟨k, hk, hr⟩ := hu
  refine ⟨k + 1, by omega, ?_⟩
  simp only [run, h]
  exact hr

theorem reaches_mono {n m : Nat} {s t : State} (h : s.reaches n t) (hm : n ≤ m) : s.reaches m t := by
  obtain ⟨k, hk, hr⟩ := h
  exact ⟨k, by omega, hr⟩

theorem run_add (j k : Nat) (s t : State) (h : run j s = .next t) : run (j + k) s = run k t := by
  induction j generalizing s with
  | zero =>
    simp only [run] at h
    cases h
    rw [Nat.zero_add]
  | succ j ih =>
    rw [Nat.succ_add]
    simp only [run] at h ⊢
    split at h
    · next u hu => exact ih u h
    · cases h
    · cases h

theorem reaches_trans {n m : Nat} {s t u : State} (h1 : s.reaches n t) (h2 : t.reaches m u) : s.reaches (n + m) u := by
  obtain ⟨j, hj, h1⟩ := h1
  obtain ⟨k, hk, h2⟩ := h2
  exact ⟨j + k, by omega, (run_add j k s t h1).trans h2⟩

/-! ### The writing states under a transport that accepts everything -/

theorem sendHeader_all (s : State) (b : List Byte) (h : s.txRoom = none) (hc : s.hid.cnt.toNat = b.length) :
    s.sendHeader b = { s with
      txQueue := s.txQueue ++ b, trace := addWrite b s.trace
      seq := if s.hid.tlen = 0 then .txTrailer else .txPayload
      hid := { s.hid with cnt := if s.hid.tlen = 0 then 2 else s.hid.tlen } } := by
  simp only [State.sendHeader, send_all s b h hc, if_true]
  by_cases hz : s.hid.tlen = 0
  · simp only [hz, if_true, State.startWrite]; rfl
  · simp only [hz, if_false, State.startWrite, BitVec.ofNat_toNat, BitVec.setWidth_eq]

theorem sendPayload_all (s : State) (h : s.txRoom = none) (hc : s.hid.cnt.toNat ≤ s.pl.length) :
    s.sendPayload = { s with
      txQueue := s.txQueue ++ s.pl.take s.hid.cnt.toNat
      trace := addWrite (s.pl.take s.hid.cnt.toNat) s.trace
      pl := s.pl.drop s.hid.cnt.toNat
      seq := .txTrailer
      hid := { s.hid with cnt := 2, tsum := s.hid.tsum + sum8 (s.pl.take s.hid.cnt.toNat) } } := by
  simp [State.sendPayload, State.takePayload, State.payloadNow, State.accepts, h, State.write, Nat.min_eq_left hc,
    State.startWrite, List.take_take]

theorem sendTrailer_all (s : State) (h : s.txRoom = none) (hc : s.hid.cnt = 2) :
    s.sendTrailer = { s with
      txQueue := s.txQueue ++ [neg8 s.hid.tsum, 0x00]
      trace := addWrite [neg8 s.hid.tsum, 0x00] s.trace
      seq := .rxAck
      hid := { s.hid with cnt := 6, t0 := s.now } } := by
  simp only [State.sendTrailer, send_all s (txTrailer s.hid.tsum) h (by rw [hc]; rfl), if_true, State.startRead]
  rfl

theorem sendCancel_all (s : State) (h : s.txRoom = none) (hc : s.hid.cnt = 6) :
    s.sendCancel = { s with
      txQueue := s.txQueue ++ fixedFrame
      trace := addWrite fixedFrame s.trace
      seq := .canSleep
      hid := { s.hid with cnt := 0, t0 := s.now } } := by
  simp only [State.sendCancel, send_all s fixedFrame h (by rw [hc]; rfl), if_true, State.startRead]
  rfl

/-! ### The payload read -/

/-- Bytes with specified values are what RXBUF reads as. -/
theorem rxBytes_of_listed (s : State) (p : List Byte) (h : ∀ j, j < p.length → Memory.read? s.rxbuf j = p[j]?) :
    s.rxBytes p.length = p := by
  apply List.ext_getElem
  · simp [State.rxBytes]
  · intro i h1 h2
    simp [State.rxBytes, State.rxByte, h i h2, h2]

theorem read_payload (s : State) (hq : s.seq = .rxPayload) (ht : s.timeout ≠ 0) (h0 : 0 < s.hid.dlen.toNat)
    (hc : s.hid.cnt = s.hid.dlen) (hr : s.hid.dlen.toNat ≤ s.rx.length) :
    s.readRequest = .complete { s with
      rxbuf := Memory.writeAll s.rxbuf 0 (s.rx.take s.hid.dlen.toNat)
      rx := s.rx.drop s.hid.dlen.toNat
      trace := .readOk s.hid.dlen.toNat (s.rx.take s.hid.dlen.toNat) :: s.trace
      hid := { s.hid with cnt := 0, rsum := s.hid.rsum + sum8 (s.rx.take s.hid.dlen.toNat) } } := by
  have hne : s.hid.cnt ≠ 0 := by
    rw [hc]
    intro h
    rw [h] at h0
    simp at h0
  rw [readRequest_ready s ht hne (by rw [hc]; exact hr)]
  have hl : (s.rx.take s.hid.dlen.toNat).length = s.hid.dlen.toNat := by simp [hr]
  have ha : s.absorb = { s with
      rxbuf := Memory.writeAll s.rxbuf 0 (s.rx.take s.hid.dlen.toNat)
      rx := s.rx.drop s.hid.dlen.toNat
      hid := { s.hid with cnt := 0, rsum := s.hid.rsum + sum8 (s.rx.take s.hid.dlen.toNat) } } := by
    simp [State.absorb, State.place, hq, State.countOff, State.readSoFar, State.readCount, hc, hr]
  have hb : ∀ u : State, u.rxbuf = Memory.writeAll s.rxbuf 0 (s.rx.take s.hid.dlen.toNat) →
      u.rxBytes s.hid.dlen.toNat = s.rx.take s.hid.dlen.toNat := by
    intro u hu
    have := rxBytes_of_listed u (s.rx.take s.hid.dlen.toNat) (by
      intro j hj
      have := read_writeAll_inside s.rxbuf 0 j _ hj
      rw [Nat.zero_add] at this
      rw [hu, this]
      exact (List.getElem?_eq_getElem hj).symm)
    rwa [hl] at this
  rw [ha]
  simp only [State.readDone, State.readCount, hq, show ¬ s.hid.dlen.toNat = 0 by omega, if_false, State.emit,
    State.readBytes]
  rw [hb _ rfl]

end Sys2Proof.Machine
end

