-- ==== Sys2Proof/Laws/Reads.lean ====
section
/-! SUPPORT. The bytes of an open read request, over all the steps they take to come in: what HDR or RXBUF holds of them
before a step (`gathered`), and after it. -/

namespace Sys2Proof.Machine

/-! ### HDR as eight places -/

@[simp] theorem hdr_bytes_length (h : Hdr) : h.bytes.length = 8 := rfl

theorem put_bytes (h : Hdr) (i : Nat) (b : Byte) (hi : i < 8) : (h.put i b).bytes = h.bytes.set i b := by
  interval_cases i <;> rfl

/-- Bytes put from place `i` on stand there, and the places around them keep what they hold. -/
theorem putAll_bytes (h : Hdr) (i : Nat) (b : List Byte) (hi : i + b.length ≤ 8) :
    (h.putAll i b).bytes = h.bytes.take i ++ b ++ h.bytes.drop (i + b.length) := by
  induction b generalizing h i with
  | nil => simp [Hdr.putAll]
  | cons x b ih =>
    have hi' : i + 1 + b.length ≤ 8 := by simp at hi; omega
    have h8 : i < h.bytes.length := by simp at hi ⊢; omega
    have hd : i + 1 + b.length = i + (x :: b).length := by simp; omega
    have ht : (h.put i x).bytes.take (i + 1) = h.bytes.take i ++ [x] := by
      rw [put_bytes _ _ _ h8, List.take_succ_eq_append_getElem (by simpa using h8), List.take_set_of_le (Nat.le_refl i)]
      simp
    have hr : (h.put i x).bytes.drop (i + 1 + b.length) = h.bytes.drop (i + (x :: b).length) := by
      rw [put_bytes _ _ _ h8, List.drop_set_of_lt (by omega), hd]
    rw [Hdr.putAll, ih _ _ hi', ht, hr]
    simp

/-! ### The bytes gathered so far -/

/-- A request for at most three, five or six bytes fits its places in HDR. -/
theorem readBase_fits (s : State) (hq : s.seq ≠ .rxPayload) : s.readBase + s.readCount ≤ 8 := by
  unfold State.readBase State.readCount
  cases h : s.seq <;> simp_all

/-- In a fixed-size read, HDR holds what has come in. -/
theorem gathered_header (s : State) (hq : s.seq ≠ .rxPayload) :
    s.gathered = (s.hid.hdr.bytes.drop s.readBase).take s.readSoFar := by
  unfold State.gathered State.readBytes
  split
  · next h => exact absurd h hq
  · rw [List.take_take, Nat.min_eq_left (show s.readSoFar ≤ s.readCount from Nat.sub_le _ _)]

/-- In the payload read, RXBUF holds what has come in. -/
theorem gathered_payload (s : State) (hq : s.seq = .rxPayload) : s.gathered = s.rxBytes s.readSoFar := by
  have h : s.readSoFar ≤ s.hid.dlen.toNat := by simp [State.readSoFar, State.readCount, hq]
  simp only [State.gathered, State.readBytes, hq, State.rxBytes, ← List.map_take, List.take_range, Nat.min_eq_left h]

theorem absorb_seq (s : State) : s.absorb.seq = s.seq := by
  obtain ⟨_, _, _, _, h, -⟩ := absorb_same s
  rw [h]

theorem absorb_draw (s : State) : s.absorb.draw = s.draw := by
  obtain ⟨_, _, _, _, h, -⟩ := absorb_same s
  rw [h]

theorem absorb_readCount (s : State) : s.absorb.readCount = s.readCount := by
  obtain ⟨_, _, _, _, h, -⟩ := absorb_same s
  rw [h]
  rfl

theorem absorb_readSoFar (s : State) (hc : s.hid.cnt.toNat ≤ s.readCount) :
    s.absorb.readSoFar = s.readSoFar + (s.rx.take s.hid.cnt.toNat).length := by
  rw [State.readSoFar, absorb_readCount, absorb_cnt_toNat, State.readSoFar, List.length_take]
  omega

/-- Bytes that come in stand behind those that came in earlier steps: in HDR, or in RXBUF. -/
theorem absorb_gathered (s : State) (hc : s.hid.cnt.toNat ≤ s.readCount) :
    s.absorb.gathered = s.gathered ++ s.rx.take s.hid.cnt.toNat := by
  have hl : (s.rx.take s.hid.cnt.toNat).length ≤ s.hid.cnt.toNat := by simp
  have hn := absorb_readSoFar s hc
  have hf : s.readSoFar + (s.rx.take s.hid.cnt.toNat).length ≤ s.readCount := by unfold State.readSoFar; omega
  by_cases hq : s.seq = .rxPayload
  · have hd : s.absorb.draw = s.draw := absorb_draw s
    have hb : s.absorb.rxbuf = Memory.writeAll s.rxbuf s.readSoFar (s.rx.take s.hid.cnt.toNat) := by
      simp [State.absorb, State.countOff, State.place, hq]
    have hg : (s.rxBytes s.readSoFar).length = s.readSoFar := by simp [State.rxBytes]
    rw [gathered_payload _ ((absorb_seq s).trans hq), gathered_payload s hq, hn]
    refine List.ext_getElem (by simp [State.rxBytes]) fun j h1 h2 => ?_
    have hj : j < s.readSoFar + (s.rx.take s.hid.cnt.toNat).length := by simpa [State.rxBytes] using h1
    rw [show (s.absorb.rxBytes (s.readSoFar + (s.rx.take s.hid.cnt.toNat).length))[j] = s.absorb.rxByte j by
      simp [State.rxBytes]]
    rw [State.rxByte, hb, hd]
    by_cases hs : j < s.readSoFar
    · rw [read_writeAll_outside _ _ _ _ (.inl hs), List.getElem_append_left (by rw [hg]; exact hs)]
      simp [State.rxBytes, State.rxByte]
    · obtain ⟨k, rfl⟩ : ∃ k, j = s.readSoFar + k := ⟨j - s.readSoFar, by omega⟩
      have hk : k < (s.rx.take s.hid.cnt.toNat).length := by omega
      rw [read_writeAll_inside _ _ _ _ hk, List.getElem_append_right (by rw [hg]; omega)]
      simp [hg]
  · have hb : s.absorb.hid.hdr = s.hid.hdr.putAll (s.readBase + s.readSoFar) (s.rx.take s.hid.cnt.toNat) := by
      simp only [State.absorb, State.countOff, State.place]
    have hbase : s.absorb.readBase = s.readBase := by unfold State.readBase; rw [absorb_seq]
    have h8 := readBase_fits s hq
    rw [gathered_header _ (by rw [absorb_seq]; exact hq), gathered_header s hq, hn, hb, hbase,
      putAll_bytes _ _ _ (by omega), List.append_assoc, List.drop_append_of_le_length (by simp; omega),
      List.drop_take, Nat.add_sub_cancel_left, ← List.append_assoc, List.take_left']
    simp
    omega

/-- A complete request shows, in its event and in its place, the bytes of all its steps. -/
theorem absorb_readBytes (s : State) (hc : s.hid.cnt.toNat ≤ s.readCount) (hr : s.hid.cnt.toNat ≤ s.rx.length) :
    s.absorb.readBytes = s.gathered ++ s.rx.take s.hid.cnt.toNat := by
  have hlen : ∀ t : State, t.readBytes.length ≤ t.readCount := by
    intro t
    unfold State.readBytes State.readCount
    split <;> simp_all [State.rxBytes]
  have h0 : s.absorb.readSoFar = s.absorb.readCount := by
    rw [State.readSoFar, absorb_cnt_toNat]
    omega
  have := absorb_gathered s hc
  rwa [State.gathered, h0, List.take_of_length_le (hlen _)] at this

/-! ### A request whose last byte is there -/

/-- Taking the bytes of a fixed-size read. -/
theorem absorb_fixed (s : State) (hq : s.seq ≠ .rxPayload) (hr : s.hid.cnt.toNat ≤ s.rx.length) :
    s.absorb = { s with
      rx := s.rx.drop s.hid.cnt.toNat
      hid := { s.hid with
        cnt := 0, hdr := s.hid.hdr.putAll (s.readBase + s.readSoFar) (s.rx.take s.hid.cnt.toNat) } } := by
  have hc := (absorb_cnt_zero_iff s).2 hr
  simp only [State.absorb, State.countOff, State.place] at hc ⊢
  rw [hc]

/-- Taking the bytes of the payload read. -/
theorem absorb_payload (s : State) (hq : s.seq = .rxPayload) (hr : s.hid.cnt.toNat ≤ s.rx.length) :
    s.absorb = { s with
      rxbuf := Memory.writeAll s.rxbuf (s.hid.dlen.toNat - s.hid.cnt.toNat) (s.rx.take s.hid.cnt.toNat)
      rx := s.rx.drop s.hid.cnt.toNat
      hid := { s.hid with cnt := 0, rsum := s.hid.rsum + sum8 (s.rx.take s.hid.cnt.toNat) } } := by
  have hc := (absorb_cnt_zero_iff s).2 hr
  simp only [State.absorb, State.countOff, State.place, hq, State.readSoFar, State.readCount] at hc ⊢
  rw [hc]

/-- A request for at least one byte whose last byte is there completes with the bytes of all its steps in its event. -/
theorem readRequest_last (s : State) (ht : s.timeout ≠ 0) (hc : s.hid.cnt ≠ 0) (hn : s.hid.cnt.toNat ≤ s.readCount)
    (hr : s.hid.cnt.toNat ≤ s.rx.length) :
    s.readRequest =
      .complete (s.absorb.emit (.readOk s.readCount (s.gathered ++ s.rx.take s.hid.cnt.toNat))) := by
  have h0 : ¬s.readCount = 0 := by
    intro h
    apply hc
    rw [← BitVec.toNat_inj]
    simp
    omega
  rw [readRequest_ready s ht hc hr, State.readDone, absorb_readCount, if_neg h0, absorb_readBytes s hn hr]

/-! ### How a request ends, whatever TIMEOUT is -/

/-- A request for at least one byte that completes has taken all it needed, and its event shows the bytes of all its
steps; under TIMEOUT = 0 a free value has been used as well. -/
theorem readRequest_completes (s t : State) (hc : s.hid.cnt ≠ 0) (hn : s.hid.cnt.toNat ≤ s.readCount)
    (h : s.readRequest = .complete t) :
    s.hid.cnt.toNat ≤ s.rx.length ∧ ∃ d,
      t = { s.absorb with
        trace := .readOk s.readCount (s.gathered ++ s.rx.take s.hid.cnt.toNat) :: s.trace, draw := d } := by
  have h0 : ¬s.readCount = 0 := by
    intro h0
    apply hc
    rw [← BitVec.toNat_inj]
    simp
    omega
  have key : s.hid.cnt.toNat ≤ s.rx.length →
      s.absorb.readDone = s.absorb.emit (.readOk s.readCount (s.gathered ++ s.rx.take s.hid.cnt.toNat)) := fun hr => by
    rw [State.readDone, absorb_readCount, if_neg h0, absorb_readBytes s hn hr]
  unfold State.readRequest State.readZero State.readTimed at h
  rw [if_neg hc] at h
  dsimp only at h
  split at h
  · split at h
    · cases h
    · split at h
      · next hz =>
        have hr := (absorb_cnt_zero_iff s).1 hz
        cases h
        exact ⟨hr, s.draw + 1, by rw [key hr, State.drawn, State.emit, absorb_trace, absorb_draw]⟩
      · cases h
  · split at h
    · next hz =>
      have hr := (absorb_cnt_zero_iff s).1 hz
      cases h
      exact ⟨hr, s.absorb.draw, by rw [key hr, State.emit, absorb_trace]⟩
    · split at h <;> cases h

/-- What an expired request has lost: `k` of the bytes that were there, fewer than it still asked for; its one event says
how many, those of earlier steps among them. -/
def LostShort (s t : State) : Prop :=
  ∃ k, k < s.hid.cnt.toNat ∧ k ≤ s.rx.length ∧ t.rx = s.rx.drop k ∧
    t.trace = .readTimeout s.readCount (s.readCount - s.hid.cnt.toNat + k) :: s.trace

theorem absorb_lostShort (s : State) (hn : s.hid.cnt.toNat ≤ s.readCount) (hz : ¬s.absorb.hid.cnt = 0) :
    LostShort s s.absorb.readLost := by
  have hl : s.rx.length < s.hid.cnt.toNat := by
    rw [absorb_cnt_zero_iff] at hz
    omega
  refine ⟨s.rx.length, hl, Nat.le_refl _, ?_, ?_⟩
  · rw [State.readLost, emit_rx, absorb_rx, List.drop_eq_nil_of_le (Nat.le_of_lt hl), List.drop_length]
  · rw [State.readLost, emit_trace, absorb_readCount, absorb_readSoFar s hn, absorb_trace,
      List.take_of_length_le (Nat.le_of_lt hl), State.readSoFar]

theorem zeroExpire_lostShort (s : State) (hn : s.hid.cnt.toNat ≤ s.readCount) (hc : s.hid.cnt ≠ 0) :
    LostShort s s.zeroExpire.readLost := by
  have hp : 0 < s.hid.cnt.toNat := by
    rw [Nat.pos_iff_ne_zero, ne_eq, ← BitVec.toNat_zero (w := 16), BitVec.toNat_inj]
    exact hc
  have hz : s.zeroLost < s.hid.cnt.toNat ∧ s.zeroLost ≤ s.rx.length := by
    unfold State.zeroLost State.zeroMayLose
    omega
  have hcn : s.zeroExpire.hid.cnt.toNat = s.hid.cnt.toNat - s.zeroLost := by
    simp only [State.zeroExpire, countOff_cnt, BitVec.toNat_ofNat]
    exact Nat.mod_eq_of_lt (by have := s.hid.cnt.isLt; omega)
  have hso : s.zeroExpire.readSoFar = s.readCount - s.hid.cnt.toNat + s.zeroLost := by
    rw [State.readSoFar, hcn, show s.zeroExpire.readCount = s.readCount from rfl]
    omega
  refine ⟨s.zeroLost, hz.1, hz.2, rfl, ?_⟩
  rw [State.readLost, emit_trace, hso]
  rfl

/-- A request that has expired has lost fewer bytes than it asked for, and nothing arrives in that step. -/
theorem readRequest_expires (s t : State) (hn : s.hid.cnt.toNat ≤ s.readCount) (h : s.readRequest = .expired t) :
    LostShort s t ∧ t.coming = s.coming ∧ t.now = s.now := by
  obtain ⟨_, _, _, _, ha, -⟩ := absorb_same s
  have hm : s.absorb.coming = s.coming ∧ s.absorb.now = s.now := by rw [ha]; exact ⟨rfl, rfl⟩
  unfold State.readRequest State.readZero State.readTimed at h
  dsimp only at h
  split at h
  · cases h
  · next hc =>
    split at h
    · split at h
      · cases h; exact ⟨zeroExpire_lostShort s hn hc, rfl, rfl⟩
      · split at h
        · cases h
        · next hz => cases h; exact ⟨absorb_lostShort s hn hz, hm⟩
    · split at h
      · cases h
      · next hz =>
        split at h <;> cases h
        exact ⟨absorb_lostShort s hn hz, hm⟩

end Sys2Proof.Machine
end

