-- ==== Sys2Proof/Laws/Step.lean ====
section
/-! SUPPORT. What one step can do, said once: `StepKind` has one constructor per kind of step of the transition table
43_transaction.md R185, and `step_cases` says that every step that answers a next state is a reset or one of them. -/

namespace Sys2Proof.Machine

/-! ### The kinds of step -/

/-- The steps of a block whose reset is released, after the done_valid pulse of the step before has ended. -/
inductive StepKind (s : State) : State → Prop
  | arrive : s.seq = .idle → s.ops = [] → StepKind s s.arrive
  | accept (a rest) : s.seq = .idle → s.ops = ⟨1, a⟩ :: rest →
      StepKind s (State.acceptSendRaw (a.setWidth 16) { s with ops := rest })
  | assertAck (r a rest) : s.seq = .idle → s.ops = ⟨2, a⟩ :: rest → resultOfCode (a.setWidth 3) = some r →
      StepKind s (State.finish (State.ackResult r { s with ops := rest }) { s with ops := rest })
  | setTimeout (a rest) : s.seq = .idle → s.ops = ⟨3, a⟩ :: rest →
      StepKind s (State.finish .success { s with ops := rest, timeout := a })
  | firstFlush : s.seq = .txFlush → StepKind s s.firstFlush
  | sendHeader : s.seq = .txHeader → StepKind s (s.sendHeader (txHeader s.hid.tlen))
  | sendPayload : s.seq = .txPayload → StepKind s s.sendPayload
  | sendTrailer : s.seq = .txTrailer → StepKind s s.sendTrailer
  | wait (t) : s.seq.reads = true → s.readRequest = .waiting t → StepKind s t
  | ackOk (t) : s.seq = .rxAck → s.readRequest = .complete t → t.hid.hdr.bytes.take 6 = fixedFrame →
      StepKind s (t.startRead .rxHdr 5)
  | ackWrong (t) : s.seq = .rxAck → s.readRequest = .complete t → t.hid.hdr.bytes.take 6 ≠ fixedFrame →
      StepKind s (t.fail .noAck true)
  | ackLate (t) : s.seq = .rxAck → s.readRequest = .expired t → StepKind s (t.fail .noAck true)
  | headerShort (t) : s.seq = .rxHdr → s.readRequest = .complete t →
      preambleOk t.hid.hdr.b0 t.hid.hdr.b1 t.hid.hdr.b2 = true → extMarker t.hid.hdr.b3 t.hid.hdr.b4 = false →
      StepKind s (t.goto .rxCheck)
  | headerExtended (t) : s.seq = .rxHdr → s.readRequest = .complete t →
      preambleOk t.hid.hdr.b0 t.hid.hdr.b1 t.hid.hdr.b2 = true → extMarker t.hid.hdr.b3 t.hid.hdr.b4 = true →
      StepKind s (t.startRead .rxExt 3)
  | headerWrong (t) : s.seq = .rxHdr → s.readRequest = .complete t →
      preambleOk t.hid.hdr.b0 t.hid.hdr.b1 t.hid.hdr.b2 = false → StepKind s (t.fail .invalid true)
  | headerLate (t) : s.seq = .rxHdr → s.readRequest = .expired t → StepKind s (t.fail .failed true)
  | extendedOk (t) : s.seq = .rxExt → s.readRequest = .complete t → StepKind s (t.goto .rxCheck)
  | extendedLate (t) : s.seq = .rxExt → s.readRequest = .expired t → StepKind s (t.fail .invalid true)
  | checkShort : s.seq = .rxCheck → extMarker s.hid.hdr.b3 s.hid.hdr.b4 = false →
      StepKind s (s.checkLength [s.hid.hdr.b3, s.hid.hdr.b4] (shortLength s.hid.hdr.b3))
  | checkExtended : s.seq = .rxCheck → extMarker s.hid.hdr.b3 s.hid.hdr.b4 = true →
      StepKind s
        (s.checkLength [s.hid.hdr.b5, s.hid.hdr.b6, s.hid.hdr.b7] (extLength s.hid.hdr.b5 s.hid.hdr.b6))
  | payloadOk (t) : s.seq = .rxPayload → s.hid.dlen.toNat ≤ 265 → s.readRequest = .complete t →
      StepKind s (t.startRead .rxTrailer 2)
  | payloadLate (t) : s.seq = .rxPayload → s.hid.dlen.toNat ≤ 265 → s.readRequest = .expired t →
      StepKind s (t.fail .failed true)
  | trailerRead (t) : s.seq = .rxTrailer → s.readRequest = .complete t → StepKind s t.checkTrailer
  | trailerLate (t) : s.seq = .rxTrailer → s.readRequest = .expired t → StepKind s (t.fail .invalid true)
  | cancelSend : s.seq = .canTx → StepKind s s.sendCancel
  | cancelSleep : s.seq = .canSleep → StepKind s s.cancelSleep
  | cancelFlush : s.seq = .canFlush → StepKind s s.cancelFlush
  | deliver : s.seq = .done → StepKind s s.deliver

theorem receivePayload_kind {s t : State} (h : s.receivePayload = .next t) (hq : s.seq = .rxPayload) : StepKind s t := by
  unfold State.receivePayload at h
  split at h
  · cases h
  · next hd =>
    have hd : s.hid.dlen.toNat ≤ 265 := by simpa [Config.maxResp] using hd
    split at h <;> cases h
    · next hr => exact .payloadOk _ hq hd hr
    · next hr => exact .payloadLate _ hq hd hr
    · next hr => exact .wait _ (by rw [hq]; rfl) hr

theorem receiveTrailer_kind {s : State} (hq : s.seq = .rxTrailer) : StepKind s s.receiveTrailer := by
  unfold State.receiveTrailer
  split
  · next hr => exact .trailerRead _ hq hr
  · next hr => exact .trailerLate _ hq hr
  · next hr => exact .wait _ (by rw [hq]; rfl) hr

/-- The kinds of step in IDLE. -/
theorem idle_kind {s t : State} (hr : s.rst = false) (hq : s.seq = .idle) (h : step s = .next t) :
    StepKind s.nextCycle t := by
  rw [step_idle s hr hq] at h
  cases ho : s.ops with
  | nil =>
    rw [ho] at h
    cases h
    exact .arrive hq ho
  | cons c rest =>
    obtain ⟨op, a⟩ := c
    rw [ho] at h
    have h4 : ∀ op : BitVec 2, op = 0 ∨ op = 1 ∨ op = 2 ∨ op = 3 := by decide
    rcases h4 op with rfl | rfl | rfl | rfl
    · simp [decode, decodeCommand, exec, execReservedOp0] at h
    · simp [decode, decodeCommand, exec, execSendRaw, hq] at h
      subst h
      exact .accept _ _ hq ho
    · cases hc : resultOfCode (a.setWidth 3) with
      | none => simp [decode, decodeCommand, hc] at h
      | some r =>
        simp [decode, decodeCommand, hc, exec, execAssertAck, hq] at h
        subst h
        exact .assertAck _ _ _ hq ho hc
    · simp [decode, decodeCommand, exec, execSetTimeout, hq] at h
      subst h
      exact .setTimeout _ _ hq ho

/-- Every step that answers a next state is the reset, or one of the kinds. -/
theorem step_cases {s t : State} (h : step s = .next t) :
    (s.rst = true ∧ t = s.resetBlock) ∨ (s.rst = false ∧ StepKind s.nextCycle t) := by
  cases hr : s.rst with
  | true =>
    rw [step, if_pos hr] at h
    cases h
    exact .inl ⟨rfl, rfl⟩
  | false =>
    refine .inr ⟨rfl, ?_⟩
    cases hq : s.seq with
    | idle => exact idle_kind hr hq h
    | txFlush => rw [step_txFlush s hr hq] at h; cases h; exact .firstFlush hq
    | txHeader => rw [step_txHeader s hr hq] at h; cases h; exact .sendHeader hq
    | txPayload => rw [step_txPayload s hr hq] at h; cases h; exact .sendPayload hq
    | txTrailer => rw [step_txTrailer s hr hq] at h; cases h; exact .sendTrailer hq
    | rxAck =>
      rw [step_rxAck s hr hq] at h
      cases h
      split
      · next hc =>
        split
        · next hf => exact .ackOk _ hq hc hf
        · next hf => exact .ackWrong _ hq hc hf
      · next hc => exact .ackLate _ hq hc
      · next hc => exact .wait _ (by rw [nextCycle_seq, hq]; rfl) hc
    | rxHdr =>
      rw [step_rxHdr s hr hq] at h
      cases h
      split
      · next hc =>
        split
        · next hp => exact .headerWrong _ hq hc hp
        · next hp =>
          split
          · next hm => exact .headerExtended _ hq hc (by simpa using hp) hm
          · next hm => exact .headerShort _ hq hc (by simpa using hp) (by simpa using hm)
      · next hc => exact .headerLate _ hq hc
      · next hc => exact .wait _ (by rw [nextCycle_seq, hq]; rfl) hc
    | rxExt =>
      rw [step_rxExt s hr hq] at h
      cases h
      split
      · next hc => exact .extendedOk _ hq hc
      · next hc => exact .extendedLate _ hq hc
      · next hc => exact .wait _ (by rw [nextCycle_seq, hq]; rfl) hc
    | rxCheck =>
      rw [step_rxCheck s hr hq] at h
      cases h
      split
      · next hm => exact .checkExtended hq hm
      · next hm => exact .checkShort hq (by simpa using hm)
    | rxPayload => rw [step_rxPayload s hr hq] at h; exact receivePayload_kind h hq
    | rxTrailer => rw [step_rxTrailer s hr hq] at h; cases h; exact receiveTrailer_kind hq
    | canTx => rw [step_canTx s hr hq] at h; cases h; exact .cancelSend hq
    | canSleep => rw [step_canSleep s hr hq] at h; cases h; exact .cancelSleep hq
    | canFlush => rw [step_canFlush s hr hq] at h; cases h; exact .cancelFlush hq
    | done => rw [step_done s hr hq] at h; cases h; exact .deliver hq

end Sys2Proof.Machine
end

