-- ==== Sys2Proof/Tests/Slice0.lean ====
section
/-! SUPPORT. The model's own tests: words decoded by hand from the spec's encodings, one step at a time on small
states, with the expected values of 95_test_vectors.md, and the witnesses of the obligations' hypotheses. -/

namespace Sys2Proof.Tests

open Sys2Proof Sys2Proof.Machine

/-! ### Helpers -/

/-- The state a step leads to, if it leads to one. -/
def nextOf (o : Host.Outcome State Fault Refusal) : Option State :=
  match o with
  | .next t => some t
  | _ => none

/-- The refusal, if it is one. -/
def refusalOf (o : Host.Outcome State Fault Refusal) : Option Refusal :=
  match o with
  | .refused r => some r
  | _ => none

/-- An idle block with operations offered. -/
def offered (ops : List Command) : State := { State.reset with ops := ops }

/-- A block in a state with CNT at work and bytes waiting. -/
def busyAt (q : SeqState) (cnt : Length) (rx : List Byte) : State :=
  { State.reset with seq := q, rx := rx, hid := { Hidden.reset with cnt := cnt } }

/-- The same, at the very end of the time of its read request (elapsed = TIMEOUT = 1000). -/
def lateAt (q : SeqState) (cnt : Length) (rx : List Byte) : State := { busyAt q cnt rx with now := 1000 }

/-- An idle block that has received a payload. -/
def holding (p : List Byte) : State :=
  { State.reset with rxlen := BitVec.ofNat 9 p.length, rxbuf := Memory.writeAll [] 0 p }

/-- A block in a reading state whose first bytes came in earlier steps: they stand in HDR. -/
def partlyAt (q : SeqState) (cnt : Length) (h : Hdr) (rx : List Byte) : State :=
  { State.reset with seq := q, rx := rx, hid := { Hidden.reset with cnt := cnt, hdr := h } }

/-- A block in a state that hands over bytes, with a transport that has room for `r` more. -/
def roomAt (q : SeqState) (cnt : Length) (pl : List Byte) (r : Nat) : State :=
  { State.reset with seq := q, pl := pl, txRoom := some r, hid := { Hidden.reset with cnt := cnt, tlen := 3 } }

/-- A block in the payload read of `n` bytes. -/
def payloadAt (n : Nat) (rx : List Byte) : State :=
  { State.reset with
    seq := .rxPayload, rx := rx, hid := { Hidden.reset with cnt := BitVec.ofNat 16 n, dlen := BitVec.ofNat 16 n } }

/-- A block in the trailer read of the payload `D5 33`. -/
def trailerAt (rx : List Byte) : State :=
  { holding [0xD5, 0x33] with
    seq := .rxTrailer, rx := rx, hid := { Hidden.reset with cnt := 2, dlen := 2, rsum := 0x08 } }

/-- A block at DONE after a Success with the payload `D5 33`. -/
def doneAt (r : Result) : State :=
  { holding [0xD5, 0x33] with seq := .done, hid := { Hidden.reset with dlen := 2, pend := r } }

/-- A block in a state that hands over bytes, with the payload stream. -/
def sendingAt (q : SeqState) (cnt tlen : Length) (pl : List Byte) : State :=
  { State.reset with seq := q, pl := pl, hid := { Hidden.reset with cnt := cnt, tlen := tlen } }

/-- The length of a payload of equal bytes. -/
theorem sized (n : Nat) (b : Byte) : (List.replicate n b).length = n := List.length_replicate

/-! ### Well-formedness -/

/-- 30_encoding.md R92: the pair FF FF is the marker of the extended form, no short header. -/
theorem test_wellFormed_refuses_marker_pair : (Instr.dataShort 0xFF 0xFF).wellFormed = false := by decide

/-- Table note of DATA_SHORT: "LEN = 0xFF with LCS = 0x01 is a valid short header". -/
theorem test_wellFormed_admits_ff_01 : (Instr.dataShort 0xFF 0x01).wellFormed = true := by decide

/-- The ill-formed term has no encoding that decodes to it: its five bytes announce three more. -/
theorem test_marker_pair_does_not_decode :
    decode (encode (.dataShort 0xFF 0xFF)) = .rejected .extendedFollows := by decide

/-! ### Decoding -/

/-- S1. -/
theorem test_decode_ack : decode (.wire .fromDevice [0x00, 0x00, 0xFF, 0x00, 0xFF, 0x00]) = .ok .ack := by decide

/-- S2. -/
theorem test_decode_cancel : decode (.wire .toDevice [0x00, 0x00, 0xFF, 0x00, 0xFF, 0x00]) = .ok .cancel := by decide

/-- E3. -/
theorem test_decode_dataShort :
    decode (.wire .fromDevice [0x00, 0x00, 0xFF, 0x04, 0xFC]) = .ok (.dataShort 0x04 0xFC) := by decide

/-- E12. -/
theorem test_decode_dataExt :
    decode (.wire .fromDevice [0x00, 0x00, 0xFF, 0xFF, 0xFF, 0x01, 0x09, 0xF6]) = .ok (.dataExt 0x01 0x09 0xF6) := by
  decide

/-- P4: `op_code=1 op_arg=0x00000100`; bits 31 to 16 do not matter (R36). -/
theorem test_decode_sendRaw :
    decode (.command ⟨1, 0x00000100⟩) = .ok (.sendRaw 256) ∧
    decode (.command ⟨1, 0xFFFF0100⟩) = .ok (.sendRaw 256) := by decide

/-- P5: `op_code=2 op_arg=0x00000004`. -/
theorem test_decode_assertAck : decode (.command ⟨2, 0x00000004⟩) = .ok (.assertAck .notFound) := by decide

/-- T1 and T3. -/
theorem test_decode_setTimeout :
    decode (.command ⟨3, 0x000000FA⟩) = .ok (.setTimeout 250) ∧
    decode (.command ⟨3, 0xFFFFFFFF⟩) = .ok (.setTimeout 4294967295) := by decide

/-- R100. -/
theorem test_decode_reservedOp0 : decode (.command ⟨0, 0x12345678⟩) = .ok .reservedOp0 := by decide

/-- A11, X4, X8, X10, and a number of bytes that is no frame. -/
theorem test_decode_rejects :
    decode (.command ⟨2, 5⟩) = .rejected (.reservedResult 5) ∧
    decode (.wire .fromDevice [0x00, 0x00, 0xFF, 0x00, 0xFF, 0x01]) = .rejected .notFixedFrame ∧
    decode (.wire .fromDevice [0x00, 0xFF, 0x00, 0x02, 0xFE]) = .rejected .badPreamble ∧
    decode (.wire .fromDevice [0x00, 0x00, 0xFF, 0xFF, 0xFF]) = .rejected .extendedFollows ∧
    decode (.wire .fromDevice [0x00, 0x00, 0xFF, 0x00, 0xFF, 0x01, 0x09, 0xF6]) = .rejected .notExtended ∧
    decode (.wire .fromDevice [0x00]) = .rejected (.wrongLength 1) := by decide

/-- The rows' `match` numbers, with operand bits filled in from E3 and E12. -/
theorem test_table_words :
    decodeTableWord 48 0x0000FF00FF00 = some .ack ∧
    decodeTableWord 40 0x0000FF04FC = some (.dataShort 0x04 0xFC) ∧
    decodeTableWord 64 0x0000FFFFFF0109F6 = some (.dataExt 0x01 0x09 0xF6) ∧
    decodeTableWord 8 1 = some (.sendRaw 0) ∧ decodeTableWord 8 2 = some (.assertAck .success) ∧
    decodeTableWord 8 3 = some (.setTimeout 0) ∧ decodeTableWord 8 0 = some .reservedOp0 := by decide

/-- A row's word placed after reset is what the next step runs: SETTIMEOUT 0. -/
theorem test_placed_word_runs :
    (nextOf (step (State.reset.withFetchWord 8 3))).map (fun t => (t.timeout, t.done)) = some (0, some .success) := by
  decide

/-! ### Encoding -/

/-- E1, E3 and E9. -/
theorem test_frames :
    frame [] = [0x00, 0x00, 0xFF, 0x00, 0x00, 0x00, 0x00] ∧
    frame [0xD4, 0x32, 0x01, 0x00] = [0x00, 0x00, 0xFF, 0x04, 0xFC, 0xD4, 0x32, 0x01, 0x00, 0xF9, 0x00] ∧
    frame [0x00, 0x00, 0xFF] = [0x00, 0x00, 0xFF, 0x03, 0xFD, 0x00, 0x00, 0xFF, 0x01, 0x00] := by decide

/-- E10, E11 and E14: the headers on the two sides of the form boundary, and the largest length. -/
theorem test_headers :
    txHeader 255 = [0x00, 0x00, 0xFF, 0xFF, 0x01] ∧
    txHeader 256 = [0x00, 0x00, 0xFF, 0xFF, 0xFF, 0x01, 0x00, 0xFF] ∧
    txHeader 65535 = [0x00, 0x00, 0xFF, 0xFF, 0xFF, 0xFF, 0xFF, 0x02] := by decide

/-! ### One step of each instruction -/

/-- X1: after the ACK frame, `Read(5)` is opened. -/
theorem test_ack_opens_header_read :
    (nextOf (step (busyAt .rxAck 6 [0x00, 0x00, 0xFF, 0x00, 0xFF, 0x00, 0x77]))).map
      (fun t => (t.seq, t.hid.cnt, t.rx, t.trace)) =
    some (.rxHdr, 5, [0x77], [.readOk 6 [0x00, 0x00, 0xFF, 0x00, 0xFF, 0x00]]) := by decide

/-- X4: any other six bytes are NoAck with cancel. -/
theorem test_ack_mismatch :
    (nextOf (step (busyAt .rxAck 6 [0x00, 0x00, 0xFF, 0x00, 0xFF, 0x01]))).map (fun t => (t.seq, t.hid.pend)) =
    some (.canTx, .noAck) := by decide

/-- K1, first event. -/
theorem test_cancel_writes :
    (nextOf (exec .cancel (busyAt .canTx 6 []))).map (fun t => (t.seq, t.txQueue, t.trace)) =
    some (.canSleep, [0x00, 0x00, 0xFF, 0x00, 0xFF, 0x00], [.write [0x00, 0x00, 0xFF, 0x00, 0xFF, 0x00]]) := by decide

/-- K1, third event: what was in the output path has left it. -/
theorem test_cancel_flushes :
    (nextOf (exec .cancel { busyAt .canFlush 0 [0x55] with txQueue := [0xAA] })).map
      (fun t => (t.seq, t.txSent, t.txQueue, t.rx)) =
    some (.done, [0xAA], [], [0x55]) := by decide

/-- X9: short form, LCS wrong (`02 FD`): Invalid, no cancel. -/
theorem test_dataShort_wrong_lcs :
    (nextOf (exec (.dataShort 0x02 0xFD) (busyAt .rxCheck 0 []))).map (fun t => (t.seq, t.hid.pend)) =
    some (.done, .invalid) := by decide

/-- X18: payload `D5 32` with the DCS of `D5 33`: Invalid, cancel. -/
theorem test_dataShort_wrong_dcs :
    (nextOf (exec (.dataShort 0x02 0xFE)
      { trailerAt [0xF8, 0x00] with hid := { Hidden.reset with cnt := 2, dlen := 2, rsum := 0x07 } })).map
      (fun t => (t.seq, t.hid.pend)) =
    some (.canTx, .invalid) := by decide

/-- X12: length 266 with good LCS (`01 0A F5`): Failed, no cancel, nothing read. -/
theorem test_dataExt_too_long :
    (nextOf (exec (.dataExt 0x01 0x0A 0xF5) (busyAt .rxCheck 0 [0x11]))).map (fun t => (t.seq, t.hid.pend, t.rx)) =
    some (.done, .failed, [0x11]) := by decide

/-- X15: extended form declaring length 5 (`00 05 FB`) is accepted. -/
theorem test_dataExt_non_canonical :
    (nextOf (exec (.dataExt 0x00 0x05 0xFB) (busyAt .rxCheck 0 []))).map (fun t => (t.seq, t.hid.dlen, t.hid.cnt)) =
    some (.rxPayload, 5, 5) := by decide

/-- X1: SENDRAW of four bytes is accepted; the block is busy and no Result is given yet. -/
theorem test_sendRaw_accepted :
    (nextOf (step (offered [⟨1, 4⟩, ⟨3, 0⟩]))).map (fun t => (t.seq, t.hid.tlen, t.done, t.ops)) =
    some (.txFlush, 4, none, [⟨3, 0⟩]) := by decide

/-- X1: the end of a Success: RXLEN = 2, RXBUF[0..1] = D5 33. -/
theorem test_sendRaw_delivers :
    (nextOf (exec (.sendRaw 4) (doneAt .success))).map
      (fun t => (t.seq, t.done, t.rxlen, Memory.read? t.rxbuf 0, Memory.read? t.rxbuf 1)) =
    some (.idle, some .success, 2, some 0xD5, some 0x33) := by decide

/-- A1 and A9. -/
theorem test_assertAck_success_and_pass :
    (nextOf (exec (.assertAck .success) (holding [0xD5, 0x33]))).map (fun t => (t.done, t.trace)) =
      some (some .success, []) ∧
    (nextOf (exec (.assertAck .invalid) (holding [0xD5, 0x33]))).map (fun t => t.done) = some (some .invalid) := by
  decide

/-- A2, A3 and A4. -/
theorem test_assertAck_noAck :
    (nextOf (exec (.assertAck .success) (holding [0xD5, 0x33, 0x00]))).map (fun t => t.done) = some (some .noAck) ∧
    (nextOf (exec (.assertAck .success) (holding [0xD5, 0x32]))).map (fun t => t.done) = some (some .noAck) ∧
    (nextOf (exec (.assertAck .success) (holding [0xD4, 0x33]))).map (fun t => t.done) = some (some .noAck) := by
  decide

/-- T1: TIMEOUT = 250; RXLEN unchanged; no transport event. -/
theorem test_setTimeout :
    (nextOf (step { holding [0xD5, 0x33] with ops := [⟨3, 0x000000FA⟩] })).map
      (fun t => (t.timeout, t.rxlen, t.trace, t.done)) =
    some (250, 2, [], some .success) := by decide

/-- R100, U3. -/
theorem test_reservedOp0 : refusalOf (step (offered [⟨0, 0⟩])) = some .reservedOpCode := by decide

/-- A11. -/
theorem test_reserved_result : refusalOf (step (offered [⟨2, 7⟩])) = some (.reservedResultCode 7) := by decide

/-- R242: reset in the middle of the payload read. -/
theorem test_reset_abandons :
    (nextOf (step { payloadAt 2 [0xD5] with rst := true, timeout := 5 })).map
      (fun t => (t.seq, t.timeout, t.done, t.rx)) =
    some (.idle, 1000, none, [0xD5]) := by decide

/-- X16: payload of 4 declared, 2 arrive, the time is over: Failed with cancel, 2 consumed. -/
theorem test_payload_short :
    (nextOf (step { payloadAt 4 [0xD5, 0x33] with now := 1000 })).map (fun t => (t.seq, t.hid.pend, t.rx, t.trace)) =
    some (.canTx, .failed, [], [.readTimeout 4 2]) := by decide

/-! ### Witnesses: states and operands that meet the hypotheses of the obligations, clause by clause -/

theorem witness_DecodeOfEncode : (Instr.dataShort 0xFF 0x01).wellFormed = true := by decide

theorem witness_DecodedWireBytes :
    decode (.wire .fromDevice [0x00, 0x00, 0xFF, 0xFF, 0xFF, 0xFF, 0xFF, 0x02]) = .ok (.dataExt 0xFF 0xFF 0x02) := by
  decide

theorem witness_ShortFrameLayout : (List.replicate 255 (1 : Byte)).length ≤ 255 := by
  rw [sized]

theorem witness_ExtendedFrameLayout :
    (255 < (List.replicate 256 (1 : Byte)).length ∧ (List.replicate 256 (1 : Byte)).length ≤ 65535) ∧
    (255 < (List.replicate 65535 (0xAA : Byte)).length ∧ (List.replicate 65535 (0xAA : Byte)).length ≤ 65535) := by
  simp only [sized]
  decide

/-- A changed byte (X18), and two payloads with the same sum (E1 and E5). -/
theorem witness_ChecksumInvariant :
    (∃ (h : 1 < [(0xD5 : Byte), 0x33].length) (s : State), (0x32 : Byte) ≠ [(0xD5 : Byte), 0x33][1] ∧
      s.hid.rsum = sum8 ([(0xD5 : Byte), 0x33].set 1 0x32) ∧ s.hid.hdr.b0 = cks [(0xD5 : Byte), 0x33]) ∧
    sum8 [0x80, 0x80] = sum8 [] :=
  ⟨⟨by decide, { State.reset with hid := { Hidden.reset with rsum := 0x07, hdr := ⟨0xF8, 0, 0, 0, 0, 0, 0, 0⟩ } },
    by decide⟩, by decide⟩

/-- With nothing coming, with a byte, with a pulse. -/
theorem witness_IdleBlock :
    (State.reset.rst = false ∧ State.reset.seq = .idle ∧ State.reset.ops = [] ∧ State.reset.coming = []) ∧
    (∃ s : State, s.rst = false ∧ s.seq = .idle ∧ s.ops = [] ∧ s.coming = .byte 0xFF :: [.tick]) ∧
    (∃ s : State, s.rst = false ∧ s.seq = .idle ∧ s.ops = [] ∧ s.coming = .tick :: [.byte 0]) :=
  ⟨by decide, ⟨{ State.reset with coming := [.byte 0xFF, .tick] }, by decide⟩,
    ⟨{ State.reset with coming := [.tick, .byte 0] }, by decide⟩⟩

theorem witness_ResetAbandons : ∃ s : State, s.rst = true ∧ s.seq = .rxPayload :=
  ⟨{ payloadAt 2 [0xD5] with rst := true }, by decide⟩

/-- The idle clause, the busy clause, and a step of a busy block. -/
theorem witness_SetTimeout :
    State.reset.seq = .idle ∧ (busyAt .rxAck 6 []).seq ≠ .idle ∧
    (∃ t, (busyAt .rxAck 6 []).rst = false ∧ step (busyAt .rxAck 6 []) = .next t) :=
  ⟨by decide, by decide, _, by decide, rfl⟩

/-- A7 and A10 (passed through), A1 (accepted), A3 and A6 (not accepted). -/
theorem witness_AssertAck :
    ((holding [0xD5, 0x33]).seq = .idle ∧ Result.notFound ≠ .success) ∧
    ((holding [0xD5, 0x33]).rxlen.toNat = 2 ∧ (holding [0xD5, 0x33]).rxByte 0 = 0xD5 ∧
      (holding [0xD5, 0x33]).rxByte 1 = 0x33) ∧
    ¬((holding [0xD5, 0x32]).rxlen.toNat = 2 ∧ (holding [0xD5, 0x32]).rxByte 0 = 0xD5 ∧
      (holding [0xD5, 0x32]).rxByte 1 = 0x33) ∧
    ¬((holding [0xD5]).rxlen.toNat = 2 ∧ (holding [0xD5]).rxByte 0 = 0xD5 ∧ (holding [0xD5]).rxByte 1 = 0x33) :=
  ⟨by decide, by decide, by decide, fun h => absurd h.1 (by decide)⟩

theorem witness_SendRawIsAccepted : State.reset.seq = .idle := by decide

theorem witness_ReservedOpCode :
    ∃ rest, (offered [⟨0, 7⟩]).rst = false ∧ (offered [⟨0, 7⟩]).seq = .idle ∧ (offered [⟨0, 7⟩]).ops = ⟨0, 7⟩ :: rest :=
  ⟨[], by decide⟩

/-- The smallest reserved code, the largest, and the largest that is not reserved; bit 3 does not count. -/
theorem witness_ReservedResultCodes :
    (∃ rest, (offered [⟨2, 5⟩]).ops = ⟨2, 5⟩ :: rest ∧ 5 ≤ ((5 : BitVec 32).setWidth 3).toNat) ∧
    5 ≤ ((7 : BitVec 32).setWidth 3).toNat ∧ ((4 : BitVec 32).setWidth 3).toNat < 5 ∧
    ((8 : BitVec 32).setWidth 3).toNat < 5 :=
  ⟨⟨[], by decide⟩, by decide⟩

/-- An idle block and a busy one; a step of a busy block; TX_FLUSH and DONE, where ASSERTACK and SETTIMEOUT are refused, and
a state in which SENDRAW is refused too; an idle block with SENDRAW offered. -/
theorem witness_OperationsAreHeld :
    (State.reset.rst = false ∧ State.reset.busy = false) ∧
    (∃ t, (busyAt .rxAck 6 []).rst = false ∧ (busyAt .rxAck 6 []).busy = true ∧
      step (busyAt .rxAck 6 []) = .next t) ∧
    ((busyAt .txFlush 0 []).busy = true ∧ (busyAt .done 0 []).busy = true) ∧
    ((busyAt .canTx 6 []).busy = true ∧ (busyAt .canTx 6 []).seq ≠ .txFlush ∧ (busyAt .canTx 6 []).seq ≠ .done) ∧
    (offered [⟨1, 4⟩]).ops = ⟨1, 4⟩ :: [] :=
  ⟨by decide, ⟨_, by decide, by decide, rfl⟩, by decide, by decide, by decide⟩

/-- The command port; the three read positions, with all bytes at once and with some in HDR from earlier steps; and the
states in progress. -/
theorem witness_StepRuns :
    (∃ s : State, s.rst = false ∧ s.seq = .idle ∧ s.ops = ⟨3, 9⟩ :: [] ∧ decode (.command ⟨3, 9⟩) = .ok (.setTimeout 9)) ∧
    (∃ s : State, s.rst = false ∧ s.timeout ≠ 0 ∧ s.seq = .rxAck ∧ s.hid.cnt = 6 ∧ s.hid.cnt.toNat ≤ s.rx.length ∧
      decode (.wire .fromDevice (s.gathered ++ s.rx.take s.hid.cnt.toNat)) = .ok .ack) ∧
    (∃ s : State, s.rst = false ∧ s.timeout ≠ 0 ∧ s.seq = .rxAck ∧ s.hid.cnt = 1 ∧ s.hid.cnt.toNat ≤ s.rx.length ∧
      decode (.wire .fromDevice (s.gathered ++ s.rx.take s.hid.cnt.toNat)) = .ok .ack) ∧
    (∃ s : State, s.rst = false ∧ s.timeout ≠ 0 ∧ s.seq = .rxHdr ∧ s.hid.cnt = 5 ∧ s.hid.cnt.toNat ≤ s.rx.length ∧
      decode (.wire .fromDevice (s.gathered ++ s.rx.take s.hid.cnt.toNat)) = .ok (.dataShort 0x02 0xFE)) ∧
    (∃ s : State, s.rst = false ∧ s.timeout ≠ 0 ∧ s.seq = .rxHdr ∧ s.hid.cnt = 2 ∧ s.hid.cnt.toNat ≤ s.rx.length ∧
      decode (.wire .fromDevice (s.gathered ++ s.rx.take s.hid.cnt.toNat)) = .ok (.dataShort 0x02 0xFE)) ∧
    (∃ s : State, s.rst = false ∧ s.timeout ≠ 0 ∧ s.seq = .rxExt ∧ s.hid.cnt = 3 ∧ s.hid.cnt.toNat ≤ s.rx.length ∧
      decode (.wire .fromDevice (s.hid.hdr.bytes.take 5 ++ s.gathered ++ s.rx.take s.hid.cnt.toNat)) =
        .ok (.dataExt 0x01 0x09 0xF6)) ∧
    (∃ s : State, s.rst = false ∧ s.timeout ≠ 0 ∧ s.seq = .rxExt ∧ s.hid.cnt = 1 ∧ s.hid.cnt.toNat ≤ s.rx.length ∧
      decode (.wire .fromDevice (s.hid.hdr.bytes.take 5 ++ s.gathered ++ s.rx.take s.hid.cnt.toNat)) =
        .ok (.dataExt 0x01 0x09 0xF6)) ∧
    (∃ s : State, s.rst = false ∧ s.seq ∈ [.txHeader, .txPayload, .txTrailer]) ∧
    (∃ s : State, s.rst = false ∧ s.seq ∈ [.rxCheck, .rxPayload, .rxTrailer]) ∧
    (∃ s : State, s.rst = false ∧ s.seq ∈ [.canTx, .canSleep, .canFlush]) ∧
    (∃ s : State, s.rst = false ∧ s.seq ∈ [.txFlush, .done]) :=
  ⟨⟨offered [⟨3, 9⟩], by decide⟩,
    ⟨busyAt .rxAck 6 [0x00, 0x00, 0xFF, 0x00, 0xFF, 0x00], by decide⟩,
    ⟨partlyAt .rxAck 1 ⟨0x00, 0x00, 0xFF, 0x00, 0xFF, 0x77, 0, 0⟩ [0x00], by decide⟩,
    ⟨busyAt .rxHdr 5 [0x00, 0x00, 0xFF, 0x02, 0xFE], by decide⟩,
    ⟨partlyAt .rxHdr 2 ⟨0x00, 0x00, 0xFF, 0x77, 0x77, 0, 0, 0⟩ [0x02, 0xFE], by decide⟩,
    ⟨partlyAt .rxExt 3 ⟨0x00, 0x00, 0xFF, 0xFF, 0xFF, 0, 0, 0⟩ [0x01, 0x09, 0xF6], by decide⟩,
    ⟨partlyAt .rxExt 1 ⟨0x00, 0x00, 0xFF, 0xFF, 0xFF, 0x01, 0x09, 0⟩ [0xF6], by decide⟩,
    ⟨busyAt .txTrailer 2 [], by decide⟩, ⟨busyAt .rxCheck 0 [], by decide⟩, ⟨busyAt .canSleep 0 [], by decide⟩,
    ⟨busyAt .done 0 [], by decide⟩⟩

theorem witness_Flush :
    ((busyAt .txFlush 0 []).seq = .txFlush ∧ (busyAt .txFlush 0 []).flushDone = true) ∧
    ((busyAt .canFlush 0 []).seq = .canFlush ∧ (busyAt .canFlush 0 []).flushDone = true) ∧
    (∃ t, step (busyAt .txFlush 0 []) = .next t ∧ t.trace = .flush :: (busyAt .txFlush 0 []).trace) :=
  ⟨by decide, by decide, _, rfl, by decide⟩

/-- A short header and an extended one with room for all of it (no limit; exactly enough; the last byte), and with room for
four of five and for one of three bytes still due. -/
theorem witness_HeaderBytes :
    (∃ s : State, s.seq = .txHeader ∧ s.hid.cnt.toNat ≤ 5 ∧ s.txRoom = none ∧ s.hid.tlen = 0) ∧
    (∃ s : State, s.seq = .txHeader ∧ s.hid.cnt.toNat ≤ 8 ∧ s.txRoom = none ∧ s.hid.tlen = 256) ∧
    (∃ s : State, s.seq = .txHeader ∧ s.hid.cnt = 5 ∧ ∀ r, s.txRoom = some r → s.hid.cnt.toNat ≤ r ∧ r = 5) ∧
    (∃ s : State, s.seq = .txHeader ∧ s.hid.cnt = 1 ∧ ∀ r, s.txRoom = some r → s.hid.cnt.toNat ≤ r) ∧
    (∃ s : State, s.seq = .txHeader ∧ s.hid.cnt = 5 ∧ s.txRoom = some 4 ∧ 4 < s.hid.cnt.toNat) ∧
    (∃ s : State, s.seq = .txHeader ∧ s.hid.cnt = 3 ∧ s.txRoom = some 1 ∧ 1 < s.hid.cnt.toNat) :=
  ⟨⟨sendingAt .txHeader 5 0 [], by decide⟩, ⟨sendingAt .txHeader 8 256 [], by decide⟩,
    ⟨roomAt .txHeader 5 [] 5, rfl, rfl, fun r h => by cases h; decide⟩,
    ⟨roomAt .txHeader 1 [] 9, rfl, rfl, fun r h => by cases h; decide⟩,
    ⟨roomAt .txHeader 5 [] 4, by decide⟩, ⟨roomAt .txHeader 3 [] 1, by decide⟩⟩

/-- Exactly the bytes due, one more on the stream, room for exactly the bytes due; then one of two bytes offered, and room
for two of three bytes offered and due. -/
theorem witness_PayloadBytes :
    (∃ s : State, s.seq = .txPayload ∧ s.txRoom = none ∧ s.hid.cnt.toNat ≤ s.pl.length ∧ s.pl.length = 2) ∧
    (∃ s : State, s.seq = .txPayload ∧ s.txRoom = none ∧ s.hid.cnt.toNat ≤ s.pl.length ∧ s.pl.length = 3) ∧
    (∃ s : State, s.seq = .txPayload ∧ s.hid.cnt.toNat ≤ s.pl.length ∧ s.txRoom = some 2 ∧
      ∀ r, s.txRoom = some r → s.hid.cnt.toNat ≤ r) ∧
    (∃ s : State, s.seq = .txPayload ∧ 1 < s.hid.cnt.toNat ∧ 1 ≤ s.pl.length ∧ s.txRoom = none ∧ 1 = s.pl.length) ∧
    (∃ s : State, s.seq = .txPayload ∧ 2 < s.hid.cnt.toNat ∧ 2 ≤ s.pl.length ∧ (∀ r, s.txRoom = some r → 2 ≤ r) ∧
      s.txRoom = some 2) :=
  ⟨⟨sendingAt .txPayload 2 2 [0xD4, 0x18], by decide⟩, ⟨sendingAt .txPayload 2 2 [0xD4, 0x18, 0x01], by decide⟩,
    ⟨roomAt .txPayload 2 [0xD4, 0x18] 2, rfl, by decide, rfl, fun r h => by cases h; decide⟩,
    ⟨sendingAt .txPayload 2 2 [0xD4], by decide⟩,
    ⟨roomAt .txPayload 3 [0xD4, 0x18, 0x01] 2, rfl, by decide, by decide, fun r h => by cases h; decide, rfl⟩⟩

/-- Both bytes with no limit, the second alone with room for it, and room for one of two. -/
theorem witness_TrailerBytes :
    (∃ s : State, s.seq = .txTrailer ∧ s.hid.cnt.toNat ≤ 2 ∧ s.hid.cnt = 2 ∧ s.txRoom = none) ∧
    (∃ s : State, s.seq = .txTrailer ∧ s.hid.cnt = 1 ∧ ∀ r, s.txRoom = some r → s.hid.cnt.toNat ≤ r ∧ r = 1) ∧
    (∃ s : State, s.seq = .txTrailer ∧ s.hid.cnt = 2 ∧ s.txRoom = some 1 ∧ 1 < s.hid.cnt.toNat) :=
  ⟨⟨sendingAt .txTrailer 2 0 [], by decide⟩, ⟨roomAt .txTrailer 1 [] 1, rfl, rfl, fun r h => by cases h; decide⟩,
    ⟨roomAt .txTrailer 2 [] 1, by decide⟩⟩

/-- An empty payload, and one of three bytes with more on the stream behind it. -/
theorem witness_EncodeWritesTheFrame :
    (∃ s : State, s.rst = false ∧ s.txRoom = none ∧ s.seq = .txHeader ∧ s.hid.tlen.toNat = ([] : List Byte).length ∧
      s.hid.tsum = 0 ∧ s.hid.cnt.toNat = (txHeader s.hid.tlen).length ∧ s.pl = [] ++ [0x99]) ∧
    (∃ s : State, s.rst = false ∧ s.txRoom = none ∧ s.seq = .txHeader ∧
      s.hid.tlen.toNat = [(0xD4 : Byte), 0x18, 0x01].length ∧ s.hid.tsum = 0 ∧
      s.hid.cnt.toNat = (txHeader s.hid.tlen).length ∧ s.pl = [0xD4, 0x18, 0x01] ++ [0x99]) :=
  ⟨⟨sendingAt .txHeader 5 0 [0x99], by decide⟩, ⟨sendingAt .txHeader 5 3 [0xD4, 0x18, 0x01, 0x99], by decide⟩⟩

/-- The ACK frame at once, its last byte after five from earlier steps, another six bytes; a short read with nothing (X2),
and with five of six bytes in all. -/
theorem witness_AckPosition :
    (∃ s : State, s.rst = false ∧ s.seq = .rxAck ∧ s.hid.cnt = 6 ∧ s.timeout ≠ 0 ∧ s.hid.cnt.toNat ≤ s.rx.length ∧
      s.gathered ++ s.rx.take s.hid.cnt.toNat = [0x00, 0x00, 0xFF, 0x00, 0xFF, 0x00]) ∧
    (∃ s : State, s.rst = false ∧ s.seq = .rxAck ∧ s.hid.cnt = 1 ∧ s.timeout ≠ 0 ∧ s.hid.cnt.toNat ≤ s.rx.length ∧
      s.gathered ++ s.rx.take s.hid.cnt.toNat = [0x00, 0x00, 0xFF, 0x00, 0xFF, 0x00]) ∧
    (∃ s : State, s.rst = false ∧ s.seq = .rxAck ∧ s.hid.cnt = 6 ∧ s.timeout ≠ 0 ∧ s.hid.cnt.toNat ≤ s.rx.length ∧
      s.gathered ++ s.rx.take s.hid.cnt.toNat ≠ [0x00, 0x00, 0xFF, 0x00, 0xFF, 0x00]) ∧
    (∃ s : State, s.rst = false ∧ s.seq = .rxAck ∧ s.hid.cnt.toNat ≤ 6 ∧ s.timeout ≠ 0 ∧
      s.rx.length < s.hid.cnt.toNat ∧ s.elapsedReached s.timeout = true ∧ s.rx = []) ∧
    (∃ s : State, s.rst = false ∧ s.seq = .rxAck ∧ s.hid.cnt.toNat ≤ 6 ∧ s.timeout ≠ 0 ∧
      s.rx.length < s.hid.cnt.toNat ∧ s.elapsedReached s.timeout = true ∧ s.hid.cnt = 2 ∧ s.rx.length = 1) :=
  ⟨⟨busyAt .rxAck 6 [0x00, 0x00, 0xFF, 0x00, 0xFF, 0x00], by decide⟩,
    ⟨partlyAt .rxAck 1 ⟨0x00, 0x00, 0xFF, 0x00, 0xFF, 0x77, 0, 0⟩ [0x00], by decide⟩,
    ⟨busyAt .rxAck 6 [0x00, 0x00, 0xFF, 0x02, 0xFE, 0xD5], by decide⟩, ⟨lateAt .rxAck 6 [], by decide⟩,
    ⟨lateAt .rxAck 2 [0x00], by decide⟩⟩

/-- X8 (wrong preamble), X12 (marker, its second byte after four from earlier steps), X9 and X21 (short form; FF 01 is no
marker); a short read (X7). -/
theorem witness_HeaderPosition :
    (∃ s : State, s.rst = false ∧ s.seq = .rxHdr ∧ s.hid.cnt = 5 ∧ s.timeout ≠ 0 ∧ s.hid.cnt.toNat ≤ s.rx.length ∧
      s.gathered ++ s.rx.take s.hid.cnt.toNat = [0x00, 0xFF, 0x00, 0x02, 0xFE]) ∧
    (∃ s : State, s.rst = false ∧ s.seq = .rxHdr ∧ s.hid.cnt = 1 ∧ s.timeout ≠ 0 ∧ s.hid.cnt.toNat ≤ s.rx.length ∧
      s.gathered ++ s.rx.take s.hid.cnt.toNat = [0x00, 0x00, 0xFF, 0xFF, 0xFF]) ∧
    (∃ s : State, s.rst = false ∧ s.seq = .rxHdr ∧ s.hid.cnt = 5 ∧ s.timeout ≠ 0 ∧ s.hid.cnt.toNat ≤ s.rx.length ∧
      s.gathered ++ s.rx.take s.hid.cnt.toNat = [0x00, 0x00, 0xFF, 0xFF, 0x01] ∧
      ¬((0xFF : Byte) = 0xFF ∧ (0x01 : Byte) = 0xFF)) ∧
    (∃ s : State, s.rst = false ∧ s.seq = .rxHdr ∧ s.hid.cnt.toNat ≤ 5 ∧ s.timeout ≠ 0 ∧
      s.rx.length < s.hid.cnt.toNat ∧ s.elapsedReached s.timeout = true ∧ s.rx.length = 4) :=
  ⟨⟨busyAt .rxHdr 5 [0x00, 0xFF, 0x00, 0x02, 0xFE], by decide⟩,
    ⟨partlyAt .rxHdr 1 ⟨0x00, 0x00, 0xFF, 0xFF, 0x00, 0, 0, 0⟩ [0xFF], by decide⟩,
    ⟨busyAt .rxHdr 5 [0x00, 0x00, 0xFF, 0xFF, 0x01], by decide⟩,
    ⟨lateAt .rxHdr 5 [0x00, 0x00, 0xFF, 0x02], by decide⟩⟩

/-- X13 at once, X13 with two of its bytes from earlier steps, and the short read of X10. -/
theorem witness_ExtendedLengthPosition :
    (∃ s : State, s.rst = false ∧ s.seq = .rxExt ∧ s.hid.cnt = 3 ∧ s.timeout ≠ 0 ∧
      s.hid.hdr.bytes.take 5 = [0x00, 0x00, 0xFF, 0xFF, 0xFF] ∧ s.hid.cnt.toNat ≤ s.rx.length ∧
      s.gathered ++ s.rx.take s.hid.cnt.toNat = [0x01, 0x09, 0xF6]) ∧
    (∃ s : State, s.rst = false ∧ s.seq = .rxExt ∧ s.hid.cnt = 1 ∧ s.timeout ≠ 0 ∧
      s.hid.hdr.bytes.take 5 = [0x00, 0x00, 0xFF, 0xFF, 0xFF] ∧ s.hid.cnt.toNat ≤ s.rx.length ∧
      s.gathered ++ s.rx.take s.hid.cnt.toNat = [0x01, 0x09, 0xF6]) ∧
    (∃ s : State, s.rst = false ∧ s.seq = .rxExt ∧ s.hid.cnt.toNat ≤ 3 ∧ s.timeout ≠ 0 ∧
      s.rx.length < s.hid.cnt.toNat ∧ s.elapsedReached s.timeout = true ∧ s.rx.length = 2) :=
  ⟨⟨partlyAt .rxExt 3 ⟨0x00, 0x00, 0xFF, 0xFF, 0xFF, 0, 0, 0⟩ [0x01, 0x09, 0xF6], by decide⟩,
    ⟨partlyAt .rxExt 1 ⟨0x00, 0x00, 0xFF, 0xFF, 0xFF, 0x01, 0x09, 0⟩ [0xF6], by decide⟩,
    ⟨lateAt .rxExt 3 [0x01, 0x09], by decide⟩⟩

/-- A request that has expired at each read position, and one that waits. -/
theorem witness_ExpiredReads :
    (∃ u, (lateAt .rxAck 6 []).rst = false ∧ (lateAt .rxAck 6 []).nextCycle.readRequest = .expired u) ∧
    (∃ u, (lateAt .rxHdr 5 [0x00]).nextCycle.readRequest = .expired u) ∧
    (∃ u, (lateAt .rxExt 3 []).nextCycle.readRequest = .expired u) ∧
    (∃ u, ({ payloadAt 265 [] with now := 1000 } : State).nextCycle.readRequest = .expired u) ∧
    (∃ u, (lateAt .rxTrailer 2 [0xF8]).nextCycle.readRequest = .expired u) ∧
    (∃ u, (busyAt .rxTrailer 2 [0xF8]).nextCycle.readRequest = .waiting u) :=
  ⟨⟨_, rfl, rfl⟩, ⟨_, rfl⟩, ⟨_, rfl⟩, ⟨_, rfl⟩, ⟨_, rfl⟩, ⟨_, rfl⟩⟩

/-- The clause on the event of an expired request: at the ACK position with two bytes of an earlier step and one now, and
in a payload read of the longest response with nothing received. -/
theorem witness_ExpiredReads_event :
    (∃ s u : State, s.rst = false ∧ s.seq = .rxAck ∧ s.hid.cnt.toNat ≤ s.readCount ∧ s.rx.length = 1 ∧ s.hid.cnt = 4 ∧
      s.nextCycle.readRequest = .expired u) ∧
    (∃ s u : State, s.rst = false ∧ s.seq = .rxPayload ∧ s.hid.cnt.toNat ≤ s.readCount ∧ s.hid.dlen.toNat = 265 ∧
      s.nextCycle.readRequest = .expired u) :=
  ⟨⟨{ partlyAt .rxAck 4 ⟨0x00, 0x00, 0x77, 0, 0, 0, 0, 0⟩ [0xFF] with now := 1000 }, _, rfl, rfl, by decide, rfl, rfl, rfl⟩,
    ⟨{ payloadAt 265 [] with now := 1000 }, _, rfl, rfl, by decide, rfl, rfl⟩⟩

theorem witness_ReadFramesGoOn :
    (busyAt .rxAck 0 []).seq = .rxAck ∧ (busyAt .rxHdr 0 []).seq = .rxHdr ∧ (busyAt .rxExt 0 []).seq = .rxExt := by
  decide

/-- X9 (`02 FD`) and X11 (`01 0A F4`). -/
theorem witness_LengthChecksumFailure :
    (busyAt .rxCheck 0 []).seq = .rxCheck ∧ ((0x02 : Byte).toNat + (0xFD : Byte).toNat) % 256 ≠ 0 ∧
    ((0x01 : Byte).toNat + (0x0A : Byte).toNat + (0xF4 : Byte).toNat) % 256 ≠ 0 := by decide

/-- Lengths 266 (good LCS and bad, X11), 265 and 1 in the extended form, 255 and 1 in the short form. -/
theorem witness_LengthLimit :
    (busyAt .rxCheck 0 []).seq = .rxCheck ∧
    (((0x01 : Byte).toNat + (0x0A : Byte).toNat + (0xF5 : Byte).toNat) % 256 = 0 ∧
      265 < 256 * (0x01 : Byte).toNat + (0x0A : Byte).toNat) ∧
    ((0x01 : Byte).toNat + (0x0A : Byte).toNat + (0xF4 : Byte).toNat) % 256 ≠ 0 ∧
    (((0x01 : Byte).toNat + (0x09 : Byte).toNat + (0xF6 : Byte).toNat) % 256 = 0 ∧
      256 * (0x01 : Byte).toNat + (0x09 : Byte).toNat ≤ 265 ∧ 0 < 256 * (0x01 : Byte).toNat + (0x09 : Byte).toNat) ∧
    (((0x00 : Byte).toNat + (0x01 : Byte).toNat + (0xFF : Byte).toNat) % 256 = 0 ∧
      256 * (0x00 : Byte).toNat + (0x01 : Byte).toNat ≤ 265 ∧ 0 < 256 * (0x00 : Byte).toNat + (0x01 : Byte).toNat) ∧
    (((0xFF : Byte).toNat + (0x01 : Byte).toNat) % 256 = 0 ∧ (0xFF : Byte) ≠ 0) ∧
    (((0x01 : Byte).toNat + (0xFF : Byte).toNat) % 256 = 0 ∧ (0x01 : Byte) ≠ 0) := by decide

/-- The largest payload, 265 bytes, one byte, and the last of four bytes; a short read with nothing, and with one byte
missing. -/
theorem witness_PayloadIsStored :
    (∃ s : State, s.seq = .rxPayload ∧ s.timeout ≠ 0 ∧ s.hid.cnt ≠ 0 ∧ s.hid.dlen.toNat = 265 ∧
      s.hid.cnt = s.hid.dlen ∧ s.hid.cnt.toNat ≤ s.rx.length) ∧
    (∃ s : State, s.seq = .rxPayload ∧ s.timeout ≠ 0 ∧ s.hid.cnt ≠ 0 ∧ s.hid.dlen.toNat = 1 ∧
      s.hid.cnt = s.hid.dlen ∧ s.hid.cnt.toNat ≤ s.rx.length) ∧
    (∃ s : State, s.seq = .rxPayload ∧ s.timeout ≠ 0 ∧ s.hid.cnt ≠ 0 ∧ s.hid.dlen = 4 ∧ s.hid.cnt = 1 ∧
      s.hid.cnt.toNat ≤ s.rx.length) ∧
    (∃ s : State, s.seq = .rxPayload ∧ s.timeout ≠ 0 ∧ s.hid.dlen.toNat ≤ 265 ∧ s.hid.cnt.toNat ≤ s.hid.dlen.toNat ∧
      s.rx.length < s.hid.cnt.toNat ∧ s.elapsedReached s.timeout = true ∧ s.rx = []) ∧
    (∃ s : State, s.seq = .rxPayload ∧ s.timeout ≠ 0 ∧ s.hid.dlen.toNat ≤ 265 ∧ s.hid.cnt.toNat ≤ s.hid.dlen.toNat ∧
      s.rx.length < s.hid.cnt.toNat ∧ s.elapsedReached s.timeout = true ∧ s.rx.length = 3) :=
  ⟨⟨payloadAt 265 (List.replicate 265 0x03), rfl, by decide, by decide, by decide, by decide, by
      show 265 ≤ (List.replicate 265 (0x03 : Byte)).length
      rw [sized]⟩,
    ⟨payloadAt 1 [0x03], by decide⟩,
    ⟨{ payloadAt 4 [0x04] with hid := { Hidden.reset with cnt := 1, dlen := 4 } }, by decide⟩,
    ⟨{ payloadAt 4 [] with now := 1000 }, by decide⟩,
    ⟨{ payloadAt 4 [0x01, 0x02, 0x03] with now := 1000 }, by decide⟩⟩

/-- X1 (both good), the same with the DCS from an earlier step, X18 (DCS), X19 (trailing byte), X17 (one of two bytes
arrives). -/
theorem witness_TrailerIsVerified :
    (∃ s : State, s.seq = .rxTrailer ∧ s.timeout ≠ 0 ∧ s.hid.cnt = 2 ∧ s.hid.cnt.toNat ≤ s.rx.length ∧
      s.gathered ++ s.rx.take s.hid.cnt.toNat = [0xF8, 0x00] ∧ 0xF8 = neg8 s.hid.rsum) ∧
    (∃ s : State, s.seq = .rxTrailer ∧ s.timeout ≠ 0 ∧ s.hid.cnt = 1 ∧ s.hid.cnt.toNat ≤ s.rx.length ∧
      s.gathered ++ s.rx.take s.hid.cnt.toNat = [0xF8, 0x00] ∧ 0xF8 = neg8 s.hid.rsum) ∧
    (∃ s : State, s.seq = .rxTrailer ∧ s.timeout ≠ 0 ∧ s.hid.cnt = 2 ∧ s.hid.cnt.toNat ≤ s.rx.length ∧
      s.gathered ++ s.rx.take s.hid.cnt.toNat = [0xF9, 0x00] ∧ 0xF9 ≠ neg8 s.hid.rsum) ∧
    (∃ s : State, s.seq = .rxTrailer ∧ s.timeout ≠ 0 ∧ s.hid.cnt = 2 ∧ s.hid.cnt.toNat ≤ s.rx.length ∧
      s.gathered ++ s.rx.take s.hid.cnt.toNat = [0xF8, 0x01] ∧ (0x01 : Byte) ≠ 0x00) ∧
    (∃ s : State, s.seq = .rxTrailer ∧ s.timeout ≠ 0 ∧ s.hid.cnt.toNat ≤ 2 ∧ s.rx.length < s.hid.cnt.toNat ∧
      s.elapsedReached s.timeout = true ∧ s.rx.length = 1) :=
  ⟨⟨trailerAt [0xF8, 0x00], by decide⟩,
    ⟨{ trailerAt [0x00] with
        hid := { Hidden.reset with cnt := 1, dlen := 2, rsum := 0x08, hdr := ⟨0xF8, 0, 0, 0, 0, 0, 0, 0⟩ } }, by decide⟩,
    ⟨trailerAt [0xF9, 0x00], by decide⟩, ⟨trailerAt [0xF8, 0x01], by decide⟩,
    ⟨{ trailerAt [0xF8] with now := 1000 }, by decide⟩⟩

/-- A payload of two bytes, and the empty one (X20). -/
theorem witness_SuccessIsDelivered :
    (∃ s : State, s.seq = .done ∧ s.hid.pend = .success ∧ s.hid.dlen.toNat = 2 ∧
      ∀ i < 2, (Memory.read? s.rxbuf i).isSome = true) ∧
    (∃ s : State, s.seq = .done ∧ s.hid.pend = .success ∧ s.hid.dlen.toNat = 0 ∧
      ∀ i < 0, (Memory.read? s.rxbuf i).isSome = true) :=
  ⟨⟨doneAt .success, by decide⟩, ⟨busyAt .done 0 [], by decide⟩⟩

theorem witness_Failure : (doneAt .failed).seq = .done ∧ (doneAt .failed).hid.pend ≠ .success := by decide

/-- With nothing coming, and with bytes and pulses coming in. -/
theorem witness_CancelSequence :
    ((busyAt .canTx 6 []).EnvReady ∧ (busyAt .canTx 6 []).seq = .canTx ∧ (busyAt .canTx 6 []).hid.cnt = 6) ∧
    (∃ s : State, s.EnvReady ∧ s.seq = .canTx ∧ s.hid.cnt = 6 ∧ s.coming = [.byte 1, .tick, .tick, .tick]) :=
  ⟨⟨⟨rfl, rfl, rfl, rfl⟩, rfl, rfl⟩,
    ⟨{ busyAt .canTx 6 [] with coming := [.byte 1, .tick, .tick, .tick] }, ⟨rfl, rfl, rfl, rfl⟩, rfl, rfl, rfl⟩⟩

theorem witness_CancelKeeps :
    (busyAt .canTx 6 []).seq = .canTx ∧ (busyAt .canSleep 0 []).seq = .canSleep ∧
    (busyAt .canFlush 0 []).seq = .canFlush := by decide

/-- The invariant in a payload read that has stored one of two bytes, and a step from it. -/
theorem witness_Invariant :
    ∃ s t : State, s.Inv ∧ step s = .next t ∧ s.seq = .rxPayload ∧ s.hid.cnt = 1 ∧ s.hid.dlen = 2 :=
  ⟨{ State.reset with
      seq := .rxPayload, rxbuf := [(0, 0xD5)]
      hid := { Hidden.reset with cnt := 1, dlen := 2, rsum := 0xD5 } }, _,
    ⟨by decide, ⟨by decide, by decide⟩, by decide, fun i hi => by
      have : i = 0 := by simpa [Hidden.reset] using hi
      subst this
      rfl, by decide⟩, rfl, rfl, rfl, rfl⟩

/-- A step that writes TIMEOUT. -/
theorem witness_OnlySetTimeout :
    ∃ t, (offered [⟨3, 250⟩]).rst = false ∧ step (offered [⟨3, 250⟩]) = .next t ∧
      t.timeout ≠ (offered [⟨3, 250⟩]).timeout := ⟨_, by decide, rfl, by decide⟩

/-- A step that writes RXBUF (the payload read), and one that leaves IDLE. -/
theorem witness_WhoWrites :
    (∃ t, (payloadAt 1 [0xD5]).rst = false ∧ step (payloadAt 1 [0xD5]) = .next t ∧
      t.rxbuf ≠ (payloadAt 1 [0xD5]).rxbuf) ∧
    (∃ t, step (offered [⟨1, 0⟩]) = .next t ∧ t.seq = .txFlush) :=
  ⟨⟨_, by decide, rfl, by decide⟩, ⟨_, rfl, by decide⟩⟩

/-- A step that writes RXLEN: the end of a Success. -/
theorem witness_WhoWrites_length :
    ∃ t, step { doneAt .success with rxlen := 0 } = .next t ∧ t.rxlen ≠ 0 := ⟨_, rfl, by decide⟩

/-- A step that sends, a step that takes bytes, and a step that takes bytes while another arrives. -/
theorem witness_Streams :
    (∃ t, step (busyAt .canTx 6 []) = .next t ∧ t.txQueue ≠ []) ∧
    (∃ t, step (busyAt .rxAck 6 [0x00, 0x00]) = .next t ∧ t.rx = []) ∧
    (∃ t, step { busyAt .rxAck 6 [0x00, 0x00] with coming := [.byte 0xFF] } = .next t ∧ t.rx = [0xFF]) :=
  ⟨⟨_, rfl, by decide⟩, ⟨_, rfl, by decide⟩, ⟨_, rfl, by decide⟩⟩

/-- A step that delivers a Result from DONE, ASSERTACK that delivers NotFound, SETTIMEOUT that delivers Success, and a step
that delivers none. -/
theorem witness_Results :
    (∃ t, (doneAt .failed).Inv ∧ (doneAt .failed).rst = false ∧ (doneAt .failed).seq = .done ∧
      step (doneAt .failed) = .next t ∧ t.done = some .failed) ∧
    (∃ t, (offered [⟨2, 4⟩]).Inv ∧ step (offered [⟨2, 4⟩]) = .next t ∧ t.done = some .notFound) ∧
    (∃ t, step (offered [⟨3, 250⟩]) = .next t ∧ t.done = some .success) ∧
    (∃ t, step (offered [⟨1, 4⟩]) = .next t ∧ t.done = none) :=
  ⟨⟨_, ⟨by decide, .inl (.inl rfl)⟩, rfl, rfl, rfl, rfl⟩, ⟨_, ⟨by decide, trivial⟩, rfl, rfl⟩, ⟨_, rfl, rfl⟩,
    ⟨_, rfl, rfl⟩⟩

/-- A request that completes; one with bytes missing that has expired, its time just over (1000 of 1000); and one that
waits in its last millisecond (999 of 1000). -/
theorem witness_ReadRequest :
    (∃ t, (trailerAt [0xF8, 0x00]).hid.cnt ≠ 0 ∧ (trailerAt [0xF8, 0x00]).timeout ≠ 0 ∧
      (trailerAt [0xF8, 0x00]).readRequest = .complete t) ∧
    (∃ t, (lateAt .rxHdr 5 [0x00]).hid.cnt ≠ 0 ∧ (lateAt .rxHdr 5 [0x00]).readRequest = .expired t) ∧
    (∃ t, ({ busyAt .rxHdr 5 [0x00] with now := 999 } : State).hid.cnt ≠ 0 ∧
      ({ busyAt .rxHdr 5 [0x00] with now := 999 } : State).readRequest = .waiting t) :=
  ⟨⟨_, by decide, by decide, rfl⟩, ⟨_, by decide, rfl⟩, ⟨_, by decide, rfl⟩⟩

/-- Too few bytes, and just enough. -/
theorem witness_ZeroTimeout :
    (∃ s : State, s.timeout = 0 ∧ s.hid.cnt ≠ 0 ∧ s.rx.length < s.hid.cnt.toNat) ∧
    (∃ s : State, s.timeout = 0 ∧ s.hid.cnt ≠ 0 ∧ s.hid.cnt.toNat ≤ s.rx.length) :=
  ⟨⟨{ busyAt .rxTrailer 2 [0xF8] with timeout := 0 }, by decide⟩,
    ⟨{ busyAt .rxTrailer 2 [0xF8, 0x00] with timeout := 0 }, by decide⟩⟩

theorem witness_Unanswered :
    (∃ s : State, s.rst = false ∧ s.seq = .txFlush ∧ s.flushDone = false) ∧
    (∃ s : State, s.rst = false ∧ s.seq = .canSleep ∧ s.coming = [] ∧ s.clockRuns = false ∧
      (s.now - s.hid.t0).toNat = 1) ∧
    (∃ s : State, s.rst = false ∧ s.seq.writes = true ∧ s.hid.cnt ≠ 0 ∧ s.txRoom = some 0) ∧
    (∃ s : State, s.rst = false ∧ s.seq = .txPayload ∧ s.hid.cnt ≠ 0 ∧ s.pl = []) :=
  ⟨⟨{ busyAt .txFlush 0 [] with flushDone := false }, by decide⟩,
    ⟨{ busyAt .canSleep 0 [] with clockRuns := false, now := 1 }, by decide⟩,
    ⟨{ busyAt .txHeader 5 [] with txRoom := some 0 }, by decide⟩, ⟨sendingAt .txPayload 2 2 [], by decide⟩⟩

theorem witness_Ports :
    (State.reset.busy = false ∧ (264 : BitVec 9).toNat < 265) ∧
    (∃ s : State, s.rst = false ∧ s.hid.cnt ≠ 0 ∧ s.seq ∈ [.rxAck, .rxHdr, .rxExt, .rxPayload, .rxTrailer] ∧
      s.timeout ≠ 0) := ⟨by decide, busyAt .rxTrailer 2 [], by decide⟩

/-- R36: a payload byte is offered and the transport has no room: pl_ready is 0; with room for one byte it is 1. -/
theorem test_plReady_needs_room :
    (roomAt .txPayload 2 [0xD4, 0x18] 0).plValid = true ∧ (roomAt .txPayload 2 [0xD4, 0x18] 0).plReady = false ∧
    (roomAt .txPayload 2 [0xD4, 0x18] 1).plReady = true := by decide

/-- R36: with room for one byte, one payload byte is taken. -/
theorem test_payload_with_little_room :
    (nextOf (step (roomAt .txPayload 2 [0xD4, 0x18] 1))).map (fun t => (t.seq, t.pl, t.txQueue, t.hid.cnt)) =
    some (.txPayload, [0x18], [0xD4], 1) := by decide

/-- The ACK frame in two parts: the first is kept while the block waits. -/
theorem test_ack_in_parts :
    (nextOf (step { busyAt .rxAck 6 [0x00, 0x00, 0xFF, 0x00] with coming := [.byte 0xFF, .byte 0x00] })).map
      (fun t => (t.seq, t.gathered, t.rx, t.hid.cnt)) =
    some (.rxAck, [0x00, 0x00, 0xFF, 0x00], [0xFF], 2) := by decide

/-- The six bytes at once, the last of them, room for five of six and for one of two; the sleep after two pulses. -/
theorem witness_CancelPartsGoOn :
    (∃ s : State, s.seq = .canTx ∧ s.hid.cnt = 6 ∧ s.txRoom = none) ∧
    (∃ s : State, s.seq = .canTx ∧ s.hid.cnt = 1 ∧ ∀ r, s.txRoom = some r → s.hid.cnt.toNat ≤ r ∧ r = 1) ∧
    (∃ s : State, s.seq = .canTx ∧ s.hid.cnt = 6 ∧ s.txRoom = some 5 ∧ 5 < s.hid.cnt.toNat) ∧
    (∃ s : State, s.seq = .canTx ∧ s.hid.cnt = 2 ∧ s.txRoom = some 1 ∧ 1 < s.hid.cnt.toNat) ∧
    (∃ s : State, s.seq = .canSleep ∧ (s.now - s.hid.t0).toNat = 2) ∧
    (∃ s : State, s.seq = .canSleep ∧ (s.now - s.hid.t0).toNat = 1 ∧ s.coming = [] ∧ s.clockRuns = true) ∧
    (∃ s : State, s.seq = .canSleep ∧ (s.now - s.hid.t0).toNat = 0 ∧ s.coming = .byte 0x11 :: [.tick]) ∧
    (∃ s : State, s.seq = .canSleep ∧ (s.now - s.hid.t0).toNat = 1 ∧ s.coming = .tick :: [] ∧ s.clockRuns = false) :=
  ⟨⟨busyAt .canTx 6 [], by decide⟩, ⟨roomAt .canTx 1 [] 1, rfl, rfl, fun r h => by cases h; decide⟩,
    ⟨roomAt .canTx 6 [] 5, by decide⟩, ⟨roomAt .canTx 2 [] 1, by decide⟩,
    ⟨{ busyAt .canSleep 0 [] with now := 2 }, by decide⟩, ⟨{ busyAt .canSleep 0 [] with now := 1 }, by decide⟩,
    ⟨{ busyAt .canSleep 0 [] with coming := [.byte 0x11, .tick] }, by decide⟩,
    ⟨{ busyAt .canSleep 0 [] with now := 1, coming := [.tick], clockRuns := false }, by decide⟩⟩

/-- R224, D25: after one pulse the sleep goes on, with its second pulse arriving in this step. -/
theorem test_sleep_needs_two_pulses :
    (nextOf (exec .cancel { busyAt .canSleep 0 [] with now := 1, coming := [.tick] })).map
      (fun t => (t.seq, t.now, t.trace)) = some (.canSleep, 2, []) := by decide

/-- A waiting request with nothing to come, with a byte, with a pulse; at the ACK position with two bytes kept, and in a
payload read of 265 bytes; in the last millisecond. -/
theorem witness_ReadsWait :
    (∃ s : State, s.rst = false ∧ s.seq = .rxAck ∧ s.hid.cnt.toNat ≤ s.readCount ∧ s.timeout ≠ 0 ∧
      s.rx.length < s.hid.cnt.toNat ∧ (s.now - s.hid.t0).toNat < s.timeout.toNat ∧ s.gathered = [0x00, 0x00] ∧
      s.coming = []) ∧
    (∃ s : State, s.rst = false ∧ s.seq = .rxPayload ∧ s.hid.cnt.toNat ≤ s.readCount ∧ s.hid.dlen.toNat = 265 ∧
      s.timeout ≠ 0 ∧ s.rx.length < s.hid.cnt.toNat ∧ (s.now - s.hid.t0).toNat < s.timeout.toNat ∧
      s.coming = .byte 0x11 :: [.tick]) ∧
    (∃ s : State, s.rst = false ∧ s.seq = .rxTrailer ∧ s.hid.cnt.toNat ≤ s.readCount ∧ s.timeout ≠ 0 ∧
      s.rx.length < s.hid.cnt.toNat ∧ (s.now - s.hid.t0).toNat + 1 = s.timeout.toNat ∧ s.coming = .tick :: []) :=
  ⟨⟨partlyAt .rxAck 4 ⟨0x00, 0x00, 0x77, 0, 0, 0, 0, 0⟩ [0xFF], by decide⟩,
    ⟨{ payloadAt 265 [0x10] with coming := [.byte 0x11, .tick] }, by decide⟩,
    ⟨{ busyAt .rxTrailer 2 [0xF8] with now := 999, coming := [.tick] }, by decide⟩⟩

/-- A request that completes, in each reading state and for each outcome of its check: an ACK frame in two parts and six
other bytes; a wrong preamble, the marker, a short header; three length bytes; a payload of two bytes in two parts; a good
and a wrong trailer. -/
theorem witness_CompleteReads :
    (∃ s u : State, s.rst = false ∧ s.seq = .rxAck ∧ s.hid.cnt ≠ 0 ∧ s.hid.cnt.toNat ≤ s.readCount ∧
      s.nextCycle.readRequest = .complete u ∧ s.gathered = [0x00, 0x00] ∧
      s.gathered ++ s.rx.take s.hid.cnt.toNat = [0x00, 0x00, 0xFF, 0x00, 0xFF, 0x00]) ∧
    (∃ s u : State, s.rst = false ∧ s.seq = .rxAck ∧ s.hid.cnt ≠ 0 ∧ s.hid.cnt.toNat ≤ s.readCount ∧
      s.nextCycle.readRequest = .complete u ∧
      s.gathered ++ s.rx.take s.hid.cnt.toNat ≠ [0x00, 0x00, 0xFF, 0x00, 0xFF, 0x00]) ∧
    (∀ h ∈ [[0x00, 0x01, 0xFF, 0x02, 0xFE], [0x00, 0x00, 0xFF, 0xFF, 0xFF], [0x00, 0x00, 0xFF, 0x02, 0xFE]],
      ∃ u, (busyAt .rxHdr 5 h).nextCycle.readRequest = .complete u ∧
        (busyAt .rxHdr 5 h).gathered ++ (busyAt .rxHdr 5 h).rx.take 5 = h) ∧
    (∃ s u : State, s.rst = false ∧ s.seq = .rxExt ∧ s.hid.cnt ≠ 0 ∧ s.hid.cnt.toNat ≤ s.readCount ∧
      s.nextCycle.readRequest = .complete u ∧ s.hid.hdr.bytes.take 5 = [0x00, 0x00, 0xFF, 0xFF, 0xFF] ∧
      s.gathered ++ s.rx.take s.hid.cnt.toNat = [0x01, 0x09, 0xF6]) ∧
    (∃ s u : State, s.rst = false ∧ s.seq = .rxPayload ∧ s.hid.cnt = 1 ∧ s.hid.cnt.toNat ≤ s.readCount ∧
      s.nextCycle.readRequest = .complete u ∧ s.hid.dlen.toNat = 2) ∧
    (∀ t ∈ [[0xF8, 0x00], [0xF8, 0x01], [0xF9, 0x00]],
      ∃ u, (trailerAt t).nextCycle.readRequest = .complete u ∧ (trailerAt t).gathered ++ (trailerAt t).rx.take 2 = t) := by
  refine ⟨⟨partlyAt .rxAck 4 ⟨0x00, 0x00, 0x77, 0, 0, 0, 0, 0⟩ [0xFF, 0x00, 0xFF, 0x00], _, rfl, rfl, by decide, by decide,
      rfl, by decide, by decide⟩,
    ⟨busyAt .rxAck 6 [0x00, 0x00, 0xFF, 0x00, 0xFF, 0x01], _, rfl, rfl, by decide, by decide, rfl, by decide⟩, ?_,
    ⟨partlyAt .rxExt 3 ⟨0x00, 0x00, 0xFF, 0xFF, 0xFF, 0, 0, 0⟩ [0x01, 0x09, 0xF6], _, rfl, rfl, by decide, by decide, rfl,
      by decide, by decide⟩,
    ⟨{ payloadAt 2 [0x33] with
        rxbuf := [(0, 0xD5)], hid := { Hidden.reset with cnt := 1, dlen := 2, rsum := 0xD5 } }, _,
      rfl, rfl, rfl, by decide, rfl, rfl⟩, ?_⟩
  · simp only [List.forall_mem_cons]
    exact ⟨⟨_, rfl, by decide⟩, ⟨_, rfl, by decide⟩, ⟨_, rfl, by decide⟩, by simp⟩
  · simp only [List.forall_mem_cons]
    exact ⟨⟨_, rfl, by decide⟩, ⟨_, rfl, by decide⟩, ⟨_, rfl, by decide⟩, by simp⟩

/-- Steps with a transfer of an operation, of a payload byte, of a flush. -/
theorem witness_PortTransfers :
    (∃ t, (offered [⟨1, 4⟩, ⟨3, 0⟩]).opValid = true ∧ (offered [⟨1, 4⟩, ⟨3, 0⟩]).opReady = true ∧
      step (offered [⟨1, 4⟩, ⟨3, 0⟩]) = .next t) ∧
    (∃ t, step (roomAt .txPayload 2 [0xD4] 1) = .next t ∧ (roomAt .txPayload 2 [0xD4] 1).plReady = true) ∧
    (∃ t, step (busyAt .canFlush 0 []) = .next t ∧ (busyAt .canFlush 0 []).flushReq = true ∧
      (busyAt .canFlush 0 []).flushDone = true) ∧
    (∃ t, step (busyAt .rxAck 6 []) = .next t ∧ ¬((busyAt .rxAck 6 []).opValid = true ∧ (busyAt .rxAck 6 []).opReady = true)) :=
  ⟨⟨_, by decide, by decide, rfl⟩, ⟨_, rfl, by decide⟩, ⟨_, rfl, by decide, by decide⟩, ⟨_, rfl, by decide⟩⟩

/-- Rows 1 to 5 of R146 at the largest short read; a mismatch in the last byte; a wrong preamble (X8). -/
theorem witness_FailureTable_reads :
    [(0x00 : Byte), 0x00, 0xFF, 0x00, 0xFF].length < 6 ∧
    ([(0x00 : Byte), 0x00, 0xFF, 0x00, 0xFF, 0x01].length = 6 ∧ [0x00, 0x00, 0xFF, 0x00, 0xFF, 0x01] ≠ fixedFrame) ∧
    [(0x00 : Byte), 0x00, 0xFF, 0x02].length < 5 ∧ ¬((0x00 : Byte) = 0x00 ∧ (0xFF : Byte) = 0x00 ∧ (0x00 : Byte) = 0xFF) ∧
    [(0x01 : Byte), 0x0A].length < 3 := by decide

/-- Rows 6 to 8: X11, X9, and the lengths 266 and 65535. -/
theorem witness_FailureTable_lengths :
    ((0x01 : Byte).toNat + (0x0A : Byte).toNat + (0xF4 : Byte).toNat) % 256 ≠ 0 ∧
    (¬((0x02 : Byte) = 0xFF ∧ (0xFD : Byte) = 0xFF) ∧ ((0x02 : Byte).toNat + (0xFD : Byte).toNat) % 256 ≠ 0) ∧
    isHeader 266 [0x00, 0x00, 0xFF, 0xFF, 0xFF, 0x01, 0x0A, 0xF5] ∧
    isHeader 65535 [0x00, 0x00, 0xFF, 0xFF, 0xFF, 0xFF, 0xFF, 0x02] :=
  ⟨by decide, by decide, .inr ⟨0x01, 0x0A, 0xF5, by decide⟩, .inr ⟨0xFF, 0xFF, 0x02, by decide⟩⟩

/-- Rows 9 to 11 and the row without failure: headers of length 0, 2 (X1) and 265 (X13), and the extended header of length
5 (X15); 264 of 265 bytes, one trailer byte, X18 and X19; the largest payload of the encoder. -/
theorem witness_FailureTable_payloads :
    isHeader 0 [0x00, 0x00, 0xFF, 0x00, 0x00] ∧ isHeader 2 [0x00, 0x00, 0xFF, 0x02, 0xFE] ∧
    isHeader 265 [0x00, 0x00, 0xFF, 0xFF, 0xFF, 0x01, 0x09, 0xF6] ∧
    isHeader [(0xD5 : Byte), 0x33, 0x00, 0x01, 0x02].length [0x00, 0x00, 0xFF, 0xFF, 0xFF, 0x00, 0x05, 0xFB] ∧
    (List.replicate 264 (0 : Byte)).length < 265 ∧ [(0x00 : Byte)].length < 2 ∧
    ((0xF8 : Byte) ≠ cks [0xD5, 0x32] ∧ (0x01 : Byte) ≠ 0x00) ∧
    (List.replicate 65535 (0 : Byte)).length ≤ 65535 :=
  ⟨.inl ⟨0x00, 0x00, by decide⟩, .inl ⟨0x02, 0xFE, by decide⟩, .inr ⟨0x01, 0x09, 0xF6, by decide⟩,
    .inr ⟨0x00, 0x05, 0xFB, by decide⟩, by rw [sized]; decide, by decide, by decide, by rw [sized]⟩

/-- X1, the largest payload (X13's length), one above it, and X5. -/
theorem witness_RoundTrip :
    (∃ s : State, s.EnvReady ∧ s.seq = .idle ∧ s.timeout ≠ 0 ∧ s.ops = ⟨1, 1⟩ :: [] ∧ s.pl = [0xD4] ++ [] ∧
      s.rx = fixedFrame ++ frame [0xD5, 0x33] ++ [0x77]) ∧
    (∃ s : State, s.EnvReady ∧ s.seq = .idle ∧ s.timeout ≠ 0 ∧ s.ops = ⟨1, 1⟩ :: [] ∧ s.pl = [0xD4] ++ [] ∧
      s.rx = fixedFrame ++ frame (List.replicate 265 0) ++ []) ∧
    (∃ s : State, s.EnvReady ∧ s.seq = .idle ∧ s.timeout ≠ 0 ∧ s.ops = ⟨1, 1⟩ :: [] ∧ s.pl = [0xD4] ++ [] ∧
      s.rx = fixedFrame ++ frame (List.replicate 266 0) ++ []) ∧
    (∃ s : State, s.EnvReady ∧ s.seq = .idle ∧ s.timeout ≠ 0 ∧ s.ops = ⟨1, 1⟩ :: [] ∧ s.pl = [0xD4] ++ [] ∧
      s.rx = frame [0xD5, 0x33] ++ [] ∧ s.coming = [.tick]) ∧
    ((1 : BitVec 32).setWidth 16 : Length).toNat = [(0xD4 : Byte)].length ∧
    (List.replicate 265 (0 : Byte)).length ≤ 265 ∧ 265 < (List.replicate 266 (0 : Byte)).length :=
  ⟨⟨{ offered [⟨1, 1⟩] with pl := [0xD4], rx := fixedFrame ++ frame [0xD5, 0x33] ++ [0x77] }, ⟨rfl, rfl, rfl, rfl⟩,
      rfl, by decide, rfl, rfl, rfl⟩,
    ⟨{ offered [⟨1, 1⟩] with pl := [0xD4], rx := fixedFrame ++ frame (List.replicate 265 0) ++ [] },
      ⟨rfl, rfl, rfl, rfl⟩, rfl, by decide, rfl, rfl, rfl⟩,
    ⟨{ offered [⟨1, 1⟩] with pl := [0xD4], rx := fixedFrame ++ frame (List.replicate 266 0) ++ [] },
      ⟨rfl, rfl, rfl, rfl⟩, rfl, by decide, rfl, rfl, rfl⟩,
    ⟨{ offered [⟨1, 1⟩] with pl := [0xD4], rx := frame [0xD5, 0x33], coming := [.tick] }, ⟨rfl, rfl, rfl, rfl⟩,
      rfl, by decide, rfl, rfl, rfl, rfl⟩,
    by decide, by rw [sized], by rw [sized]; decide⟩

/-- A script that ends in the middle of the header (X7). -/
theorem witness_BigStep :
    ∃ s : State, s.EnvReady ∧ s.seq = .idle ∧ s.timeout ≠ 0 ∧ s.coming = [] ∧ s.ops = ⟨1, 3⟩ :: [] ∧
      ((3 : BitVec 32).setWidth 16 : Length).toNat = [(0xD4 : Byte), 0x18, 0x01].length ∧
      s.pl = [0xD4, 0x18, 0x01] ++ [] ∧ (scriptDecode s.rx).result = .failed :=
  ⟨{ offered [⟨1, 3⟩] with pl := [0xD4, 0x18, 0x01], rx := fixedFrame ++ [0x00, 0x00, 0xFF, 0x02] },
    ⟨rfl, rfl, rfl, rfl⟩, rfl, by decide, rfl, rfl, by decide, rfl, by decide⟩

/-- A block that has sent two of three payload bytes, and one in the sleep of the cancel sequence. -/
theorem witness_EverySendRawEnds :
    (∃ s : State, s.Inv ∧ s.EnvReady ∧ s.payloadSupplied ∧ s.busy = true ∧ s.seq = .txPayload) ∧
    (∃ s : State, s.Inv ∧ s.EnvReady ∧ s.payloadSupplied ∧ s.busy = true ∧ s.seq = .canSleep) :=
  ⟨⟨sendingAt .txPayload 1 3 [0x01], ⟨by decide, ⟨by decide, by decide⟩⟩, ⟨rfl, rfl, rfl, rfl⟩, by
      show (1 : BitVec 16).toNat ≤ [(0x01 : Byte)].length
      decide, by decide, rfl⟩,
    ⟨{ busyAt .canSleep 0 [] with hid := { Hidden.reset with pend := .noAck } }, ⟨by decide, .inr (.inl rfl)⟩,
      ⟨rfl, rfl, rfl, rfl⟩, trivial, by decide, rfl⟩⟩

end Sys2Proof.Tests
end

section
/-! The invariant of the machine, `State.Inv`: what each operation of a step asks of it and gives back, assembled for
every kind of step. -/

namespace Sys2Proof.Machine

/-! ### The reading states -/

theorem reads_iff (q : SeqState) : q.reads = true ↔ q ∈ [.rxAck, .rxHdr, .rxExt, .rxPayload, .rxTrailer] := by
  cases q <;> decide

theorem reads_cases {q : SeqState} (h : q.reads = true) :
    q = .rxAck ∨ q = .rxHdr ∨ q = .rxExt ∨ q = .rxPayload ∨ q = .rxTrailer := by
  simpa using (reads_iff q).1 h

/-! ### Counters -/

theorem startWrite_counting (s : State) (q : SeqState) (n : Nat) (h0 : 0 < n) (hn : n < 65536) :
    (s.startWrite q n).counting n := by
  simp only [State.counting, startWrite_cnt, BitVec.toNat_ofNat, Nat.mod_eq_of_lt hn]
  exact ⟨h0, Nat.le_refl n⟩

theorem startRead_counting (s : State) (q : SeqState) (n : Nat) (h0 : 0 < n) (hn : n < 65536) :
    (s.startRead q n).counting n := startWrite_counting s q n h0 hn

theorem counting_of_le {s t : State} {n : Nat} (h : s.counting n) (hc : t.hid.cnt ≠ 0)
    (hle : t.hid.cnt.toNat ≤ s.hid.cnt.toNat) : t.counting n :=
  ⟨Nat.pos_of_ne_zero fun h0 => hc (BitVec.eq_of_toNat_eq h0), Nat.le_trans hle h.2⟩

theorem write_cnt_le (s : State) (b : List Byte) : (s.write b).hid.cnt.toNat ≤ s.hid.cnt.toNat := by
  rw [write_cnt, BitVec.toNat_ofNat]
  exact Nat.le_trans (Nat.mod_le _ _) (Nat.sub_le _ _)

theorem txHeader_length (n : Length) : 0 < (txHeader n).length ∧ (txHeader n).length < 65536 := by
  unfold txHeader
  rcases txFrame_cases n with ⟨_, _, h⟩ | ⟨_, _, _, h⟩ <;> rw [h] <;> simp [encode, Words.bytes]

theorem toNat_pos_of_ne_zero {n : Length} (h : ¬n = 0) : 0 < n.toNat :=
  Nat.pos_of_ne_zero fun h0 => h (BitVec.eq_of_toNat_eq h0)

/-! ### The states most steps lead to -/

theorem idle_inv {t : State} (hm : Memory.wf t.rxbuf) (hq : t.seq = .idle) : t.Inv :=
  ⟨hm, by simp only [State.seqInv, hq]⟩

theorem fail_inv {t : State} {r : Result} (c : Bool) (hm : Memory.wf t.rxbuf) (hr : isDecodeFailure r) :
    (t.fail r c).Inv := by
  refine ⟨by rwa [fail_rxbuf], ?_⟩
  cases c with
  | true => exact ⟨startWrite_counting _ .canTx 6 (by decide) (by decide), hr⟩
  | false => exact .inl hr

/-! ### The transmit states -/

theorem firstFlush_inv {s : State} (hi : s.Inv) (hq : s.seq = .txFlush) : s.firstFlush.Inv := by
  have ⟨hm, hs⟩ := hi
  simp only [State.seqInv, hq] at hs
  obtain ⟨h0, hn⟩ := txHeader_length s.hid.tlen
  unfold State.firstFlush
  split
  · exact ⟨hm, hs, startWrite_counting _ _ _ h0 hn⟩
  · exact hi

theorem sendHeader_inv {s : State} (hi : s.Inv) (hq : s.seq = .txHeader) :
    (s.sendHeader (txHeader s.hid.tlen)).Inv := by
  obtain ⟨hm, hs⟩ := hi
  simp only [State.seqInv, hq] at hs
  obtain ⟨hsum, hcnt⟩ := hs
  unfold State.sendHeader
  dsimp only
  split
  · split
    · exact ⟨hm, startWrite_counting _ _ 2 (by decide) (by decide)⟩
    · next hl => exact ⟨hm, startWrite_counting _ _ _ (toNat_pos_of_ne_zero hl) (BitVec.isLt _)⟩
  · next hc =>
    refine ⟨hm, ?_⟩
    simp only [State.seqInv, State.send, write_seq, hq]
    exact ⟨hsum, counting_of_le hcnt hc (write_cnt_le _ _)⟩

theorem sendPayload_inv {s : State} (hi : s.Inv) (hq : s.seq = .txPayload) : s.sendPayload.Inv := by
  obtain ⟨hm, hs⟩ := hi
  simp only [State.seqInv, hq] at hs
  unfold State.sendPayload
  dsimp only
  split
  · exact ⟨hm, startWrite_counting _ _ 2 (by decide) (by decide)⟩
  · next hc =>
    refine ⟨hm, ?_⟩
    simp only [State.seqInv, State.takePayload, write_seq, hq]
    exact counting_of_le hs hc (write_cnt_le s s.payloadNow)

theorem sendTrailer_inv {s : State} (hi : s.Inv) (hq : s.seq = .txTrailer) : s.sendTrailer.Inv := by
  obtain ⟨hm, hs⟩ := hi
  simp only [State.seqInv, hq] at hs
  unfold State.sendTrailer
  dsimp only
  split
  · exact ⟨hm, startRead_counting _ _ 6 (by decide) (by decide)⟩
  · next hc =>
    refine ⟨hm, ?_⟩
    simp only [State.seqInv, State.send, write_seq, hq]
    exact counting_of_le hs hc (write_cnt_le _ _)

/-! ### The cancel sequence -/

theorem sendCancel_inv {s : State} (hi : s.Inv) (hq : s.seq = .canTx) : s.sendCancel.Inv := by
  obtain ⟨hm, hs⟩ := hi
  simp only [State.seqInv, hq] at hs
  obtain ⟨hcnt, hp⟩ := hs
  unfold State.sendCancel
  dsimp only
  split
  · exact ⟨hm, hp⟩
  · next hc =>
    refine ⟨hm, ?_⟩
    simp only [State.seqInv, State.send, write_seq, hq]
    exact ⟨counting_of_le hcnt hc (write_cnt_le _ _), hp⟩

theorem cancelSleep_inv {s : State} (hi : s.Inv) (hq : s.seq = .canSleep) : s.cancelSleep.Inv := by
  obtain ⟨hm, hs⟩ := hi
  simp only [State.seqInv, hq] at hs
  unfold State.cancelSleep
  split
  · exact ⟨hm, hs⟩
  · obtain ⟨⟨_, _, _, hw⟩, -⟩ := waitUntil_spec Config.sleepTicks s
    rw [hw]
    exact ⟨hm, by simpa only [State.seqInv, hq] using hs⟩

theorem cancelFlush_inv {s : State} (hi : s.Inv) (hq : s.seq = .canFlush) : s.cancelFlush.Inv := by
  have ⟨hm, hs⟩ := hi
  simp only [State.seqInv, hq] at hs
  unfold State.cancelFlush
  split
  · exact ⟨hm, .inl hs⟩
  · exact hi

theorem deliver_inv {s : State} (hm : Memory.wf s.rxbuf) : s.deliver.Inv := by
  unfold State.deliver
  split
  · exact idle_inv (below_wf _ _ hm) rfl
  · exact idle_inv ⟨.nil, by simp [State.losePayload, State.forgetHidden]⟩ rfl

/-! ### What a read request leaves in RXBUF, RSUM and HDR -/

theorem listed_congr {s t : State} {n : Nat} (hb : t.rxbuf = s.rxbuf) (h : s.listed n) : t.listed n := by
  simpa only [State.listed, hb] using h

/-- Where all indices have specified values, the bytes read do not depend on the free values. -/
theorem rxBytes_congr {s t : State} {n : Nat} (hb : t.rxbuf = s.rxbuf) (h : s.listed n) :
    t.rxBytes n = s.rxBytes n := by
  refine List.map_congr_left fun i hi => ?_
  obtain ⟨v, hv⟩ := Option.isSome_iff_exists.1 (h i (List.mem_range.1 hi))
  simp only [State.rxByte, hb, hv, Option.getD_some]

theorem received_congr {s t : State} {n : Nat} (hb : t.rxbuf = s.rxbuf) (hr : t.hid.rsum = s.hid.rsum)
    (h : s.received n) : t.received n := by
  obtain ⟨hl, hs⟩ := h
  exact ⟨listed_congr hb hl, by rw [rxBytes_congr hb hl, hr, hs]⟩

theorem received_none {s : State} (hr : s.hid.rsum = 0) : s.received 0 :=
  ⟨fun j hj => absurd hj (Nat.not_lt_zero j), hr⟩

theorem absorb_payload_writes (s : State) (hq : s.seq = .rxPayload) :
    s.absorb.rxbuf = Memory.writeAll s.rxbuf s.readSoFar (s.rx.take s.hid.cnt.toNat) ∧
    s.absorb.hid.rsum = s.hid.rsum + sum8 (s.rx.take s.hid.cnt.toNat) := by
  simp only [State.absorb, State.countOff, State.place, hq, and_self]

theorem writeAll_listed {m : Memory} {i : Nat} {b : List Byte} (h : ∀ j < i, (Memory.read? m j).isSome = true) :
    ∀ j < i + b.length, (Memory.read? (Memory.writeAll m i b) j).isSome = true := by
  intro j hj
  by_cases hi : j < i
  · rw [read_writeAll_outside _ _ _ _ (.inl hi)]
    exact h j hi
  · obtain ⟨k, rfl⟩ := Nat.exists_eq_add_of_le (Nat.le_of_not_lt hi)
    rw [read_writeAll_inside _ _ _ _ (by omega), Option.isSome_some]

/-- The payload read keeps what it has received: the arrived bytes join it in RXBUF and in RSUM (R141). -/
theorem absorb_received {s : State} (hq : s.seq = .rxPayload) (hc : s.hid.cnt.toNat ≤ s.hid.dlen.toNat)
    (h : s.received s.readSoFar) : s.absorb.received s.absorb.readSoFar := by
  have hn : s.hid.cnt.toNat ≤ s.readCount := by simpa only [State.readCount, hq] using hc
  obtain ⟨hl, hs⟩ := h
  obtain ⟨hb, hr⟩ := absorb_payload_writes s hq
  constructor
  · intro j hj
    rw [absorb_readSoFar s hn] at hj
    rw [hb]
    exact writeAll_listed hl j hj
  · have hg := absorb_gathered s hn
    rw [gathered_payload _ ((absorb_seq s).trans hq), gathered_payload s hq] at hg
    rw [hg, sum8_append, hr, hs]

/-- The read of the three extended-length bytes leaves the five header bytes before them in place (R29). -/
theorem absorb_keeps_header {s : State} (hq : s.seq = .rxExt) (hc : s.hid.cnt.toNat ≤ 3) :
    s.absorb.hid.hdr.bytes.take 5 = s.hid.hdr.bytes.take 5 := by
  have hh : s.absorb.hid.hdr = s.hid.hdr.putAll (5 + (3 - s.hid.cnt.toNat)) (s.rx.take s.hid.cnt.toNat) := by
    simp only [State.absorb, State.countOff, State.place, State.readBase, State.readSoFar, State.readCount, hq]
  have hl : (s.rx.take s.hid.cnt.toNat).length ≤ s.hid.cnt.toNat := by simp
  rw [hh, putAll_bytes _ _ _ (by omega), List.append_assoc, List.take_append_of_le_length (by simp),
    List.take_take, Nat.min_eq_left (by omega)]

theorem absorb_fixed_same {s : State} (hq : s.seq ≠ .rxPayload) :
    s.absorb.rxbuf = s.rxbuf ∧ s.absorb.hid.rsum = s.hid.rsum := by
  obtain ⟨_, _, _, _, h, hs, -⟩ := absorb_same s
  rw [h]
  exact hs hq

theorem absorb_dlen (s : State) : s.absorb.hid.dlen = s.hid.dlen := by
  obtain ⟨_, _, _, _, h, -⟩ := absorb_same s
  rw [h]

theorem absorb_wf {s : State} (hi : s.Inv) : Memory.wf s.absorb.rxbuf := by
  obtain ⟨hm, hs⟩ := hi
  by_cases hq : s.seq = .rxPayload
  · simp only [State.seqInv, hq] at hs
    obtain ⟨⟨-, hc⟩, hd, -⟩ := hs
    have hl : (s.rx.take s.hid.cnt.toNat).length ≤ s.hid.cnt.toNat := by simp
    rw [(absorb_payload_writes s hq).1]
    refine writeAll_wf _ _ _ hm ?_
    simp only [State.readSoFar, State.readCount, hq]
    omega
  · rw [(absorb_fixed_same hq).1]
    exact hm

/-- Bytes that arrive while some are still due leave the request open, with what it has received. -/
theorem absorb_inv {s : State} (hi : s.Inv) (hq : s.seq.reads = true) (hc : s.absorb.hid.cnt ≠ 0) : s.absorb.Inv := by
  refine ⟨absorb_wf hi, ?_⟩
  obtain ⟨hm, hs⟩ := hi
  have hle : s.absorb.hid.cnt.toNat ≤ s.hid.cnt.toNat := by rw [absorb_cnt_toNat]; exact Nat.sub_le _ _
  rcases reads_cases hq with hp | hp | hp | hp | hp <;> simp only [State.seqInv, absorb_seq, hp] at hs ⊢
  · exact counting_of_le hs hc hle
  · exact counting_of_le hs hc hle
  · obtain ⟨hn, hh⟩ := hs
    exact ⟨counting_of_le hn hc hle, by rw [absorb_keeps_header hp hn.2, hh]⟩
  · obtain ⟨hn, hd, hr⟩ := hs
    have ha := absorb_received hp hn.2 (by simpa only [State.readSoFar, State.readCount, hp] using hr)
    simp only [State.readSoFar, State.readCount, absorb_seq, hp] at ha
    rw [absorb_dlen] at ha ⊢
    exact ⟨counting_of_le hn hc hle, hd, ha⟩
  · obtain ⟨hn, hd, hr⟩ := hs
    obtain ⟨hb, hu⟩ := absorb_fixed_same (s := s) (by simp [hp])
    rw [absorb_dlen]
    exact ⟨counting_of_le hn hc hle, hd, received_congr hb hu hr⟩

/-! ### The three ways a read request goes on -/

theorem readRequest_waits_absorbed {s t : State} (h : s.readRequest = .waiting t) :
    s.absorb.hid.cnt ≠ 0 ∧ t = s.absorb.waitUntil s.absorb.timeout := by
  unfold State.readRequest State.readZero State.readTimed at h
  dsimp only at h
  split at h
  · cases h
  · split at h
    · split at h
      · cases h
      · split at h <;> cases h
    · split at h
      · cases h
      · next hc =>
        split at h <;> cases h
        exact ⟨hc, rfl⟩

theorem wait_inv {s t : State} (hi : s.Inv) (hq : s.seq.reads = true) (h : s.readRequest = .waiting t) : t.Inv := by
  obtain ⟨hc, rfl⟩ := readRequest_waits_absorbed h
  have ha := absorb_inv hi hq hc
  obtain ⟨⟨_, _, _, hw⟩, -⟩ := waitUntil_spec s.absorb.timeout s.absorb
  rw [hw]
  exact ha

theorem readRequest_rxbuf (s : State) :
    s.readRequest.state.rxbuf = s.rxbuf ∨ s.readRequest.state.rxbuf = s.absorb.rxbuf := by
  have hd : s.absorb.readDone.rxbuf = s.absorb.rxbuf := by unfold State.readDone; split <;> rfl
  unfold State.readRequest
  split
  · left; unfold ReadResult.state State.readDone; dsimp only; split <;> rfl
  · split
    · unfold State.readZero
      split
      · exact .inl rfl
      · dsimp only
        split
        · exact .inr hd
        · exact .inr rfl
    · unfold State.readTimed
      dsimp only
      split
      · exact .inr hd
      · split
        · exact .inr rfl
        · obtain ⟨⟨_, _, _, hw⟩, -⟩ := waitUntil_spec s.absorb.timeout s.absorb
          exact .inr (by rw [ReadResult.state, hw])

theorem readRequest_wf {s : State} (hi : s.Inv) : Memory.wf s.readRequest.state.rxbuf := by
  rcases readRequest_rxbuf s with h | h <;> rw [h]
  · exact hi.1
  · exact absorb_wf hi

theorem expired_wf {s t : State} (hi : s.Inv) (h : s.readRequest = .expired t) : Memory.wf t.rxbuf := by
  have := readRequest_wf hi
  rwa [h] at this

theorem complete_wf {s t : State} (hi : s.Inv) (h : s.readRequest = .complete t) : Memory.wf t.rxbuf := by
  have := readRequest_wf hi
  rwa [h] at this

/-- An open read request still has bytes to come, at most those it asked for. -/
theorem reads_counting {s : State} (hi : s.Inv) (hq : s.seq.reads = true) : s.counting s.readCount := by
  obtain ⟨-, hs⟩ := hi
  rcases reads_cases hq with hp | hp | hp | hp | hp <;> simp only [State.readCount, State.seqInv, hp] at hs ⊢
  · exact hs
  · exact hs
  · exact hs.1
  · exact hs.1
  · exact hs.1

/-- A request that completes holds what taking the arrived bytes gave it. -/
theorem complete_absorbed {s t : State} (hi : s.Inv) (hq : s.seq.reads = true) (h : s.readRequest = .complete t) :
    s.absorb.hid.cnt = 0 ∧ t.rxbuf = s.absorb.rxbuf ∧ t.hid = s.absorb.hid := by
  obtain ⟨h0, hn⟩ := reads_counting hi hq
  obtain ⟨hl, _, rfl⟩ := readRequest_completes s t (fun hc => by simp [hc] at h0) hn h
  exact ⟨(absorb_cnt_zero_iff s).2 hl, rfl, rfl⟩

theorem headerShort_inv {t : State} (hm : Memory.wf t.rxbuf)
    (hp : preambleOk t.hid.hdr.b0 t.hid.hdr.b1 t.hid.hdr.b2 = true) : (t.goto .rxCheck).Inv := by
  simp only [preambleOk, Bool.and_eq_true, beq_iff_eq] at hp
  obtain ⟨⟨h0, h1⟩, h2⟩ := hp
  refine ⟨hm, ?_⟩
  simp [State.seqInv, Hdr.bytes, h0, h1, h2]

theorem headerExtended_inv {t : State} (hm : Memory.wf t.rxbuf)
    (hp : preambleOk t.hid.hdr.b0 t.hid.hdr.b1 t.hid.hdr.b2 = true)
    (he : extMarker t.hid.hdr.b3 t.hid.hdr.b4 = true) : (t.startRead .rxExt 3).Inv := by
  simp only [preambleOk, extMarker, Bool.and_eq_true, beq_iff_eq] at hp he
  obtain ⟨⟨h0, h1⟩, h2⟩ := hp
  obtain ⟨h3, h4⟩ := he
  refine ⟨hm, startRead_counting _ _ 3 (by decide) (by decide), ?_⟩
  simp [take_five, h0, h1, h2, h3, h4]

theorem extendedOk_inv {s t : State} (hi : s.Inv) (hq : s.seq = .rxExt) (h : s.readRequest = .complete t) :
    (t.goto .rxCheck).Inv := by
  obtain ⟨-, -, hh⟩ := complete_absorbed hi (by rw [hq]; rfl) h
  have ⟨_, hs⟩ := hi
  simp only [State.seqInv, hq] at hs
  obtain ⟨⟨-, hn⟩, h5⟩ := hs
  have hm : Memory.wf t.rxbuf := complete_wf hi h
  have h3 : t.hid.hdr.bytes.take 3 = [0x00, 0x00, 0xFF] := by
    rw [show 3 = min 3 5 from rfl, ← List.take_take, hh, absorb_keeps_header hq hn, h5]
    rfl
  exact ⟨hm, h3⟩

theorem acceptLength_inv {s : State} (hm : Memory.wf s.rxbuf) (dlen : Length) : (s.acceptLength dlen).Inv := by
  unfold State.acceptLength
  dsimp only
  split
  · exact fail_inv false hm (.inl rfl)
  · next hd =>
    split
    · next h0 =>
      subst h0
      exact ⟨hm, startRead_counting _ _ 2 (by decide) (by decide), Nat.zero_le _, received_none rfl⟩
    · next h0 =>
      refine ⟨hm, startRead_counting _ _ _ (toNat_pos_of_ne_zero h0) (BitVec.isLt _), Nat.le_of_not_lt hd, ?_⟩
      have hz : dlen.toNat - (BitVec.ofNat 16 dlen.toNat).toNat = 0 := by simp
      simp only [startRead_dlen, startRead_cnt, hz]
      exact received_none rfl

theorem checkLength_inv {s : State} (hm : Memory.wf s.rxbuf) (field : List Byte) (dlen : Length) :
    (s.checkLength field dlen).Inv := by
  unfold State.checkLength
  split
  · exact acceptLength_inv hm dlen
  · exact fail_inv false hm (.inr (.inr rfl))

/-- The payload read ends with DLEN bytes received. -/
theorem payloadOk_inv {s t : State} (hi : s.Inv) (hq : s.seq = .rxPayload) (h : s.readRequest = .complete t) :
    (t.startRead .rxTrailer 2).Inv := by
  obtain ⟨hz, hb, hh⟩ := complete_absorbed hi (by rw [hq]; rfl) h
  have ⟨_, hs⟩ := hi
  simp only [State.seqInv, hq] at hs
  obtain ⟨hn, hd, hr⟩ := hs
  have ha := absorb_received hq hn.2 (by simpa only [State.readSoFar, State.readCount, hq] using hr)
  have hl : t.hid.dlen = s.hid.dlen := by rw [hh, absorb_dlen]
  have hall : s.absorb.readSoFar = s.hid.dlen.toNat := by
    simp [State.readSoFar, State.readCount, absorb_seq, hq, absorb_dlen, hz]
  rw [hall, ← hl] at ha
  rw [← hl] at hd
  have hm : Memory.wf t.rxbuf := complete_wf hi h
  have hr' : t.received t.hid.dlen.toNat := received_congr hb (by rw [hh]) ha
  exact ⟨hm, startRead_counting _ _ 2 (by decide) (by decide), hd, hr'⟩

/-- The trailer read leaves the payload as it is, so a good trailer ends with DLEN bytes listed. -/
theorem trailerRead_inv {s t : State} (hi : s.Inv) (hq : s.seq = .rxTrailer) (h : s.readRequest = .complete t) :
    t.checkTrailer.Inv := by
  have hm := complete_wf hi h
  have hb := ((readRequest_complete h).buffer (by simp [hq])).1
  obtain ⟨⟨_, _, _, _, _, _, _, _, _, ht⟩, -⟩ := readRequest_complete h
  have hl : t.hid.dlen = s.hid.dlen := by rw [ht]
  obtain ⟨-, hs⟩ := hi
  simp only [State.seqInv, hq] at hs
  obtain ⟨-, hd, hr, -⟩ := hs
  rw [← hl] at hd hr
  unfold State.checkTrailer
  split
  · exact ⟨hm, .inr ⟨rfl, hd, listed_congr hb hr⟩⟩
  · exact fail_inv true hm (.inr (.inr rfl))

/-! ### Every step -/

theorem stepKind_inv {s t : State} (hi : s.Inv) (h : StepKind s t) : t.Inv := by
  have ⟨hm, _⟩ := hi
  cases h with
  | arrive hq =>
    obtain ⟨⟨_, _, _, ha⟩, -⟩ := arrive_spec s
    rw [ha]
    exact idle_inv hm hq
  | accept => exact ⟨hm, rfl⟩
  | assertAck => exact idle_inv hm rfl
  | setTimeout => exact idle_inv hm rfl
  | firstFlush hq => exact firstFlush_inv hi hq
  | sendHeader hq => exact sendHeader_inv hi hq
  | sendPayload hq => exact sendPayload_inv hi hq
  | sendTrailer hq => exact sendTrailer_inv hi hq
  | wait _ hq hr => exact wait_inv hi hq hr
  | ackOk t _ hr =>
    have ht : Memory.wf t.rxbuf := complete_wf hi hr
    exact ⟨ht, startRead_counting _ _ 5 (by decide) (by decide)⟩
  | ackWrong _ _ hr => exact fail_inv true (complete_wf hi hr) (.inr (.inl rfl))
  | ackLate _ _ hr => exact fail_inv true (expired_wf hi hr) (.inr (.inl rfl))
  | headerShort _ _ hr hp => exact headerShort_inv (complete_wf hi hr) hp
  | headerExtended _ _ hr hp he => exact headerExtended_inv (complete_wf hi hr) hp he
  | headerWrong _ _ hr => exact fail_inv true (complete_wf hi hr) (.inr (.inr rfl))
  | headerLate _ _ hr => exact fail_inv true (expired_wf hi hr) (.inl rfl)
  | extendedOk _ hq hr => exact extendedOk_inv hi hq hr
  | extendedLate _ _ hr => exact fail_inv true (expired_wf hi hr) (.inr (.inr rfl))
  | checkShort => exact checkLength_inv hm _ _
  | checkExtended => exact checkLength_inv hm _ _
  | payloadOk _ hq _ hr => exact payloadOk_inv hi hq hr
  | payloadLate _ _ _ hr => exact fail_inv true (expired_wf hi hr) (.inl rfl)
  | trailerRead _ hq hr => exact trailerRead_inv hi hq hr
  | trailerLate _ _ hr => exact fail_inv true (expired_wf hi hr) (.inr (.inr rfl))
  | cancelSend hq => exact sendCancel_inv hi hq
  | cancelSleep hq => exact cancelSleep_inv hi hq
  | cancelFlush hq => exact cancelFlush_inv hi hq
  | deliver => exact deliver_inv hm

theorem resetBlock_inv (s : State) : s.resetBlock.Inv := idle_inv ⟨.nil, by simp [State.resetBlock]⟩ rfl

/-- Settles O38: a reset gives the idle state, and every kind of step keeps the invariant. -/
theorem stepKeepsTheInvariant : Obligations.StepKeepsTheInvariant := by
  intro s t hi h
  rcases step_cases h with ⟨-, rfl⟩ | ⟨-, hk⟩
  · exact resetBlock_inv s
  · exact stepKind_inv (s := s.nextCycle) hi hk

/-- Settles O37: the reset state is idle and its RXBUF lists nothing. -/
theorem resetMeetsTheInvariant : Obligations.ResetMeetsTheInvariant := idle_inv ⟨.nil, by simp [State.reset]⟩ rfl

end Sys2Proof.Machine
end

section
/-! The frame of a step: which of TIMEOUT, RXBUF, RXLEN, the Result output, the command port, the payload stream and the
Flush events each kind of step leaves alone. -/

namespace Sys2Proof.Machine

/-- What a step leaves alone that takes no operation and delivers no Result. Only the payload read writes RXBUF, only
TX_PAYLOAD takes payload bytes, and only the two flushing states add a Flush event. -/
structure StepFrame (s t : State) : Prop where
  timeout : t.timeout = s.timeout
  rxlen : t.rxlen = s.rxlen
  done : t.done = s.done
  ops : t.ops = s.ops
  rxbuf : s.seq ≠ .rxPayload → t.rxbuf = s.rxbuf
  pl : s.seq ≠ .txPayload → t.pl = s.pl
  noFlush : s.seq ≠ .txFlush → s.seq ≠ .canFlush → t.trace ≠ .flush :: s.trace

theorem addWrite_ne_flush (b : List Byte) (tr : List Event) : addWrite b tr ≠ .flush :: tr := by
  cases b with
  | nil => simp [addWrite]
  | cons x b => cases tr with
    | nil => simp [addWrite]
    | cons e tr => cases e <;> simp [addWrite]

/-- SEQ and the hidden registers are no part of the frame. -/
theorem StepFrame.control {s t : State} (h : StepFrame s t) (q : SeqState) (hid : Hidden) :
    StepFrame s { t with seq := q, hid := hid } :=
  ⟨h.timeout, h.rxlen, h.done, h.ops, h.rxbuf, h.pl, h.noFlush⟩

theorem frame_refl (s : State) : StepFrame s s :=
  ⟨rfl, rfl, rfl, rfl, fun _ => rfl, fun _ => rfl, fun _ _ => by simp⟩

theorem onlyReceives_frame {s t : State} (h : OnlyReceives s t) : StepFrame s t := by
  obtain ⟨⟨_, _, _, rfl⟩, -⟩ := h
  exact ⟨rfl, rfl, rfl, rfl, fun _ => rfl, fun _ => rfl, fun _ _ => by simp⟩

theorem onlyReads_frame {s t : State} (h : OnlyReads s t) : StepFrame s t := by
  have hb := h.buffer
  have he := h.events
  obtain ⟨⟨_, _, _, _, _, _, _, _, _, rfl⟩, -⟩ := h
  refine ⟨rfl, rfl, rfl, rfl, fun hq => (hb hq).1, fun _ => rfl, fun _ _ => ?_⟩
  rcases he with he | ⟨_, _, he⟩ | ⟨_, _, he⟩ <;> rw [he] <;> simp

theorem write_frame (s : State) (b : List Byte) : StepFrame s (s.write b) :=
  ⟨rfl, rfl, rfl, rfl, fun _ => rfl, fun _ => rfl, fun _ _ => addWrite_ne_flush b s.trace⟩

/-! ### The frame of each operation -/

theorem firstFlush_frame {s : State} (hq : s.seq = .txFlush) : StepFrame s s.firstFlush := by
  unfold State.firstFlush
  split
  · exact ⟨rfl, rfl, rfl, rfl, fun _ => rfl, fun _ => rfl, fun h => absurd hq h⟩
  · exact frame_refl s

theorem sendHeader_frame (s : State) (header : List Byte) : StepFrame s (s.sendHeader header) := by
  have hw : StepFrame s (s.send header) := write_frame s _
  unfold State.sendHeader
  dsimp only
  split
  · split
    · exact hw.control _ _
    · exact hw.control _ _
  · exact hw

theorem sendPayload_frame {s : State} (hq : s.seq = .txPayload) : StepFrame s s.sendPayload := by
  have hw : StepFrame s s.takePayload :=
    ⟨rfl, rfl, rfl, rfl, fun _ => rfl, fun h => absurd hq h, (write_frame s _).noFlush⟩
  unfold State.sendPayload
  dsimp only
  split
  · exact hw.control _ _
  · exact hw

theorem sendTrailer_frame (s : State) : StepFrame s s.sendTrailer := by
  have hw : StepFrame s (s.send (txTrailer s.hid.tsum)) := write_frame s _
  unfold State.sendTrailer
  dsimp only
  split
  · exact hw.control _ _
  · exact hw

theorem sendCancel_frame (s : State) : StepFrame s s.sendCancel := by
  have hw : StepFrame s (s.send fixedFrame) := write_frame s _
  unfold State.sendCancel
  dsimp only
  split
  · exact hw.control _ _
  · exact hw

theorem cancelSleep_frame (s : State) : StepFrame s s.cancelSleep := by
  unfold State.cancelSleep
  split
  · exact ⟨rfl, rfl, rfl, rfl, fun _ => rfl, fun _ => rfl, fun _ _ => by simp⟩
  · exact onlyReceives_frame (waitUntil_spec _ s)

theorem cancelFlush_frame {s : State} (hq : s.seq = .canFlush) : StepFrame s s.cancelFlush := by
  unfold State.cancelFlush
  split
  · exact ⟨rfl, rfl, rfl, rfl, fun _ => rfl, fun _ => rfl, fun _ h => absurd hq h⟩
  · exact frame_refl s

theorem checkLength_frame (s : State) (field : List Byte) (dlen : Length) : StepFrame s (s.checkLength field dlen) := by
  have hs := frame_refl s
  unfold State.checkLength State.acceptLength
  dsimp only
  split
  · split
    · exact hs.control _ _
    · split
      · exact hs.control _ _
      · exact hs.control _ _
  · exact hs.control _ _

theorem checkTrailer_frame {s t : State} (h : StepFrame s t) : StepFrame s t.checkTrailer := by
  unfold State.checkTrailer
  split
  · exact h.control _ _
  · exact h.control _ _

@[simp] theorem deliver_seq (s : State) : s.deliver.seq = .idle := by unfold State.deliver; split <;> rfl
@[simp] theorem deliver_done (s : State) : s.deliver.done = some s.hid.pend := by
  unfold State.deliver; split <;> rfl
@[simp] theorem deliver_timeout (s : State) : s.deliver.timeout = s.timeout := by unfold State.deliver; split <;> rfl
@[simp] theorem deliver_ops (s : State) : s.deliver.ops = s.ops := by unfold State.deliver; split <;> rfl
@[simp] theorem deliver_pl (s : State) : s.deliver.pl = s.pl := by unfold State.deliver; split <;> rfl
@[simp] theorem deliver_trace (s : State) : s.deliver.trace = s.trace := by unfold State.deliver; split <;> rfl

/-! ### Every step -/

/-- What a step does to the host's side: it stays inside an operation (or idle), it takes one of the three operations,
or it delivers the Result of a SENDRAW. -/
inductive StepOutcome (s : State) : State → Prop
  | inside (t) : s.seq ≠ .done → (s.seq = .idle → s.ops = []) → StepFrame s t → StepOutcome s t
  | accept (a rest) : s.seq = .idle → s.ops = ⟨1, a⟩ :: rest →
      StepOutcome s (State.acceptSendRaw (a.setWidth 16) { s with ops := rest })
  | assertAck (r a rest) : s.seq = .idle → s.ops = ⟨2, a⟩ :: rest →
      StepOutcome s (State.finish r { s with ops := rest })
  | setTimeout (a rest) : s.seq = .idle → s.ops = ⟨3, a⟩ :: rest →
      StepOutcome s (State.finish .success { s with ops := rest, timeout := a })
  | deliver : s.seq = .done → StepOutcome s s.deliver

/-- A step from a state other than IDLE and DONE stays inside the operation. -/
theorem inside_of_frame {s t : State} {q : SeqState} (hq : s.seq = q) (h : StepFrame s t)
    (hi : q ≠ .idle := by decide) (hd : q ≠ .done := by decide) : StepOutcome s t :=
  .inside t (hq ▸ hd) (fun h => absurd (hq ▸ h) hi) h

theorem stepKind_outcome {s t : State} (h : StepKind s t) : StepOutcome s t := by
  have complete {t : State} (h : s.readRequest = .complete t) : StepFrame s t :=
    onlyReads_frame (readRequest_complete h)
  have expired {t : State} (h : s.readRequest = .expired t) : StepFrame s t :=
    onlyReads_frame (readRequest_expired h)
  cases h with
  | arrive hq ho => exact .inside _ (by simp [hq]) (fun _ => ho) (onlyReceives_frame (arrive_spec s))
  | accept a rest hq ho => exact .accept a rest hq ho
  | assertAck _ a rest hq ho => exact .assertAck _ a rest hq ho
  | setTimeout a rest hq ho => exact .setTimeout a rest hq ho
  | firstFlush hq => exact inside_of_frame hq (firstFlush_frame hq)
  | sendHeader hq => exact inside_of_frame hq (sendHeader_frame s _)
  | sendPayload hq => exact inside_of_frame hq (sendPayload_frame hq)
  | sendTrailer hq => exact inside_of_frame hq (sendTrailer_frame s)
  | wait _ hq hr =>
    have off (q : SeqState) (h : q.reads = false) : s.seq ≠ q := by rintro rfl; simp [h] at hq
    exact .inside _ (off .done rfl) (fun h => absurd h (off .idle rfl)) (onlyReads_frame (readRequest_waiting hr))
  | ackOk _ hq hr => exact inside_of_frame hq ((complete hr).control _ _)
  | ackWrong _ hq hr => exact inside_of_frame hq ((complete hr).control _ _)
  | ackLate _ hq hr => exact inside_of_frame hq ((expired hr).control _ _)
  | headerShort _ hq hr => exact inside_of_frame hq ((complete hr).control _ _)
  | headerExtended _ hq hr => exact inside_of_frame hq ((complete hr).control _ _)
  | headerWrong _ hq hr => exact inside_of_frame hq ((complete hr).control _ _)
  | headerLate _ hq hr => exact inside_of_frame hq ((expired hr).control _ _)
  | extendedOk _ hq hr => exact inside_of_frame hq ((complete hr).control _ _)
  | extendedLate _ hq hr => exact inside_of_frame hq ((expired hr).control _ _)
  | checkShort hq => exact inside_of_frame hq (checkLength_frame s _ _)
  | checkExtended hq => exact inside_of_frame hq (checkLength_frame s _ _)
  | payloadOk _ hq _ hr => exact inside_of_frame hq ((complete hr).control _ _)
  | payloadLate _ hq _ hr => exact inside_of_frame hq ((expired hr).control _ _)
  | trailerRead _ hq hr => exact inside_of_frame hq (checkTrailer_frame (complete hr))
  | trailerLate _ hq hr => exact inside_of_frame hq ((expired hr).control _ _)
  | cancelSend hq => exact inside_of_frame hq (sendCancel_frame s)
  | cancelSleep hq => exact inside_of_frame hq (cancelSleep_frame s)
  | cancelFlush hq => exact inside_of_frame hq (cancelFlush_frame hq)
  | deliver hq => exact .deliver hq

theorem step_outcome {s t : State} (h : step s = .next t) :
    (s.rst = true ∧ t = s.resetBlock) ∨ (s.rst = false ∧ StepOutcome s.nextCycle t) :=
  (step_cases h).imp_right fun ⟨hr, hk⟩ => ⟨hr, stepKind_outcome hk⟩

theorem released_outcome {s t : State} (hr : s.rst = false) (h : step s = .next t) : StepOutcome s.nextCycle t := by
  rcases step_outcome h with ⟨hr', -⟩ | ⟨-, ho⟩
  · simp [hr] at hr'
  · exact ho

/-- Settles O41: inside an operation TIMEOUT is kept, and of the operations only SETTIMEOUT writes it. -/
theorem onlySetTimeoutWritesTimeout : Obligations.OnlySetTimeoutWritesTimeout := by
  intro s t hr h hne
  cases released_outcome hr h with
  | inside _ _ _ hf => exact absurd hf.timeout hne
  | accept => exact absurd rfl hne
  | assertAck => exact absurd rfl hne
  | setTimeout a rest hq ho => exact ⟨hq, a, rest, ho, rfl⟩
  | deliver => exact absurd (deliver_timeout _) hne

/-- Settles O42: inside an operation only the payload read writes RXBUF and nothing writes RXLEN; an operation that is
taken writes neither. -/
theorem whoWritesReceivedState : Obligations.WhoWritesReceivedState := by
  intro s t hr h
  cases released_outcome hr h with
  | inside _ _ _ hf =>
    refine ⟨fun hne => .inl ?_, fun hne => absurd hf.rxlen hne⟩
    by_contra hq
    exact hne (hf.rxbuf hq)
  | accept => exact ⟨fun hne => absurd rfl hne, fun hne => absurd rfl hne⟩
  | assertAck => exact ⟨fun hne => absurd rfl hne, fun hne => absurd rfl hne⟩
  | setTimeout => exact ⟨fun hne => absurd rfl hne, fun hne => absurd rfl hne⟩
  | deliver hq => exact ⟨fun _ => .inr hq, fun _ => hq⟩

theorem done_pend_ne_notFound {s : State} (hi : s.Inv) (hq : s.seq = .done) : s.hid.pend ≠ .notFound := by
  obtain ⟨-, hs⟩ := hi
  simp only [State.seqInv, hq, isDecodeFailure] at hs
  rcases hs with (h | h | h) | ⟨h, -⟩ <;> simp [h]

/-- Settles O45: of the outcomes of a step, ASSERTACK, SETTIMEOUT and the delivery of a SENDRAW set done_valid. -/
theorem resultsAreDeliveredInIdle : Obligations.ResultsAreDeliveredInIdle := by
  intro s t h
  rcases step_outcome h with ⟨hr, rfl⟩ | ⟨hr, ho⟩
  · simp [State.resetBlock, hr]
  · cases ho with
    | inside _ hd hi hf =>
      have hn : t.done = none := hf.done
      have hd : s.seq ≠ .done := hd
      have hi : s.seq = .idle → s.ops = [] := hi
      refine ⟨iff_of_false (by simp [hn]) ?_, fun r h => by simp [hn] at h, fun _ h => by simp [hn] at h⟩
      rintro ⟨-, hq | ⟨hq, c, rest, ho, -⟩⟩
      · exact hd hq
      · simp [hi hq] at ho
    | accept a rest hq ho =>
      have hq : s.seq = .idle := hq
      have ho : s.ops = ⟨1, a⟩ :: rest := ho
      simp [State.acceptSendRaw, hr, hq, ho]
    | assertAck r a rest hq ho =>
      have hq : s.seq = .idle := hq
      have ho : s.ops = ⟨2, a⟩ :: rest := ho
      simp [hr, hq, ho]
    | setTimeout a rest hq ho =>
      have hq : s.seq = .idle := hq
      have ho : s.ops = ⟨3, a⟩ :: rest := ho
      simp [hr, hq, ho]
    | deliver hq =>
      have hq : s.seq = .done := hq
      simpa [hr, hq] using fun hi => done_pend_ne_notFound hi hq

end Sys2Proof.Machine
end

section
/-! The lines of the ports: what each shows of the state, and which transfers a step makes on them. -/

namespace Sys2Proof.Machine

/-! ### The lines -/

@[simp] theorem opValid_iff (s : State) : s.opValid = true ↔ s.ops ≠ [] := by simp [State.opValid]

theorem busy_iff (s : State) : s.busy = true ↔ s.seq ≠ .idle := decide_eq_true_iff

theorem busy_eq_false_iff (s : State) : s.busy = false ↔ s.seq = .idle := by simp [State.busy]

theorem opReady_iff (s : State) : s.opReady = true ↔ s.rst = false ∧ s.seq = .idle := by
  simp [State.opReady, busy_eq_false_iff]

theorem flushReq_iff (s : State) :
    s.flushReq = true ↔ s.rst = false ∧ (s.seq = .txFlush ∨ s.seq = .canFlush) := by
  simp [State.flushReq]

theorem doneValid_iff (s : State) : s.doneValid = true ↔ ∃ r, s.done = some r ∧ s.resCode = some r.code := by
  rw [State.doneValid, Option.isSome_iff_exists]
  exact exists_congr fun r => ⟨fun h => ⟨h, by rw [State.resCode, h, Option.map_some]⟩, fun ⟨h, _⟩ => h⟩

theorem writes_iff (q : SeqState) : q.writes = true ↔ q ∈ [.txHeader, .txTrailer, .canTx] ∨ q = .txPayload := by
  cases q <;> decide

theorem txValid_iff (s : State) :
    s.txValid = true ↔ s.rst = false ∧ s.hid.cnt ≠ 0 ∧
      (s.seq ∈ [.txHeader, .txTrailer, .canTx] ∨ s.seq = .txPayload ∧ s.pl ≠ []) := by
  have hv : s.txValid = true ↔
      s.rst = false ∧ s.hid.cnt ≠ 0 ∧ s.seq.writes = true ∧ (s.seq ≠ .txPayload ∨ s.pl ≠ []) := by
    simp only [State.txValid, Bool.and_eq_true, Bool.or_eq_true, Bool.not_eq_true', decide_eq_true_iff, plValid_iff]
    tauto
  rw [hv, writes_iff]
  by_cases hq : s.seq = .txPayload
  · simp [hq]
  · simp [hq]

theorem zeroTakesNone_of_timeout {s : State} (h : s.timeout ≠ 0) : s.zeroTakesNone = false := by
  simp only [State.zeroTakesNone, decide_eq_false h, Bool.false_and]

theorem idle_ports {s : State} (h : s.busy = false) :
    s.rxlenPort = s.rxlen ∧ ∀ a : BitVec 9, a.toNat < 265 → s.rbData a = s.rxByte a.toNat := by
  exact ⟨if_neg (by simp [h]), fun a ha => if_pos ⟨h, ha⟩⟩

/-- Settles O49, line by line. -/
theorem portsShowTheState : Obligations.PortsShowTheState := by
  intro s
  refine ⟨busy_iff s, idle_ports, rfl, doneValid_iff s, opReady_iff s, plReady_iff s, txValid_iff s, fun h => ?_,
    fun hr hc hq ht => ?_, flushReq_iff s⟩
  · obtain ⟨hr, hq, hc, -⟩ := (rxReady_iff s).1 h
    exact ⟨hr, hc, (reads_iff _).1 hq⟩
  · exact (rxReady_iff s).2 ⟨hr, (reads_iff _).2 hq, hc, zeroTakesNone_of_timeout ht⟩

/-! ### The transfers -/

theorem outcome_ops {s t : State} (h : StepOutcome s t) : t.ops = if s.seq = .idle then s.ops.tail else s.ops := by
  cases h with
  | inside _ _ hi hf =>
    split
    · next hq => rw [hf.ops, hi hq, List.tail_nil]
    · exact hf.ops
  | accept _ _ hq ho => rw [if_pos hq, ho]; rfl
  | assertAck _ _ _ hq ho => rw [if_pos hq, ho]; rfl
  | setTimeout _ _ hq ho => rw [if_pos hq, ho]; rfl
  | deliver hq => rw [deliver_ops, hq, if_neg (by decide)]

theorem outcome_pl {s t : State} (h : StepOutcome s t) (hq : s.seq ≠ .txPayload) : t.pl = s.pl := by
  cases h with
  | inside _ _ _ hf => exact hf.pl hq
  | accept => rfl
  | assertAck => rfl
  | setTimeout => rfl
  | deliver => exact deliver_pl s

theorem outcome_noFlush {s t : State} (h : StepOutcome s t) (h1 : s.seq ≠ .txFlush) (h2 : s.seq ≠ .canFlush) :
    t.trace ≠ .flush :: s.trace := by
  have hne : s.trace ≠ .flush :: s.trace := by simp
  cases h with
  | inside _ _ _ hf => exact hf.noFlush h1 h2
  | accept => exact hne
  | assertAck => exact hne
  | setTimeout => exact hne
  | deliver => rwa [deliver_trace]

theorem firstFlush_trace_iff (s : State) : s.firstFlush.trace = .flush :: s.trace ↔ s.flushDone = true := by
  unfold State.firstFlush
  split <;> simp [*]

theorem cancelFlush_trace_iff (s : State) : s.cancelFlush.trace = .flush :: s.trace ↔ s.flushDone = true := by
  unfold State.cancelFlush
  split <;> simp [*]

theorem sendPayload_pl (s : State) : s.sendPayload.pl = s.pl.drop s.payloadNow.length := by
  unfold State.sendPayload
  dsimp only
  split <;> rfl

theorem payloadNow_length_le (s : State) : s.payloadNow.length ≤ s.pl.length :=
  Nat.le_trans (List.length_take_le' _ _) (List.length_take_le' _ _)

/-- The command port: the operation at its front goes, exactly in a released IDLE. -/
theorem step_ops {s t : State} (h : step s = .next t) : t.ops = if s.opReady = true then s.ops.tail else s.ops := by
  rcases step_outcome h with ⟨hr, rfl⟩ | ⟨hr, ho⟩
  · simp [opReady_iff, hr, State.resetBlock]
  · simp only [opReady_iff, hr, true_and]
    exact outcome_ops (s := s.nextCycle) ho

/-- The payload stream: bytes go from its front, exactly where one is offered and TX_PAYLOAD can hand it over. -/
theorem step_pl {s t : State} (h : step s = .next t) :
    ∃ n, t.pl = s.pl.drop n ∧ n ≤ s.pl.length ∧ (0 < n ↔ s.plValid = true ∧ s.plReady = true) := by
  have kept (hp : t.pl = s.pl) (hq : s.rst = true ∨ s.seq ≠ .txPayload) :
      ∃ n, t.pl = s.pl.drop n ∧ n ≤ s.pl.length ∧ (0 < n ↔ s.plValid = true ∧ s.plReady = true) := by
    refine ⟨0, hp, Nat.zero_le _, by simp, ?_⟩
    rintro ⟨-, hready⟩
    obtain ⟨hr, hs, -⟩ := (plReady_iff s).1 hready
    simp [hr, hs] at hq
  rcases step_outcome h with ⟨hr, rfl⟩ | ⟨hr, ho⟩
  · exact kept rfl (.inl hr)
  · by_cases hq : s.seq = .txPayload
    · rw [step_txPayload s hr hq] at h
      cases h
      refine ⟨s.payloadNow.length, sendPayload_pl _, payloadNow_length_le s, ?_⟩
      rw [List.length_pos_iff, payloadNow_ne_nil, plReady_iff, plValid_iff]
      tauto
    · exact kept (outcome_pl (s := s.nextCycle) ho hq) (.inr hq)

/-- The flush lines: a Flush event is added exactly where both are 1. -/
theorem step_flush {s t : State} (h : step s = .next t) :
    t.trace = .flush :: s.trace ↔ s.flushReq = true ∧ s.flushDone = true := by
  rw [flushReq_iff]
  rcases step_outcome h with ⟨hr, rfl⟩ | ⟨hr, ho⟩
  · simp [State.resetBlock, hr]
  · by_cases h1 : s.seq = .txFlush
    · rw [step_txFlush s hr h1] at h
      cases h
      simpa [hr, h1] using firstFlush_trace_iff s.nextCycle
    · by_cases h2 : s.seq = .canFlush
      · rw [step_canFlush s hr h2] at h
        cases h
        simpa [hr, h2] using cancelFlush_trace_iff s.nextCycle
      · simpa [h1, h2] using outcome_noFlush ho h1 h2

/-- Settles O56, port by port. -/
theorem portTransfersHappen : Obligations.PortTransfersHappen := by
  intro s t h
  have ho := step_ops h
  refine ⟨fun _ hr => by rw [ho, if_pos hr], fun hn => ?_, step_pl h, step_flush h⟩
  rw [ho]
  split
  · next hr =>
    have he : s.ops = [] := by simpa [hr] using hn
    rw [he, List.tail_nil]
  · rfl

/-! ### The command port and reset -/

theorem resultOfCode_eq_some_iff (k : BitVec 3) (r : Result) : resultOfCode k = some r ↔ k = r.code := by
  cases r <;> revert k <;> decide

theorem resultOfCode_reserved : ∀ k : BitVec 3, 5 ≤ k.toNat → resultOfCode k = none := by decide

theorem resultOfCode_defined : ∀ k : BitVec 3, k.toNat < 5 → (resultOfCode k).isSome = true := by decide

theorem decode_assertAck {a : BitVec 32} {r : Result} (h : resultOfCode (a.setWidth 3) = some r) :
    decode (.command ⟨2, a⟩) = .ok (.assertAck r) := by
  simp [decode, decodeCommand, h]

theorem decode_assertAck_reserved {a : BitVec 32} (h : resultOfCode (a.setWidth 3) = none) :
    decode (.command ⟨2, a⟩) = .rejected (.reservedResult (a.setWidth 3)) := by
  simp [decode, decodeCommand, h]

/-- Settles O4: for ASSERTACK the operand is the Result of the code in bits 2 to 0. -/
theorem commandPortOperands : Obligations.CommandPortOperands := by
  refine fun a => ⟨rfl, rfl, fun r => ?_, rfl⟩
  rw [← resultOfCode_eq_some_iff]
  cases hk : resultOfCode (a.setWidth 3) with
  | none => rw [decode_assertAck_reserved hk]; simp
  | some r => rw [decode_assertAck hk]; simp

/-- Settles O16: a reserved code decodes to no operation, every other code to an ASSERTACK that ends in IDLE. -/
theorem reservedResultCodesAreRefused : Obligations.ReservedResultCodesAreRefused := by
  intro s a rest hr hq ho
  constructor
  · intro h5
    simp only [step_idle s hr hq, ho, decode_assertAck_reserved (resultOfCode_reserved _ h5), commandRefusal]
  · intro h5
    obtain ⟨r, hk⟩ := Option.isSome_iff_exists.1 (resultOfCode_defined _ h5)
    refine ⟨State.finish (State.ackResult r { s.nextCycle with ops := rest }) { s.nextCycle with ops := rest },
      ?_, rfl, rfl, by simp⟩
    simp only [step_idle s hr hq, ho, decode_assertAck hk, exec, execAssertAck, nextCycle_seq, hq]

/-- Settles O9: the fields of the reset state, and its RXBUF lists no index. -/
theorem stateAfterReset : Obligations.StateAfterReset :=
  ⟨rfl, rfl, rfl, rfl, rfl, rfl, fun _ => rfl⟩

end Sys2Proof.Machine
end

section
/-! The transport's two byte streams: what each kind of step does to the TX wire stream and to the RX wire stream. -/

namespace Sys2Proof.Machine

/-! ### Handing over bytes -/

theorem toNat_pos_iff {n : Length} : 0 < n.toNat ↔ n ≠ 0 :=
  ⟨by rintro h rfl; simp at h, toNat_pos_of_ne_zero⟩

/-- A writing state has a byte to hand over exactly where one is due, and hands it over where the transport takes it. -/
theorem due_take_ne_nil (s : State) {bytes : List Byte} (hb : bytes ≠ []) :
    (s.due bytes).take (s.accepts (s.due bytes).length) ≠ [] ↔ s.hid.cnt ≠ 0 ∧ s.txRoom ≠ some 0 := by
  have hd : 0 < (s.due bytes).length ↔ s.hid.cnt ≠ 0 := by
    have := List.length_pos_iff.2 hb
    rw [State.due, List.length_drop, ← toNat_pos_iff]
    omega
  rw [← List.length_pos_iff, List.length_take, Nat.min_eq_left (accepts_le _ _), accepts_pos, hd]

/-! ### What a step does to the streams -/

/-- What a step does to the two byte streams: bytes join the TX wire stream (only in a writing state), a flush drains
the output path, a read request takes bytes of the RX wire stream, or at most one byte arrives. -/
inductive WireEffect (s t : State) : Prop
  | receives (late : List Byte) : s.seq.writes = false → s.seq.reads = false → t.txSent = s.txSent →
      t.txQueue = s.txQueue → t.rx = s.rx ++ late → OneArrival s t late → WireEffect s t
  | handsOver (out : List Byte) : s.seq.writes = true →
      (out ≠ [] ↔ s.hid.cnt ≠ 0 ∧ (s.seq = .txPayload → s.pl ≠ []) ∧ s.txRoom ≠ some 0) → t.txSent = s.txSent →
      t.txQueue = s.txQueue ++ out → t.rx = s.rx → t.coming = s.coming → WireEffect s t
  | flushes : s.seq = .txFlush ∨ s.seq = .canFlush → t.txSent = s.txSent ++ s.txQueue → t.txQueue = [] →
      t.rx = s.rx → t.coming = s.coming → WireEffect s t
  | reads : s.seq.reads = true → t.txSent = s.txSent → t.txQueue = s.txQueue → t.rx = s.readRequest.state.rx →
      t.coming = s.readRequest.state.coming → WireEffect s t

/-- SEQ and the hidden registers are no part of the streams. -/
theorem WireEffect.control {s t : State} (h : WireEffect s t) (q : SeqState) (hid : Hidden) :
    WireEffect s { t with seq := q, hid := hid } := by
  cases h with
  | receives late hw hr h1 h2 h3 h4 => exact .receives late hw hr h1 h2 h3 h4
  | handsOver out hw ho h1 h2 h3 h4 => exact .handsOver out hw ho h1 h2 h3 h4
  | flushes hq h1 h2 h3 h4 => exact .flushes hq h1 h2 h3 h4
  | reads hq h1 h2 h3 h4 => exact .reads hq h1 h2 h3 h4

/-- A step that keeps both streams, in a state that neither writes nor reads. -/
theorem wire_kept {s t : State} {q : SeqState} (hq : s.seq = q) (h1 : t.txSent = s.txSent) (h2 : t.txQueue = s.txQueue)
    (h3 : t.rx = s.rx) (h4 : t.coming = s.coming) (hw : q.writes = false := by rfl) (hr : q.reads = false := by rfl) :
    WireEffect s t :=
  .receives [] (hq ▸ hw) (hq ▸ hr) h1 h2 (by rw [h3, List.append_nil]) (oneArrival_none h4)

theorem wire_received {s t : State} {q : SeqState} (hq : s.seq = q) (h : OnlyReceives s t)
    (hw : q.writes = false := by rfl) (hr : q.reads = false := by rfl) : WireEffect s t := by
  obtain ⟨⟨_, _, _, rfl⟩, late, hx, ha⟩ := h
  exact .receives late (hq ▸ hw) (hq ▸ hr) rfl rfl hx ha

theorem wire_read {s t : State} {q : SeqState} (hq : s.seq = q) (ht : s.readRequest.state = t)
    (hr : q.reads = true := by rfl) : WireEffect s t := by
  have hk := onlyReads_keeps (readRequest_reads s)
  rw [ht] at hk
  obtain ⟨-, -, -, -, -, -, -, -, hqueue, hsent, -⟩ := hk
  exact .reads (hq ▸ hr) hsent hqueue (by rw [ht]) (by rw [ht])

theorem wire_send {s : State} {q : SeqState} {bytes : List Byte} (hq : s.seq = q) (hb : bytes ≠ [])
    (hw : q.writes = true := by rfl) (hp : q ≠ .txPayload := by decide) : WireEffect s (s.send bytes) := by
  subst hq
  exact .handsOver _ hw (by simp [due_take_ne_nil s hb, hp]) rfl rfl rfl rfl

theorem wire_takePayload {s : State} (hq : s.seq = .txPayload) : WireEffect s s.takePayload :=
  .handsOver s.payloadNow (by rw [hq]; rfl) (by simp [payloadNow_ne_nil, hq]) rfl rfl rfl rfl

/-! ### The effect of each operation -/

theorem firstFlush_wire {s : State} (hq : s.seq = .txFlush) : WireEffect s s.firstFlush := by
  unfold State.firstFlush
  split
  · exact .flushes (.inl hq) rfl rfl rfl rfl
  · exact wire_kept hq rfl rfl rfl rfl

theorem sendHeader_wire {s : State} (hq : s.seq = .txHeader) : WireEffect s (s.sendHeader (txHeader s.hid.tlen)) := by
  have hw := wire_send hq (List.ne_nil_of_length_pos (txHeader_length s.hid.tlen).1)
  unfold State.sendHeader
  dsimp only
  split
  · split
    · exact hw.control _ _
    · exact hw.control _ _
  · exact hw

theorem sendPayload_wire {s : State} (hq : s.seq = .txPayload) : WireEffect s s.sendPayload := by
  unfold State.sendPayload
  dsimp only
  split
  · exact (wire_takePayload hq).control _ _
  · exact wire_takePayload hq

theorem sendTrailer_wire {s : State} (hq : s.seq = .txTrailer) : WireEffect s s.sendTrailer := by
  have hw := wire_send (bytes := txTrailer s.hid.tsum) hq (by simp [txTrailer])
  unfold State.sendTrailer
  dsimp only
  split
  · exact hw.control _ _
  · exact hw

theorem sendCancel_wire {s : State} (hq : s.seq = .canTx) : WireEffect s s.sendCancel := by
  have hw := wire_send (bytes := fixedFrame) hq (by decide)
  unfold State.sendCancel
  dsimp only
  split
  · exact hw.control _ _
  · exact hw

theorem cancelSleep_wire {s : State} (hq : s.seq = .canSleep) : WireEffect s s.cancelSleep := by
  unfold State.cancelSleep
  split
  · exact wire_kept hq rfl rfl rfl rfl
  · exact wire_received hq (waitUntil_spec _ s)

theorem cancelFlush_wire {s : State} (hq : s.seq = .canFlush) : WireEffect s s.cancelFlush := by
  unfold State.cancelFlush
  split
  · exact .flushes (.inr hq) rfl rfl rfl rfl
  · exact wire_kept hq rfl rfl rfl rfl

theorem checkLength_wire {s : State} (hq : s.seq = .rxCheck) (field : List Byte) (dlen : Length) :
    WireEffect s (s.checkLength field dlen) := by
  have hs : WireEffect s s := wire_kept hq rfl rfl rfl rfl
  unfold State.checkLength State.acceptLength
  dsimp only
  split
  · split
    · exact hs.control _ _
    · split
      · exact hs.control _ _
      · exact hs.control _ _
  · exact hs.control _ _

theorem checkTrailer_wire {s t : State} (h : WireEffect s t) : WireEffect s t.checkTrailer := by
  unfold State.checkTrailer
  split
  · exact h.control _ _
  · exact h.control _ _

theorem deliver_wire {s : State} (hq : s.seq = .done) : WireEffect s s.deliver := by
  unfold State.deliver
  split
  · exact wire_kept hq rfl rfl rfl rfl
  · exact wire_kept hq rfl rfl rfl rfl

/-! ### Every step -/

theorem stepKind_wire {s t : State} (h : StepKind s t) : WireEffect s t := by
  have ended {q : SeqState} {r : ReadResult} (hq : s.seq = q) (hr : s.readRequest = r)
      (hs : q.reads = true := by rfl) : WireEffect s r.state := wire_read hq (by rw [hr]) hs
  cases h with
  | arrive hq => exact wire_received hq (arrive_spec s)
  | accept _ _ hq => exact wire_kept hq rfl rfl rfl rfl
  | assertAck _ _ _ hq => exact wire_kept hq rfl rfl rfl rfl
  | setTimeout _ _ hq => exact wire_kept hq rfl rfl rfl rfl
  | firstFlush hq => exact firstFlush_wire hq
  | sendHeader hq => exact sendHeader_wire hq
  | sendPayload hq => exact sendPayload_wire hq
  | sendTrailer hq => exact sendTrailer_wire hq
  | wait _ hq hr => exact ended rfl hr hq
  | ackOk _ hq hr => exact (ended hq hr).control _ _
  | ackWrong _ hq hr => exact (ended hq hr).control _ _
  | ackLate _ hq hr => exact (ended hq hr).control _ _
  | headerShort _ hq hr => exact (ended hq hr).control _ _
  | headerExtended _ hq hr => exact (ended hq hr).control _ _
  | headerWrong _ hq hr => exact (ended hq hr).control _ _
  | headerLate _ hq hr => exact (ended hq hr).control _ _
  | extendedOk _ hq hr => exact (ended hq hr).control _ _
  | extendedLate _ hq hr => exact (ended hq hr).control _ _
  | checkShort hq => exact checkLength_wire hq _ _
  | checkExtended hq => exact checkLength_wire hq _ _
  | payloadOk _ hq _ hr => exact (ended hq hr).control _ _
  | payloadLate _ hq _ hr => exact (ended hq hr).control _ _
  | trailerRead _ hq hr => exact checkTrailer_wire (ended hq hr)
  | trailerLate _ hq hr => exact (ended hq hr).control _ _
  | cancelSend hq => exact sendCancel_wire hq
  | cancelSleep hq => exact cancelSleep_wire hq
  | cancelFlush hq => exact cancelFlush_wire hq
  | deliver hq => exact deliver_wire hq

/-! ### The lines of the transport -/

theorem writes_eq_false_of_reads {q : SeqState} (h : q.reads = true) : q.writes = false := by
  rcases reads_cases h with rfl | rfl | rfl | rfl | rfl <;> rfl

theorem reads_eq_false_of_writes {q : SeqState} (h : q.writes = true) : q.reads = false :=
  Bool.eq_false_iff.2 fun hr => by simp [writes_eq_false_of_reads hr] at h

/-- Where `tx_valid` and `tx_ready` are both 1 in a writing state. -/
theorem txTransfer_iff {s : State} (hr : s.rst = false) (hw : s.seq.writes = true) :
    s.txValid = true ∧ s.txReady = true ↔
      s.hid.cnt ≠ 0 ∧ (s.seq = .txPayload → s.pl ≠ []) ∧ s.txRoom ≠ some 0 := by
  rw [writes_iff] at hw
  rw [txValid_iff, txReady_iff]
  by_cases hq : s.seq = .txPayload
  · simp [hr, hq, and_assoc]
  · simp [hr, hq, hw.resolve_right hq]

theorem txValid_writes {s : State} (h : s.txValid = true) : s.rst = false ∧ s.seq.writes = true := by
  obtain ⟨hr, -, hq⟩ := (txValid_iff s).1 h
  exact ⟨hr, (writes_iff _).2 (hq.imp_right And.left)⟩

/-! ### The two streams and the flush -/

theorem exec_sendRaw_txFlush (n : Length) {s : State} (hq : s.seq = .txFlush) :
    exec (.sendRaw n) s = .next s.firstFlush := by
  simp only [exec, execSendRaw, hq]

theorem exec_cancel_canFlush {s : State} (hq : s.seq = .canFlush) : exec .cancel s = .next s.cancelFlush := by
  simp only [exec, execCancel, hq]

/-- Settles O19: a flush that is answered empties the output path, and only the two flushing states show `flush_req`. -/
theorem flushDrainsOutputOnly : Obligations.FlushDrainsOutputOnly := by
  refine ⟨fun n s hq hf => ?_, fun s hq hf => ?_, fun s t h ht => ?_⟩
  · rw [exec_sendRaw_txFlush n hq, State.firstFlush, if_pos hf]
    rfl
  · rw [exec_cancel_canFlush hq, State.cancelFlush, if_pos hf]
    rfl
  · obtain ⟨hreq, -⟩ := (step_flush h).1 ht
    exact ((flushReq_iff s).1 hreq).2

/-- Settles O43: bytes join the output path in the writing states only, and a flush keeps the stream as a whole. -/
theorem txWireStreamOnlyGrows : Obligations.TxWireStreamOnlyGrows := by
  intro s t h
  have kept (hq : s.rst = true ∨ s.seq.writes = false) (hs : t.txSent ++ t.txQueue = s.txSent ++ s.txQueue) :
      ∃ out, t.txSent ++ t.txQueue = s.txSent ++ s.txQueue ++ out ∧ (out ≠ [] → s.seq.writes = true) ∧
        (out ≠ [] ↔ s.txValid = true ∧ s.txReady = true) := by
    refine ⟨[], by rw [hs, List.append_nil], by simp, by simp, fun ⟨hv, _⟩ => ?_⟩
    simp [txValid_writes hv] at hq
  rcases step_cases h with ⟨hr, rfl⟩ | ⟨hr, hk⟩
  · exact ⟨kept (.inl hr) rfl, fun hne => absurd rfl hne⟩
  · cases stepKind_wire hk with
    | receives _ hw _ hsent hqueue => exact ⟨kept (.inr hw) (by rw [hsent, hqueue]; rfl), fun hne => absurd hsent hne⟩
    | handsOver out hw ho hsent hqueue =>
      refine ⟨⟨out, ?_, fun _ => hw, ho.trans (txTransfer_iff hr hw).symm⟩, fun hne => absurd hsent hne⟩
      rw [hsent, hqueue, List.append_assoc]
      rfl
    | flushes hq hsent hqueue =>
      refine ⟨kept (.inr ?_) (by rw [hsent, hqueue, List.append_nil]; rfl), fun _ => hq⟩
      rcases hq with hq | hq <;> exact congrArg SeqState.writes hq
    | reads hq hsent hqueue =>
      exact ⟨kept (.inr (writes_eq_false_of_reads hq)) (by rw [hsent, hqueue]; rfl), fun hne => absurd hsent hne⟩

/-- Settles O44: only a read request takes bytes, and what joins is at most one arrival. -/
theorem rxWireStreamIsTakenFromTheFront : Obligations.RxWireStreamIsTakenFromTheFront := by
  intro s t h
  have untaken {late : List Byte} (hq : s.rst = true ∨ s.seq.reads = false) (hx : t.rx = s.rx ++ late)
      (ha : OneArrival s t late) :
      ∃ k late, t.rx = s.rx.drop k ++ late ∧ k ≤ s.rx.length ∧ k ≤ s.hid.cnt.toNat ∧
        (0 < k → s.seq.reads = true) ∧ (0 < k ↔ s.rxValid = true ∧ s.rxReady = true) ∧ OneArrival s t late := by
    refine ⟨0, late, hx, Nat.zero_le _, Nat.zero_le _, by simp, ⟨by simp, ?_⟩, ha⟩
    rintro ⟨-, hready⟩
    obtain ⟨hr, hs, -⟩ := (rxReady_iff s).1 hready
    simp [hr, hs] at hq
  rcases step_cases h with ⟨hr, rfl⟩ | ⟨hr, hk⟩
  · exact untaken (.inl hr) (List.append_nil _).symm (oneArrival_none rfl)
  · cases stepKind_wire hk with
    | receives late _ hq _ _ hx ha => exact untaken (.inr hq) hx ha
    | handsOver _ hw _ _ _ hx hc =>
      exact untaken (.inr (reads_eq_false_of_writes hw)) (hx.trans (List.append_nil _).symm) (oneArrival_none hc)
    | flushes hq _ _ hx hc =>
      refine untaken (.inr ?_) (hx.trans (List.append_nil _).symm) (oneArrival_none hc)
      rcases hq with hq | hq <;> exact congrArg SeqState.reads hq
    | reads hq _ _ hx hc =>
      obtain ⟨k, late, hk, hlen, hcnt, hpos, ha⟩ := (readRequest_reads s.nextCycle).stream
      have hq : s.seq.reads = true := hq
      refine ⟨k, late, hx.trans hk, hlen, hcnt, fun _ => hq, hpos.trans ?_, ?_⟩
      · rw [rxValid_iff, rxReady_iff]
        simp only [hr, hq, true_and]
        rfl
      · rw [hc]
        exact ha

end Sys2Proof.Machine
end

section
/-! How a read request goes on: the bytes that are there decide, then the clock, and in each outcome the bytes of the
request are accounted for. -/

namespace Sys2Proof.Machine

/-- A request for at least one byte under a TIMEOUT other than 0: its bytes decide, then the clock (log entry 11). -/
theorem readRequest_timed (s : State) (ht : s.timeout ≠ 0) (hc : s.hid.cnt ≠ 0) :
    s.readRequest =
      if s.hid.cnt.toNat ≤ s.rx.length then .complete s.absorb.readDone
      else if s.timeout.toNat ≤ (s.now - s.hid.t0).toNat then .expired s.absorb.readLost
      else .waiting (s.absorb.waitUntil s.timeout) := by
  split
  · next hr => exact readRequest_ready s ht hc hr
  · next hr =>
    split
    · next he => exact readRequest_late s ht (Nat.lt_of_not_le hr) (decide_eq_true he)
    · next he => exact readRequest_waits s ht (Nat.lt_of_not_le hr) (decide_eq_false he)

/-- What has become of the bytes of the request: all that were needed are taken, or fewer are lost, or those that were
there are taken and the rest is counted. -/
def ReadResult.accountsFor (s : State) : ReadResult → Prop
  | .complete t => s.hid.cnt.toNat ≤ s.rx.length ∧ t.rx = s.rx.drop s.hid.cnt.toNat ∧ t.hid.cnt = 0
  | .expired t => ∃ k, k < s.hid.cnt.toNat ∧ k ≤ s.rx.length ∧ t.rx = s.rx.drop k
  | .waiting t => s.rx.length < s.hid.cnt.toNat ∧ t.rx.length ≤ 1 ∧
      t.hid.cnt.toNat = s.hid.cnt.toNat - s.rx.length

@[simp] theorem readDone_rx (s : State) : s.readDone.rx = s.rx := by unfold State.readDone; split <;> rfl

@[simp] theorem readDone_hid (s : State) : s.readDone.hid = s.hid := by unfold State.readDone; split <;> rfl

theorem absorb_all_taken {s : State} (h : s.hid.cnt.toNat ≤ s.rx.length) :
    (ReadResult.complete s.absorb.readDone).accountsFor s :=
  ⟨h, by rw [readDone_rx, absorb_rx], by rw [readDone_hid, absorb_cnt_zero_iff]; exact h⟩

theorem absorb_short_lost {s : State} (h : s.rx.length < s.hid.cnt.toNat) :
    (ReadResult.expired s.absorb.readLost).accountsFor s := by
  refine ⟨s.rx.length, h, Nat.le_refl _, ?_⟩
  rw [State.readLost, emit_rx, absorb_rx, List.drop_eq_nil_of_le (Nat.le_of_lt h), List.drop_length]

theorem oneArrival_length_le {s t : State} {late : List Byte} (h : OneArrival s t late) : late.length ≤ 1 := by
  rcases h with ⟨rfl, -⟩ | ⟨_, rfl, -⟩ <;> simp

theorem absorb_short_waits {s : State} (ms : Millis) (h : s.rx.length < s.hid.cnt.toNat) :
    (ReadResult.waiting (s.absorb.waitUntil ms)).accountsFor s := by
  obtain ⟨⟨_, _, _, hw⟩, late, hx, ha⟩ := waitUntil_spec ms s.absorb
  refine ⟨h, ?_, ?_⟩
  · rw [hx, absorb_rx, List.drop_eq_nil_of_le (Nat.le_of_lt h), List.nil_append]
    exact oneArrival_length_le ha
  · rw [hw]
    exact absorb_cnt_toNat s

theorem zeroLost_lt {s : State} (hc : s.hid.cnt ≠ 0) : s.zeroLost < s.hid.cnt.toNat := by
  have := toNat_pos_of_ne_zero hc
  unfold State.zeroLost State.zeroMayLose
  omega

theorem readRequest_accountsFor {s : State} (hc : s.hid.cnt ≠ 0) : s.readRequest.accountsFor s := by
  by_cases ht : s.timeout = 0
  · rw [State.readRequest, if_neg hc, if_pos ht, State.readZero]
    split
    · exact ⟨s.zeroLost, zeroLost_lt hc, Nat.min_le_right _ _, rfl⟩
    · dsimp only
      split
      · next hz => exact absorb_all_taken ((absorb_cnt_zero_iff s).1 hz)
      · next hz => exact absorb_short_lost (Nat.lt_of_not_le (mt (absorb_cnt_zero_iff s).2 hz))
  · rw [readRequest_timed s ht hc]
    split
    · next hr => exact absorb_all_taken hr
    · next hr =>
      split
      · exact absorb_short_lost (Nat.lt_of_not_le hr)
      · exact absorb_short_waits _ (Nat.lt_of_not_le hr)

/-- Settles O46: the bytes of the request are accounted for in each of its outcomes, and under a TIMEOUT other than 0 the
bytes that are there and the elapsed time decide which one it is. -/
theorem readRequestIsAllOrNothing : Obligations.ReadRequestIsAllOrNothing := by
  intro s hc
  constructor
  · have ha := readRequest_accountsFor hc
    cases hr : s.readRequest with
    | complete t => rw [hr] at ha; exact .inl ⟨t, rfl, ha⟩
    | expired t =>
      rw [hr] at ha
      obtain ⟨k, hk⟩ := ha
      exact .inr (.inl ⟨t, k, rfl, hk⟩)
    | waiting t => rw [hr] at ha; exact .inr (.inr ⟨t, rfl, ha⟩)
  · intro ht
    rw [readRequest_timed s ht hc]
    generalize (s.now - s.hid.t0).toNat = elapsed
    split
    · next hr => simp [hr, Nat.not_lt.2 hr]
    · next hr =>
      split
      · next he => simp [hr, he, Nat.lt_of_not_le hr, Nat.not_lt.2 he]
      · next he => simp [hr, he, Nat.lt_of_not_le hr, Nat.lt_of_not_le he]

end Sys2Proof.Machine
end

section
/-! A read request that waits: what it holds of its bytes, what the environment does meanwhile, and that the step of a
reading state is that wait. -/

namespace Sys2Proof.Machine

theorem waitUntil_quiet {s : State} (ms : Millis) (h : s.coming = []) :
    s.waitUntil ms = { s with now := if s.clockRuns then s.hid.t0 + ms else s.now } := by
  rw [State.waitUntil, if_pos h]
  split <;> rfl

theorem waitUntil_byte {s : State} {b : Byte} {r : List Arrival} (ms : Millis) (h : s.coming = .byte b :: r) :
    s.waitUntil ms = { s with rx := s.rx ++ [b], coming := r } := by
  simp only [State.waitUntil, State.arrive, h, reduceCtorEq, if_false]

theorem waitUntil_tick {s : State} {r : List Arrival} (ms : Millis) (h : s.coming = .tick :: r) :
    s.waitUntil ms = { s with now := s.now + 1, coming := r } := by
  simp only [State.waitUntil, State.arrive, h, reduceCtorEq, if_false]

/-- In each of the five reading states a step whose request waits is that wait. -/
theorem step_waiting {s t : State} (hr : s.rst = false) (hq : s.seq.reads = true)
    (hd : s.seq = .rxPayload → s.hid.dlen.toNat ≤ 265) (h : s.nextCycle.readRequest = .waiting t) :
    step s = .next t := by
  rcases reads_cases hq with hp | hp | hp | hp | hp
  · rw [step_rxAck s hr hp, h]
  · rw [step_rxHdr s hr hp, h]
  · rw [step_rxExt s hr hp, h]
  · have hd : ¬Config.maxResp < s.nextCycle.hid.dlen.toNat := Nat.not_lt.2 (hd hp)
    rw [step_rxPayload s hr hp, State.receivePayload, if_neg hd, h]
  · rw [step_rxTrailer s hr hp, State.receiveTrailer, h]

theorem absorb_rsum (s : State) : s.absorb.hid.rsum =
    if s.seq = .rxPayload then s.hid.rsum + sum8 (s.rx.take s.hid.cnt.toNat) else s.hid.rsum := by
  split
  · next hq => exact (absorb_payload_writes s hq).2
  · next hq => exact (absorb_fixed_same hq).2

/-- Taking bytes is no wait: nothing arrives and no time passes. -/
theorem absorb_environment (s : State) :
    s.absorb.coming = s.coming ∧ s.absorb.clockRuns = s.clockRuns ∧ s.absorb.now = s.now ∧
      s.absorb.hid.t0 = s.hid.t0 := by
  obtain ⟨_, _, _, _, h, -⟩ := absorb_same s
  rw [h]
  exact ⟨rfl, rfl, rfl, rfl⟩

theorem absorb_rx_short {s : State} (h : s.rx.length < s.hid.cnt.toNat) : s.absorb.rx = [] := by
  rw [absorb_rx, List.drop_eq_nil_of_le (Nat.le_of_lt h)]

@[simp] theorem waitUntil_hid (ms : Millis) (s : State) : (s.waitUntil ms).hid = s.hid := by
  obtain ⟨⟨_, _, _, h⟩, -⟩ := waitUntil_spec ms s
  rw [h]

@[simp] theorem waitUntil_trace (ms : Millis) (s : State) : (s.waitUntil ms).trace = s.trace := by
  obtain ⟨⟨_, _, _, h⟩, -⟩ := waitUntil_spec ms s
  rw [h]

@[simp] theorem waitUntil_gathered (ms : Millis) (s : State) : (s.waitUntil ms).gathered = s.gathered := by
  obtain ⟨⟨_, _, _, h⟩, -⟩ := waitUntil_spec ms s
  rw [h]
  rfl

/-- What a waiting request holds of its bytes: those that were there stand behind those of earlier steps, and RSUM and
CNT count them. -/
theorem absorb_waits_holds {s : State} (ms : Millis) (hn : s.hid.cnt.toNat ≤ s.readCount)
    (hx : s.rx.length < s.hid.cnt.toNat) :
    (s.absorb.waitUntil ms).gathered = s.gathered ++ s.rx ∧
    (s.absorb.waitUntil ms).hid.cnt.toNat = s.hid.cnt.toNat - s.rx.length ∧
    (s.absorb.waitUntil ms).hid.rsum = if s.seq = .rxPayload then s.hid.rsum + sum8 s.rx else s.hid.rsum := by
  have hall : s.rx.take s.hid.cnt.toNat = s.rx := List.take_of_length_le (Nat.le_of_lt hx)
  refine ⟨?_, ?_, ?_⟩
  · rw [waitUntil_gathered, absorb_gathered s hn, hall]
  · rw [waitUntil_hid, absorb_cnt_toNat]
  · rw [waitUntil_hid, absorb_rsum, hall]

/-- What the environment does while a request waits: the next arrival, or with none the time of the request passes if
the clock runs (log entry 28). -/
theorem absorb_waits_environment {s : State} (ms : Millis) (hx : s.rx.length < s.hid.cnt.toNat) :
    (s.coming = [] → (s.absorb.waitUntil ms).rx = [] ∧ (s.absorb.waitUntil ms).coming = [] ∧
      (s.absorb.waitUntil ms).now = if s.clockRuns then s.hid.t0 + ms else s.now) ∧
    (∀ b r, s.coming = .byte b :: r → (s.absorb.waitUntil ms).rx = [b] ∧ (s.absorb.waitUntil ms).coming = r ∧
      (s.absorb.waitUntil ms).now = s.now) ∧
    (∀ r, s.coming = .tick :: r → (s.absorb.waitUntil ms).rx = [] ∧ (s.absorb.waitUntil ms).coming = r ∧
      (s.absorb.waitUntil ms).now = s.now + 1) := by
  obtain ⟨hc, hclock, hnow, ht0⟩ := absorb_environment s
  have hrx := absorb_rx_short hx
  refine ⟨fun h => ?_, fun b r h => ?_, fun r h => ?_⟩
  · rw [waitUntil_quiet ms (hc.trans h), hclock, hnow, ht0]
    exact ⟨hrx, hc.trans h, rfl⟩
  · rw [waitUntil_byte ms (hc.trans h), hrx]
    exact ⟨rfl, rfl, hnow⟩
  · rw [waitUntil_tick ms (hc.trans h), hnow]
    exact ⟨hrx, rfl, rfl⟩

/-- Settles O55: the step is the wait of the request, which has taken the bytes that were there. -/
theorem readsWaitUntilTheirTime : Obligations.ReadsWaitUntilTheirTime := by
  intro s hr hq hn hd ht hx he
  have hw : s.nextCycle.readRequest = .waiting (s.nextCycle.absorb.waitUntil s.timeout) :=
    readRequest_waits s.nextCycle ht hx (decide_eq_false (Nat.not_le.2 he))
  obtain ⟨hseq, htimeout, hrxlen, hdone, hrst, hops, hpl, hclock, hqueue, hsent, hroom, hflush, hpend, hdlen, ht0, -⟩ :=
    onlyReads_keeps (readRequest_waiting hw)
  obtain ⟨hgathered, hcnt, hrsum⟩ := absorb_waits_holds (s := s.nextCycle) s.timeout hn hx
  have htrace : (s.nextCycle.absorb.waitUntil s.timeout).trace = s.trace := by
    rw [waitUntil_trace, absorb_trace, nextCycle_trace]
  exact ⟨_, step_waiting hr hq hd hw, hseq, hgathered, hcnt, ht0, hdlen, hpend, hrsum, htrace, hdone, hrxlen, htimeout,
    ⟨hops, hpl, hrst⟩, ⟨hqueue, hsent, hroom, hflush⟩, hclock, absorb_waits_environment (s := s.nextCycle) _ hx⟩

end Sys2Proof.Machine
end

section
/-! Decoder and encoder: each form of a frame by its bytes, and the two round trips. -/

namespace Sys2Proof.Machine

/-! ### The constant bytes of a header -/

theorem preambleOk_iff (a b c : Byte) : preambleOk a b c = true ↔ a = 0x00 ∧ b = 0x00 ∧ c = 0xFF := by
  simp [preambleOk, and_assoc]

theorem extMarker_iff (d e : Byte) : extMarker d e = true ↔ d = 0xFF ∧ e = 0xFF := by
  simp [extMarker]

theorem dataShort_wellFormed_iff (len lcs : Byte) :
    (Instr.dataShort len lcs).wellFormed = true ↔ extMarker len lcs = false := by
  simp only [Instr.wellFormed, extMarker, Bool.not_eq_true']

/-! ### From instructions to words and back -/

theorem decode_dataShort {len lcs : Byte} (h : extMarker len lcs = false) (d : Direction) :
    decode (.wire d [0x00, 0x00, 0xFF, len, lcs]) = .ok (.dataShort len lcs) := by
  have hp : ¬preambleOk 0x00 0x00 0xFF = false := by decide
  simp only [decode, decodeWire, if_neg hp, h, Bool.false_eq_true, if_false]

/-- Settles O1, form by form: what takes an argument is that a well-formed short header is not the marker, that the code
of a Result is read back as this Result, and that a length passes through 32 bits unchanged. -/
theorem decodeOfEncodeIsTheInstruction : Obligations.DecodeOfEncodeIsTheInstruction := by
  intro i hw
  cases i with
  | ack => rfl
  | cancel => rfl
  | dataShort len lcs => exact decode_dataShort ((dataShort_wellFormed_iff len lcs).1 hw) .fromDevice
  | dataExt => rfl
  | sendRaw len =>
    have hl : (len.setWidth 32).setWidth 16 = len := by simp
    exact congrArg (fun n => Decoded.ok (.sendRaw n)) hl
  | assertAck prev =>
    have hc : (prev.code.setWidth 32).setWidth 3 = prev.code := by simp
    exact decode_assertAck ((resultOfCode_eq_some_iff _ _).2 hc)
  | setTimeout => rfl
  | reservedOp0 => rfl

/-! ### From bytes to the instruction and back -/

/-- The words of `i` are the bytes `b`, and `i` is well formed. -/
def IsFrameOf (i : Instr) (b : List Byte) : Prop := (encode i).bytes = b ∧ i.wellFormed = true

theorem decodeFixed_isFrame {d : Direction} {b : List Byte} {i : Instr} (h : decodeFixed d b = .ok i) :
    IsFrameOf i b := by
  unfold decodeFixed at h
  split at h
  · next hb =>
    subst hb
    cases d <;> cases h <;> exact ⟨rfl, rfl⟩
  · cases h

/-- A header with the preamble and without the marker at its end. -/
theorem dataShort_isFrame {h0 h1 h2 len lcs : Byte} (hp : preambleOk h0 h1 h2 = true)
    (hm : extMarker len lcs = false) : IsFrameOf (.dataShort len lcs) [h0, h1, h2, len, lcs] := by
  obtain ⟨rfl, rfl, rfl⟩ := (preambleOk_iff _ _ _).1 hp
  exact ⟨rfl, (dataShort_wellFormed_iff len lcs).2 hm⟩

/-- A header with the preamble and the marker before its length bytes. -/
theorem dataExt_isFrame {h0 h1 h2 h3 h4 lenH lenL lcs : Byte} (hp : preambleOk h0 h1 h2 = true)
    (hm : extMarker h3 h4 = true) :
    IsFrameOf (.dataExt lenH lenL lcs) [h0, h1, h2, h3, h4, lenH, lenL, lcs] := by
  obtain ⟨rfl, rfl, rfl⟩ := (preambleOk_iff _ _ _).1 hp
  obtain ⟨rfl, rfl⟩ := (extMarker_iff _ _).1 hm
  exact ⟨rfl, rfl⟩

/-- Settles O2: by the number of bytes, and the tests that the decoder makes on them. -/
theorem decodedWireBytesAreTheEncoding : Obligations.DecodedWireBytesAreTheEncoding := by
  intro d bytes i h
  change decodeWire d bytes = .ok i at h
  unfold decodeWire at h
  split at h
  · split at h
    · cases h
    · next hp =>
      split at h
      · cases h
      · next hm =>
        cases h
        exact dataShort_isFrame (by simpa using hp) (by simpa using hm)
  · exact decodeFixed_isFrame h
  · split at h
    · cases h
    · next hp =>
      split at h
      · cases h
      · next hm =>
        cases h
        exact dataExt_isFrame (by simpa using hp) (by simpa using hm)
  · cases h

/-! ### Words of the encoding tables -/

/-- Settles O3: each word is the encoding of its instruction, so the round trip decodes it; the frame to the device
differs from the ACK frame in its direction only. -/
theorem writtenWordsDecode : Obligations.WrittenWordsDecode :=
  ⟨decodeOfEncodeIsTheInstruction .ack rfl, decodeOfEncodeIsTheInstruction .cancel rfl,
    decodeOfEncodeIsTheInstruction (.dataShort 0x04 0xFC) rfl,
    decodeOfEncodeIsTheInstruction (.dataShort 0xFF 0x01) rfl,
    decodeOfEncodeIsTheInstruction (.dataExt 0x01 0x09 0xF6) rfl,
    decodeOfEncodeIsTheInstruction (.sendRaw 256) rfl,
    decodeOfEncodeIsTheInstruction (.assertAck .notFound) rfl,
    decodeOfEncodeIsTheInstruction (.setTimeout 250) rfl⟩

/-- Settles O5: the frame decodes as ACK and CANCEL by the round trip; its first five bytes are a short header, and the
sum of LEN and LCS in it is not 0. -/
theorem fixedFrameBytes : Obligations.FixedFrameBytes :=
  ⟨rfl, decodeOfEncodeIsTheInstruction .ack rfl, decodeOfEncodeIsTheInstruction .cancel rfl,
    decode_dataShort rfl .fromDevice, by decide, by decide⟩

end Sys2Proof.Machine
end

section
/-! The bytes of a data frame in its two forms. -/

namespace Sys2Proof.Machine

theorem txHeader_short {n : Length} (h : n.toNat ≤ 255) :
    txHeader n = [0x00, 0x00, 0xFF, lenLow n, neg8 (lenLow n)] := by
  rw [txHeader, txFrame, Config.shortMax, if_pos h]
  rfl

theorem txHeader_extended {n : Length} (h : 255 < n.toNat) :
    txHeader n =
      [0x00, 0x00, 0xFF, 0xFF, 0xFF, lenHigh n, lenLow n, neg8 (lenHigh n + lenLow n)] := by
  rw [txHeader, txFrame, Config.shortMax, if_neg (Nat.not_le.2 h)]
  rfl

theorem toNat_ofNat_length {n : Nat} (h : n ≤ 65535) : (BitVec.ofNat 16 n : Length).toNat = n := by
  rw [BitVec.toNat_ofNat, Nat.mod_eq_of_lt (by omega)]

theorem lenLow_ofNat {n : Nat} (h : n ≤ 65535) : lenLow (BitVec.ofNat 16 n) = BitVec.ofNat 8 n := by
  rw [lenLow, toNat_ofNat_length h]

theorem lenHigh_ofNat {n : Nat} (h : n ≤ 65535) : lenHigh (BitVec.ofNat 16 n) = BitVec.ofNat 8 (n / 256) := by
  rw [lenHigh, toNat_ofNat_length h]

theorem byte_ofNat_mod (n : Nat) : (BitVec.ofNat 8 (n % 256) : Byte) = BitVec.ofNat 8 n :=
  BitVec.eq_of_toNat_eq (by simp)

/-- The header, the payload, DCS and the trailing zero. -/
theorem frame_length (p : List Byte) :
    (frame p).length = (txHeader (BitVec.ofNat 16 p.length)).length + p.length + 2 := by
  simp [frame, txTrailer, Nat.add_assoc]

/-- Settles O6: a payload of at most 255 bytes goes out behind the short header. -/
theorem shortFrameLayout : Obligations.ShortFrameLayout := by
  intro p hp
  have hl : p.length ≤ 65535 := by omega
  have hh : txHeader (BitVec.ofNat 16 p.length) =
      [0x00, 0x00, 0xFF, BitVec.ofNat 8 p.length, neg8 (BitVec.ofNat 8 p.length)] := by
    rw [txHeader_short (by rwa [toNat_ofNat_length hl]), lenLow_ofNat hl]
  refine ⟨by rw [frame, hh, txTrailer], ?_⟩
  rw [frame_length, hh]
  simp only [List.length_cons, List.length_nil]
  omega

/-- Settles O7: a longer payload goes out behind the extended header, whose length checksum is over both length bytes. -/
theorem extendedFrameLayout : Obligations.ExtendedFrameLayout := by
  intro p hp hl
  have hh : txHeader (BitVec.ofNat 16 p.length) =
      [0x00, 0x00, 0xFF, 0xFF, 0xFF, BitVec.ofNat 8 (p.length / 256), BitVec.ofNat 8 (p.length % 256),
        neg8 (BitVec.ofNat 8 (p.length / 256 + p.length % 256))] := by
    rw [txHeader_extended (by rwa [toNat_ofNat_length hl]), lenHigh_ofNat hl, lenLow_ofNat hl, BitVec.ofNat_add,
      byte_ofNat_mod]
  refine ⟨by rw [frame, hh, txTrailer], ?_⟩
  rw [frame_length, hh]
  simp only [List.length_cons, List.length_nil]
  omega

end Sys2Proof.Machine
end

section
/-! Which steps stop: from the invariant only the reserved codes on the command port do. -/

namespace Sys2Proof.Machine

/-- The operation at the front of the command port runs, past it. -/
theorem step_command {s : State} {c : Command} {rest : List Command} {i : Instr} (hr : s.rst = false)
    (hq : s.seq = .idle) (ho : s.ops = c :: rest) (hd : decode (.command c) = .ok i) :
    step s = exec i { s with done := none, ops := rest } := by
  rw [step_idle s hr hq, ho]
  dsimp only
  rw [hd]
  rfl

theorem exec_sendRaw_idle {n : Length} {s : State} (hq : s.seq = .idle) :
    exec (.sendRaw n) s = .next (s.acceptSendRaw n) := by
  simp only [exec, execSendRaw, hq]

theorem exec_setTimeout_idle {v : Millis} {s : State} (hq : s.seq = .idle) :
    exec (.setTimeout v) s = .next (State.finish .success { s with timeout := v }) := by
  simp only [exec, execSetTimeout, hq]

theorem step_reservedOp {s : State} {a : BitVec 32} {rest : List Command} (hr : s.rst = false) (hq : s.seq = .idle)
    (ho : s.ops = ⟨0, a⟩ :: rest) : step s = .refused .reservedOpCode :=
  step_command hr hq ho rfl

/-- Settles O15: the arm of the row refuses in every state, and op code 0 decodes to that row whatever op_arg is. -/
theorem reservedOpCodeIsRefused : Obligations.ReservedOpCodeIsRefused :=
  ⟨fun _ => rfl, fun _ _ _ hr hq ho => step_reservedOp hr hq ho⟩

/-- The step refuses a reserved code at the front of the command port. -/
def StepRefusesReserved (s : State) : Prop :=
  ∃ c rest, s.ops = c :: rest ∧
    (c.opCode = 0 ∧ step s = .refused .reservedOpCode ∨
      c.opCode = 2 ∧ 5 ≤ (c.opArg.setWidth 3).toNat ∧ step s = .refused (.reservedResultCode (c.opArg.setWidth 3)))

theorem opCode_cases : ∀ op : BitVec 2, op = 0 ∨ op = 1 ∨ op = 2 ∨ op = 3 := by decide

theorem idle_answers {s : State} (hr : s.rst = false) (hq : s.seq = .idle) :
    (∃ t, step s = .next t) ∨ StepRefusesReserved s := by
  cases ho : s.ops with
  | nil => exact .inl ⟨_, by rw [step_idle s hr hq, ho]⟩
  | cons c rest =>
    obtain ⟨op, a⟩ := c
    rcases opCode_cases op with rfl | rfl | rfl | rfl
    · exact .inr ⟨_, _, ho, .inl ⟨rfl, step_reservedOp hr hq ho⟩⟩
    · exact .inl ⟨_, (step_command hr hq ho rfl).trans (exec_sendRaw_idle hq)⟩
    · obtain ⟨hreserved, hdefined⟩ := reservedResultCodesAreRefused s a rest hr hq ho
      by_cases h5 : 5 ≤ (a.setWidth 3).toNat
      · exact .inr ⟨_, _, ho, .inr ⟨rfl, h5, hreserved h5⟩⟩
      · obtain ⟨t, ht, -⟩ := hdefined (Nat.lt_of_not_le h5)
        exact .inl ⟨t, ht⟩
    · exact .inl ⟨_, (step_command hr hq ho rfl).trans (exec_setTimeout_idle hq)⟩

/-- The payload read faults only for a DLEN above 265. -/
theorem receivePayload_next {s : State} (hd : s.hid.dlen.toNat ≤ Config.maxResp) :
    ∃ t, s.receivePayload = .next t := by
  rw [State.receivePayload, if_neg (Nat.not_lt.2 hd)]
  split
  · exact ⟨_, rfl⟩
  · exact ⟨_, rfl⟩
  · exact ⟨_, rfl⟩

theorem dlen_le_of_inv {s : State} (hi : s.Inv) (hq : s.seq = .rxPayload) : s.hid.dlen.toNat ≤ Config.maxResp := by
  obtain ⟨-, hs⟩ := hi
  simp only [State.seqInv, hq] at hs
  exact hs.2.1

/-- Settles O39: by the state of SEQ, where the step is written out as a next state; the invariant is needed for the
payload read only. -/
theorem onlyReservedCodesStop : Obligations.OnlyReservedCodesStop := by
  intro s hi
  cases hr : s.rst with
  | true => exact .inl ⟨s.resetBlock, if_pos hr⟩
  | false =>
    cases hq : s.seq with
    | idle => exact (idle_answers hr hq).imp_right fun h => ⟨rfl, h⟩
    | txFlush => exact .inl ⟨_, step_txFlush s hr hq⟩
    | txHeader => exact .inl ⟨_, step_txHeader s hr hq⟩
    | txPayload => exact .inl ⟨_, step_txPayload s hr hq⟩
    | txTrailer => exact .inl ⟨_, step_txTrailer s hr hq⟩
    | rxAck => exact .inl ⟨_, step_rxAck s hr hq⟩
    | rxHdr => exact .inl ⟨_, step_rxHdr s hr hq⟩
    | rxExt => exact .inl ⟨_, step_rxExt s hr hq⟩
    | rxCheck => exact .inl ⟨_, step_rxCheck s hr hq⟩
    | rxPayload =>
      obtain ⟨t, ht⟩ := receivePayload_next (s := s.nextCycle) (dlen_le_of_inv hi hq)
      exact .inl ⟨t, (step_rxPayload s hr hq).trans ht⟩
    | rxTrailer => exact .inl ⟨_, step_rxTrailer s hr hq⟩
    | canTx => exact .inl ⟨_, step_canTx s hr hq⟩
    | canSleep => exact .inl ⟨_, step_canSleep s hr hq⟩
    | canFlush => exact .inl ⟨_, step_canFlush s hr hq⟩
    | done => exact .inl ⟨_, step_done s hr hq⟩

end Sys2Proof.Machine
end

section
/-! A step runs the instruction that the fetch answers: the operation on the command port, the frame whose bytes a read
position has, or the frame or SENDRAW in progress. -/

namespace Sys2Proof.Machine

/-! ### From fetch to step -/

theorem step_of_fetch_run {s t : State} {i : Instr} (hr : s.rst = false) (h : fetch s.nextCycle = .run i t) :
    step s = exec i t := by
  rw [step_released s hr, h]

theorem fetch_sending {s : State} (hq : s.seq ∈ [.txHeader, .txPayload, .txTrailer]) :
    fetch s = .run (txFrame s.hid.tlen) s := by
  simp only [List.mem_cons, List.not_mem_nil, or_false] at hq
  rcases hq with hq | hq | hq <;> simp only [fetch, hq]

theorem fetch_receiving {s : State} (hq : s.seq ∈ [.rxCheck, .rxPayload, .rxTrailer]) :
    fetch s = .run (rxFrame s.hid.hdr) s := by
  simp only [List.mem_cons, List.not_mem_nil, or_false] at hq
  rcases hq with hq | hq | hq <;> simp only [fetch, hq]

theorem fetch_cancelling {s : State} (hq : s.seq ∈ [.canTx, .canSleep, .canFlush]) : fetch s = .run .cancel s := by
  simp only [List.mem_cons, List.not_mem_nil, or_false] at hq
  rcases hq with hq | hq | hq <;> simp only [fetch, hq]

theorem fetch_sendRaw {s : State} (hq : s.seq ∈ [.txFlush, .done]) : fetch s = .run (.sendRaw s.hid.tlen) s := by
  simp only [List.mem_cons, List.not_mem_nil, or_false] at hq
  rcases hq with hq | hq <;> simp only [fetch, hq]

/-! ### The read positions -/

/-- The fixed-size reads whose bytes are decoded: where in HDR they start, and how many they are (R29, R93). -/
inductive ReadPosition : SeqState → Nat → Nat → Prop
  | ack : ReadPosition .rxAck 0 6
  | header : ReadPosition .rxHdr 0 5
  | extended : ReadPosition .rxExt 5 3

theorem readPosition_spec {s : State} {base n : Nat} (h : ReadPosition s.seq base n) :
    s.seq ≠ .rxPayload ∧ s.readBase = base ∧ s.readCount = n := by
  unfold State.readBase State.readCount
  generalize s.seq = q at h ⊢
  cases h <;> simp

/-- A read at a position, under a TIMEOUT other than 0, whose last byte is there. -/
structure LastByteThere (s : State) (base n : Nat) : Prop where
  position : ReadPosition s.seq base n
  timeout_ne : s.timeout ≠ 0
  cnt_ne : s.hid.cnt ≠ 0
  cnt_le : s.hid.cnt.toNat ≤ n
  there : s.hid.cnt.toNat ≤ s.rx.length

/-- The state past the bytes of such a read: they stand in HDR from `base` on, and the event shows them. -/
def State.pastRead (s : State) (base n : Nat) : State :=
  { s with
    rx := s.rx.drop s.hid.cnt.toNat
    trace := .readOk n (s.gathered ++ s.rx.take s.hid.cnt.toNat) :: s.trace
    hid := { s.hid with
      cnt := 0, hdr := s.hid.hdr.putAll (base + n - s.hid.cnt.toNat) (s.rx.take s.hid.cnt.toNat) } }

theorem readRequest_pastRead {s : State} {base n : Nat} (h : LastByteThere s base n) :
    s.readRequest = .complete (s.pastRead base n) := by
  obtain ⟨hp, ht, hc, hn, hx⟩ := h
  obtain ⟨hq, rfl, rfl⟩ := readPosition_spec hp
  rw [readRequest_last s ht hc hn hx, absorb_fixed s hq hx, State.readSoFar, ← Nat.add_sub_assoc hn]
  rfl

/-- HDR then holds what was in front of the read, the bytes of earlier steps and those of this one. -/
theorem pastRead_header {s : State} {base n : Nat} (h : LastByteThere s base n) :
    (s.pastRead base n).hid.hdr.bytes.take (base + n) =
      s.hid.hdr.bytes.take base ++ s.gathered ++ s.rx.take s.hid.cnt.toNat := by
  obtain ⟨hp, -, -, hn, hx⟩ := h
  obtain ⟨hq, rfl, rfl⟩ := readPosition_spec hp
  have h8 := readBase_fits s hq
  have hl : (s.rx.take s.hid.cnt.toNat).length = s.hid.cnt.toNat := by rw [List.length_take, Nat.min_eq_left hx]
  have hat : s.readBase + s.readCount - s.hid.cnt.toNat = s.readBase + s.readSoFar := Nat.add_sub_assoc hn _
  have hbefore : s.hid.hdr.bytes.take s.readBase ++ s.gathered = s.hid.hdr.bytes.take (s.readBase + s.readSoFar) := by
    rw [gathered_header s hq, List.take_add]
  rw [State.pastRead, putAll_bytes _ _ _ (by omega), hat, hbefore]
  refine List.take_left' ?_
  rw [List.length_append, List.length_take, hdr_bytes_length, hl]
  omega

/-- Eight bytes that are a frame are the extended header with the last three of them. -/
theorem decode_eight {d : Direction} {h : Hdr} {i : Instr} (hd : decode (.wire d h.bytes) = .ok i) :
    i = .dataExt h.b5 h.b6 h.b7 := by
  simp only [decode, Hdr.bytes, decodeWire] at hd
  split at hd
  · cases hd
  · split at hd
    · cases hd
    · cases hd
      rfl

theorem fetch_read {s : State} {base n : Nat} {i : Instr} (h : LastByteThere s base n)
    (hd : decode (.wire .fromDevice (s.hid.hdr.bytes.take base ++ s.gathered ++ s.rx.take s.hid.cnt.toNat)) = .ok i) :
    fetch s = .run i (s.pastRead base n) := by
  have hc := readRequest_pastRead h
  rw [← pastRead_header h] at hd
  obtain ⟨hp, -⟩ := h
  generalize hq : s.seq = q at hp
  cases hp with
  | ack =>
    rw [Nat.zero_add] at hd
    simp only [fetch, hq, fetchAck, hc, hd]
  | header =>
    rw [Nat.zero_add] at hd
    simp only [fetch, hq, fetchHeader, hc, hd]
  | extended => simp only [fetch, hq, fetchExtended, hc, decode_eight hd]

theorem step_read {s : State} {base n : Nat} {i : Instr} (hr : s.rst = false) (h : LastByteThere s base n)
    (hd : decode (.wire .fromDevice (s.hid.hdr.bytes.take base ++ s.gathered ++ s.rx.take s.hid.cnt.toNat)) = .ok i) :
    step s = exec i (s.nextCycle.pastRead base n) :=
  step_of_fetch_run hr (fetch_read (s := s.nextCycle) ⟨h.position, h.timeout_ne, h.cnt_ne, h.cnt_le, h.there⟩ hd)

/-- Settles O18: in IDLE the step runs the command port; at the three read positions the request completes; every other
state runs what is in progress. -/
theorem stepRunsTheDecodedInstruction : Obligations.StepRunsTheDecodedInstruction :=
  ⟨fun _ _ _ _ hr hq ho hd => step_command hr hq ho hd,
    fun _ _ hr ht hq hc hn hx hd => step_read hr ⟨hq ▸ .ack, ht, hc, hn, hx⟩ hd,
    fun _ _ hr ht hq hc hn hx hd => step_read hr ⟨hq ▸ .header, ht, hc, hn, hx⟩ hd,
    fun _ _ hr ht hq hc hn hx hd => step_read hr ⟨hq ▸ .extended, ht, hc, hn, hx⟩ hd,
    fun s hr hq => step_of_fetch_run hr (fetch_sending (s := s.nextCycle) hq),
    fun s hr hq => step_of_fetch_run hr (fetch_receiving (s := s.nextCycle) hq),
    fun s hr hq => step_of_fetch_run hr (fetch_cancelling (s := s.nextCycle) hq),
    fun s hr hq => step_of_fetch_run hr (fetch_sendRaw (s := s.nextCycle) hq)⟩

end Sys2Proof.Machine
end

section
/-! The checksum invariant: what changing one byte does to a byte sum, and what the trailer check makes of it. -/

namespace Sys2Proof.Machine

/-- A changed byte moves the byte sum by the difference of the two bytes; written without a subtraction. -/
theorem sum8_set (p : List Byte) (i : Nat) (h : i < p.length) (b : Byte) :
    sum8 (p.set i b) + p[i] = sum8 p + b := by
  induction p generalizing i with
  | nil => exact absurd h (Nat.not_lt_zero i)
  | cons a p ih =>
    cases i with
    | zero =>
      change b + sum8 p + a = a + sum8 p + b
      ac_rfl
    | succ i =>
      have hip : i < p.length := Nat.lt_of_succ_lt_succ h
      have hi := ih i hip
      change a + sum8 (p.set i b) + p[i] = a + sum8 p + b
      rw [BitVec.add_assoc, hi, BitVec.add_assoc]

theorem cks_eq_iff (p q : List Byte) : cks p = cks q ↔ sum8 p = sum8 q := by
  simp [cks, neg8]

theorem cks_set_ne (p : List Byte) (i : Nat) (h : i < p.length) {b : Byte} (hb : b ≠ p[i]) :
    cks (p.set i b) ≠ cks p := by
  intro hc
  have hs := sum8_set p i h b
  rw [(cks_eq_iff _ _).1 hc] at hs
  exact hb (add_left_cancel hs).symm

theorem trailerOk_iff (rsum t0 t1 : Byte) : trailerOk rsum t0 t1 = true ↔ t0 = neg8 rsum ∧ t1 = 0x00 := by
  simp [trailerOk]

/-- A DCS that is not that of the bytes received is Invalid with cancel, whatever the last byte is (R143). -/
theorem checkTrailer_of_wrong_dcs {s : State} (h : s.hid.hdr.b0 ≠ neg8 s.hid.rsum) :
    s.checkTrailer = s.fail .invalid true :=
  if_neg fun hok => h ((trailerOk_iff _ _ _).1 hok).1

/-- Settles O8: a checksum is the negated byte sum, so equal checksums are equal sums, and one changed byte makes the
sums differ. -/
theorem checksumInvariant : Obligations.ChecksumInvariant := by
  refine ⟨fun p => add_neg8 (sum8 p), fun p d => eq_neg8_iff (sum8 p) d, fun p i h b hb => ?_, fun p q hpq => ?_⟩
  · have hne : cks (p.set i b) ≠ cks p := cks_set_ne p i h hb
    refine ⟨hne, fun s hsum hdcs => checkTrailer_of_wrong_dcs ?_⟩
    rw [hdcs, hsum]
    exact hne.symm
  · exact (trailerOk_iff _ _ _).2 ⟨(cks_eq_iff p q).2 hpq, rfl⟩

end Sys2Proof.Machine
end

section
/-! ENCODE under a transport that accepts everything: the header and the payload, then the trailer, hand over the frame
of the payload. -/

namespace Sys2Proof.Machine

/-- `b` has been handed to the transport, and the pulse of the step before is over. -/
def State.handed (b : List Byte) (s : State) : State :=
  { s with done := none, txQueue := s.txQueue ++ b, trace := addWrite b s.trace }

/-- Writes that follow each other are one contiguous write. -/
theorem handed_handed (a b : List Byte) (s : State) : (s.handed a).handed b = s.handed (a ++ b) := by
  simp only [State.handed, List.append_assoc, addWrite_append]

/-- TX_TRAILER entered once `b` is handed over: `p` has joined TSUM and `more` is left on the payload stream. -/
def State.atTrailer (b p more : List Byte) (s : State) : State :=
  { s.handed b with
    seq := .txTrailer, pl := more, hid := { s.hid with cnt := 2, tsum := s.hid.tsum + sum8 p } }

/-- TX_PAYLOAD entered once the header `b` is handed over. -/
def State.atPayload (b : List Byte) (s : State) : State :=
  { s.handed b with seq := .txPayload, hid := { s.hid with cnt := s.hid.tlen } }

/-- The ACK read opened once `b` is handed over. -/
def State.atAck (b : List Byte) (s : State) : State :=
  { s.handed b with seq := .rxAck, hid := { s.hid with cnt := 6, t0 := s.now } }

theorem atPayload_atTrailer (a p more : List Byte) (s : State) :
    (s.atPayload a).atTrailer p p more = s.atTrailer (a ++ p) p more := by
  rw [State.atTrailer, State.atTrailer, ← handed_handed]
  rfl

/-! ### The steps of the transmit states -/

theorem step_header_empty {s : State} (hr : s.rst = false) (hroom : s.txRoom = none) (hq : s.seq = .txHeader)
    (hc : s.hid.cnt.toNat = (txHeader s.hid.tlen).length) (hz : s.hid.tlen = 0) :
    step s = .next (s.atTrailer (txHeader s.hid.tlen) [] s.pl) := by
  rw [step_txHeader s hr hq, sendHeader_all s.nextCycle _ hroom hc]
  simp only [nextCycle_hid, hz, if_true, State.atTrailer, sum8, add_zero]
  rfl

theorem step_header_payload {s : State} (hr : s.rst = false) (hroom : s.txRoom = none) (hq : s.seq = .txHeader)
    (hc : s.hid.cnt.toNat = (txHeader s.hid.tlen).length) (hz : s.hid.tlen ≠ 0) :
    step s = .next (s.atPayload (txHeader s.hid.tlen)) := by
  rw [step_txHeader s hr hq, sendHeader_all s.nextCycle _ hroom hc]
  simp only [nextCycle_hid, hz, if_false]
  rfl

theorem step_payload {s : State} {p more : List Byte} (hr : s.rst = false) (hroom : s.txRoom = none)
    (hq : s.seq = .txPayload) (hc : s.hid.cnt.toNat = p.length) (hp : s.pl = p ++ more) :
    step s = .next (s.atTrailer p p more) := by
  have hle : s.nextCycle.hid.cnt.toNat ≤ s.nextCycle.pl.length := by simp [hc, hp]
  rw [step_txPayload s hr hq, sendPayload_all s.nextCycle hroom hle]
  simp [hc, hp, State.atTrailer, State.handed]

theorem step_trailer {s : State} (hr : s.rst = false) (hroom : s.txRoom = none) (hq : s.seq = .txTrailer)
    (hc : s.hid.cnt = 2) : step s = .next (s.atAck (txTrailer s.hid.tsum)) := by
  rw [step_txTrailer s hr hq, sendTrailer_all s.nextCycle hroom hc]
  rfl

/-! ### The frame -/

/-- The header and the payload go out in two steps, or in one where there is no payload. -/
theorem header_reaches_trailer {s : State} {p more : List Byte} (hr : s.rst = false) (hroom : s.txRoom = none)
    (hq : s.seq = .txHeader) (hl : s.hid.tlen.toNat = p.length)
    (hc : s.hid.cnt.toNat = (txHeader s.hid.tlen).length) (hp : s.pl = p ++ more) :
    s.reaches 2 (s.atTrailer (txHeader s.hid.tlen ++ p) p more) := by
  by_cases hz : s.hid.tlen = 0
  · obtain rfl : p = [] := by simpa [hz] using hl.symm
    obtain rfl : s.pl = more := hp
    rw [List.append_nil]
    exact reaches_step (step_header_empty hr hroom hq hc hz) (reaches_refl 1 _)
  · have hpay : step (s.atPayload (txHeader s.hid.tlen)) = .next (s.atTrailer (txHeader s.hid.tlen ++ p) p more) := by
      rw [step_payload (s := s.atPayload (txHeader s.hid.tlen)) hr hroom rfl hl hp, atPayload_atTrailer]
    exact reaches_step (step_header_payload hr hroom hq hc hz) (reaches_step hpay (reaches_refl 0 _))

theorem frame_of_tlen {n : Length} {p : List Byte} (hl : n.toNat = p.length) :
    frame p = txHeader n ++ p ++ txTrailer (sum8 p) := by
  rw [frame, ← hl, BitVec.ofNat_toNat, BitVec.setWidth_eq]

/-- Settles O23: the block comes to the trailer with header and payload handed over and TSUM the sum of the payload, and
the trailer completes the frame. -/
theorem encodeWritesTheFrame : Obligations.EncodeWritesTheFrame := by
  intro p more s _ hr hroom hq hl hsum hc hp
  have hbody := header_reaches_trailer hr hroom hq hl hc hp
  have htrailer := step_trailer (s := s.atTrailer (txHeader s.hid.tlen ++ p) p more) hr hroom rfl rfl
  have hframe : frame p = txHeader s.hid.tlen ++ p ++ txTrailer (s.hid.tsum + sum8 p) := by
    rw [hsum, zero_add, frame_of_tlen hl]
  refine ⟨_, reaches_trans hbody (reaches_step htrailer (reaches_refl 0 _)), rfl, rfl, ?_, rfl, ?_, rfl, rfl,
    ⟨rfl, rfl, rfl, fun _ => rfl⟩, ⟨rfl, rfl, rfl, rfl⟩⟩
  · rw [hframe, ← List.append_assoc]
    rfl
  · rw [hframe, addWrite_append]
    rfl

end Sys2Proof.Machine
end

section
/-! RX_CHECK and DONE, and the frames whose words have been read: what their meanings do to the state. -/

namespace Sys2Proof.Machine

/-! ### The length checksum, as numbers -/

/-- The byte sum of 00_scope.md R10, as a number: the sum of the bytes modulo 256. -/
theorem sum8_toNat (p : List Byte) : (sum8 p).toNat = (p.map BitVec.toNat).sum % 256 := by
  induction p with
  | nil => rfl
  | cons b p ih =>
    rw [sum8, BitVec.toNat_add, ih, List.map_cons, List.sum_cons]
    omega

theorem lengthChecksumOk_iff (field : List Byte) :
    lengthChecksumOk field = true ↔ (field.map BitVec.toNat).sum % 256 = 0 := by
  rw [lengthChecksumOk, beq_iff_eq, ← BitVec.toNat_inj, sum8_toNat]
  rfl

theorem shortChecksumOk_iff (len lcs : Byte) :
    lengthChecksumOk [len, lcs] = true ↔ (len.toNat + lcs.toNat) % 256 = 0 := by
  simp [lengthChecksumOk_iff]

theorem extChecksumOk_iff (h l c : Byte) :
    lengthChecksumOk [h, l, c] = true ↔ (h.toNat + l.toNat + c.toNat) % 256 = 0 := by
  simp [lengthChecksumOk_iff, Nat.add_assoc]

theorem extLength_toNat (h l : Byte) : (extLength h l).toNat = 256 * h.toNat + l.toNat :=
  toNat_ofNat_length (by omega)

theorem shortLength_toNat (len : Byte) : (shortLength len).toNat = len.toNat := toNat_ofNat_length (by omega)

/-! ### Frames at their positions -/

theorem exec_dataShort_rxCheck {s : State} (len lcs : Byte) (hq : s.seq = .rxCheck) :
    exec (.dataShort len lcs) s = .next (s.checkLength [len, lcs] (shortLength len)) := by
  simp only [exec, execDataShort, hq]

theorem exec_dataExt_rxCheck {s : State} (h l c : Byte) (hq : s.seq = .rxCheck) :
    exec (.dataExt h l c) s = .next (s.checkLength [h, l, c] (extLength h l)) := by
  simp only [exec, execDataExt, hq]

/-- Settles O28: each of the three frames enters the next state of the table. -/
theorem readFramesGoOn : Obligations.ReadFramesGoOn := by
  refine ⟨fun s hq => ?_, fun len lcs s hq => ?_, fun h l c s hq => ?_⟩
  · simp only [exec, execAck, hq]
    rfl
  · simp only [exec, execDataShort, hq]
    rfl
  · simp only [exec, execDataExt, hq]
    rfl

/-! ### The checks of RX_CHECK -/

theorem checkLength_bad {s : State} {field : List Byte} (dlen : Length) (h : ¬lengthChecksumOk field = true) :
    s.checkLength field dlen = s.fail .invalid false := if_neg h

theorem checkLength_good {s : State} {field : List Byte} (dlen : Length) (h : lengthChecksumOk field = true) :
    s.checkLength field dlen = s.acceptLength dlen := if_pos h

theorem acceptLength_above {s : State} {dlen : Length} (h : 265 < dlen.toNat) :
    s.acceptLength dlen =
      { s with seq := .done, hid := { s.hid with pend := .failed, dlen := dlen, rsum := 0 } } :=
  if_pos h

theorem acceptLength_payload {s : State} {dlen : Length} (h : dlen.toNat ≤ 265) (h0 : 0 < dlen.toNat) :
    s.acceptLength dlen =
      { s with
        seq := .rxPayload, hid := { s.hid with dlen := dlen, rsum := 0, cnt := dlen, t0 := s.now } } := by
  have hz : dlen ≠ 0 := toNat_pos_iff.1 h0
  simp only [State.acceptLength, Config.maxResp, if_neg (Nat.not_lt.2 h), if_neg hz, State.startRead,
    BitVec.ofNat_toNat, BitVec.setWidth_eq]

theorem acceptLength_zero (s : State) :
    s.acceptLength 0 =
      { s with seq := .rxTrailer, hid := { s.hid with dlen := 0, rsum := 0, cnt := 2, t0 := s.now } } :=
  rfl

/-- Settles O29: the bytes of the length field do not sum to 0 in either form. -/
theorem lengthChecksumFailure : Obligations.LengthChecksumFailure := by
  refine ⟨fun len lcs s hq hsum => ?_, fun h l c s hq hsum => ?_⟩
  · rw [exec_dataShort_rxCheck len lcs hq, checkLength_bad _ (mt (shortChecksumOk_iff len lcs).1 hsum)]
    rfl
  · rw [exec_dataExt_rxCheck h l c hq, checkLength_bad _ (mt (extChecksumOk_iff h l c).1 hsum)]
    rfl

/-- Settles O30: with a good checksum the declared length decides between Failed, the payload read and the trailer
read. -/
theorem lengthLimit : Obligations.LengthLimit := by
  refine ⟨fun h l c s hq hsum hn => ?_, fun h l c s hq hsum _ => lengthChecksumFailure.2 h l c s hq hsum,
    fun h l c s hq hsum hn h0 => ?_, fun len lcs s hq hsum h0 => ?_, fun s hq => ⟨?_, ?_⟩⟩
  · rw [exec_dataExt_rxCheck h l c hq, checkLength_good _ ((extChecksumOk_iff h l c).2 hsum),
      acceptLength_above (by rwa [extLength_toNat])]
    rfl
  · rw [exec_dataExt_rxCheck h l c hq, checkLength_good _ ((extChecksumOk_iff h l c).2 hsum),
      acceptLength_payload (by rwa [extLength_toNat]) (by rwa [extLength_toNat])]
    rfl
  · have hpos : 0 < len.toNat := Nat.pos_of_ne_zero fun hz => h0 (BitVec.eq_of_toNat_eq hz)
    rw [exec_dataShort_rxCheck len lcs hq, checkLength_good _ ((shortChecksumOk_iff len lcs).2 hsum),
      acceptLength_payload (by rw [shortLength_toNat]; omega) (by rwa [shortLength_toNat])]
    rfl
  · rw [exec_dataShort_rxCheck 0 0 hq, checkLength_good _ rfl]
    exact congrArg Host.Outcome.next (acceptLength_zero s)
  · rw [exec_dataExt_rxCheck 0 0 0 hq, exec_dataShort_rxCheck 0 0 hq]
    rfl

/-! ### DONE after a Success -/

theorem exec_sendRaw_done (n : Length) {s : State} (hq : s.seq = .done) : exec (.sendRaw n) s = .next s.deliver := by
  simp only [exec, execSendRaw, hq]

theorem deliver_success {s : State} (h : s.hid.pend = .success) :
    s.deliver = (s.keepPayload.forgetHidden).finish .success := by
  rw [State.deliver, if_pos h, h]

/-- A Success keeps the bytes below DLEN and nothing of RXBUF from DLEN on (R23). -/
theorem keepPayload_rxByte (s : State) (i : Nat) :
    s.keepPayload.rxByte i =
      (if i < s.hid.dlen.toNat then Memory.read? s.rxbuf i else none).getD
        (Config.freeRxByte s.keepPayload.draw i) := by
  rw [State.rxByte, State.keepPayload, read_below]

theorem keepPayload_rxByte_below {s : State} (hl : s.listed s.hid.dlen.toNat) {i : Nat} (hi : i < s.hid.dlen.toNat) :
    s.keepPayload.rxByte i = s.rxByte i := by
  obtain ⟨v, hv⟩ := Option.isSome_iff_exists.1 (hl i hi)
  rw [keepPayload_rxByte, if_pos hi, State.rxByte, hv, Option.getD_some, Option.getD_some]

theorem keepPayload_rxByte_above {s : State} {i : Nat} (hi : s.hid.dlen.toNat ≤ i) :
    s.keepPayload.rxByte i = Config.freeRxByte s.keepPayload.draw i := by
  rw [keepPayload_rxByte, if_neg (Nat.not_lt.2 hi), Option.getD_none]

theorem keepPayload_rxlen {s : State} (hd : s.hid.dlen.toNat ≤ 265) :
    s.keepPayload.rxlen.toNat = s.hid.dlen.toNat := by
  rw [State.keepPayload, BitVec.toNat_setWidth, Nat.mod_eq_of_lt (by omega)]

/-- Settles O33: a DLEN within the limit fits RXLEN, and RXBUF keeps what is listed below it. -/
theorem successIsDelivered : Obligations.SuccessIsDelivered := by
  intro n s hq hp hd hl
  refine ⟨_, (exec_sendRaw_done n hq).trans (congrArg _ (deliver_success hp)), rfl, rfl, keepPayload_rxlen hd,
    fun i hi => keepPayload_rxByte_below hl hi, fun i hi => keepPayload_rxByte_above hi, rfl, rfl,
    ⟨rfl, rfl, rfl⟩, ⟨rfl, rfl, rfl, rfl⟩, ⟨rfl, rfl, rfl, rfl⟩⟩

end Sys2Proof.Machine
end

section
/-! The five reads of DECODE: what a completed and an expired request leaves, and the state the step of each reading state
then goes to. -/

namespace Sys2Proof.Machine

/-! ### The number of bytes of each read -/

theorem readCount_rxAck {s : State} (hq : s.seq = .rxAck) : s.readCount = 6 := by simp only [State.readCount, hq]

theorem readCount_rxHdr {s : State} (hq : s.seq = .rxHdr) : s.readCount = 5 := by simp only [State.readCount, hq]

theorem readCount_rxExt {s : State} (hq : s.seq = .rxExt) : s.readCount = 3 := by simp only [State.readCount, hq]

theorem readCount_rxPayload {s : State} (hq : s.seq = .rxPayload) : s.readCount = s.hid.dlen.toNat := by
  simp only [State.readCount, hq]

theorem readCount_rxTrailer {s : State} (hq : s.seq = .rxTrailer) : s.readCount = 2 := by
  simp only [State.readCount, hq]

/-! ### The bytes of a completed request -/

/-- A fixed-size request that completes has the bytes of all its steps at its place in HDR (R29). -/
theorem complete_header {s u : State} (hq : s.seq ≠ .rxPayload) (hc : s.hid.cnt ≠ 0)
    (hn : s.hid.cnt.toNat ≤ s.readCount) (h : s.readRequest = .complete u) :
    (u.hid.hdr.bytes.drop s.readBase).take s.readCount = s.gathered ++ s.rx.take s.hid.cnt.toNat := by
  obtain ⟨hx, _, rfl⟩ := readRequest_completes s u hc hn h
  have hbase : s.absorb.readBase = s.readBase := by unfold State.readBase; rw [absorb_seq]
  rw [← absorb_readBytes s hn hx, State.readBytes, absorb_readCount, hbase]
  split
  · next hp => exact absurd ((absorb_seq s).symm.trans hp) hq
  · rfl

theorem complete_ack {s u : State} (hq : s.seq = .rxAck) (hc : s.hid.cnt ≠ 0) (hn : s.hid.cnt.toNat ≤ s.readCount)
    (h : s.readRequest = .complete u) : u.hid.hdr.bytes.take 6 = s.gathered ++ s.rx.take s.hid.cnt.toNat := by
  simpa [State.readBase, State.readCount, hq] using complete_header (by simp [hq]) hc hn h

theorem complete_five {s u : State} {h0 h1 h2 h3 h4 : Byte} (hq : s.seq = .rxHdr) (hc : s.hid.cnt ≠ 0)
    (hn : s.hid.cnt.toNat ≤ s.readCount) (h : s.readRequest = .complete u)
    (hb : s.gathered ++ s.rx.take s.hid.cnt.toNat = [h0, h1, h2, h3, h4]) :
    u.hid.hdr.b0 = h0 ∧ u.hid.hdr.b1 = h1 ∧ u.hid.hdr.b2 = h2 ∧ u.hid.hdr.b3 = h3 ∧ u.hid.hdr.b4 = h4 := by
  have hh := complete_header (by simp [hq]) hc hn h
  simpa [hb, State.readBase, State.readCount, hq, Hdr.bytes] using hh

theorem complete_trailer {s u : State} {t0 t1 : Byte} (hq : s.seq = .rxTrailer) (hc : s.hid.cnt ≠ 0)
    (hn : s.hid.cnt.toNat ≤ s.readCount) (h : s.readRequest = .complete u)
    (hb : s.gathered ++ s.rx.take s.hid.cnt.toNat = [t0, t1]) : u.hid.hdr.b0 = t0 ∧ u.hid.hdr.b1 = t1 := by
  have hh := complete_header (by simp [hq]) hc hn h
  simpa [hb, State.readBase, State.readCount, hq, Hdr.bytes] using hh

/-- The three length bytes stand behind the header that ends in the marker, so the frame is in extended form. -/
theorem complete_extended {s u : State} {e0 e1 e2 : Byte} (hq : s.seq = .rxExt) (hc : s.hid.cnt ≠ 0)
    (hn : s.hid.cnt.toNat ≤ s.readCount) (h : s.readRequest = .complete u)
    (h5 : s.hid.hdr.bytes.take 5 = [0x00, 0x00, 0xFF, 0xFF, 0xFF])
    (hb : s.gathered ++ s.rx.take s.hid.cnt.toNat = [e0, e1, e2]) : rxFrame u.hid.hdr = .dataExt e0 e1 e2 := by
  have hn3 : s.hid.cnt.toNat ≤ 3 := by rwa [readCount_rxExt hq] at hn
  have hlast : u.hid.hdr.b5 = e0 ∧ u.hid.hdr.b6 = e1 ∧ u.hid.hdr.b7 = e2 := by
    have hh := complete_header (by simp [hq]) hc hn h
    simpa [hb, State.readBase, State.readCount, hq, Hdr.bytes] using hh
  have hfirst : u.hid.hdr.b3 = 0xFF ∧ u.hid.hdr.b4 = 0xFF := by
    obtain ⟨-, _, rfl⟩ := readRequest_completes s u hc hn h
    have hk := (absorb_keeps_header hq hn3).trans h5
    simp only [take_five, List.cons.injEq, and_true] at hk
    exact hk.2.2.2
  obtain ⟨h3, h4⟩ := hfirst
  obtain ⟨rfl, rfl, rfl⟩ := hlast
  rw [rxFrame, if_pos ((extMarker_iff _ _).2 ⟨h3, h4⟩)]

theorem rxFrame_short {h : Hdr} (hm : ¬(h.b3 = 0xFF ∧ h.b4 = 0xFF)) : rxFrame h = .dataShort h.b3 h.b4 := by
  rw [rxFrame, if_neg (mt (extMarker_iff _ _).1 hm)]

/-- What a completed payload read leaves in RXBUF and RSUM (R141). -/
theorem complete_payload {s u : State} (hq : s.seq = .rxPayload) (hc : s.hid.cnt ≠ 0)
    (hn : s.hid.cnt.toNat ≤ s.hid.dlen.toNat) (h : s.readRequest = .complete u) :
    u.hid.rsum = s.hid.rsum + sum8 (s.rx.take s.hid.cnt.toNat) ∧
    (∀ j, j < s.hid.cnt.toNat → Memory.read? u.rxbuf (s.hid.dlen.toNat - s.hid.cnt.toNat + j) = s.rx[j]?) ∧
    (∀ j, j < s.hid.dlen.toNat - s.hid.cnt.toNat ∨ s.hid.dlen.toNat ≤ j →
      Memory.read? u.rxbuf j = Memory.read? s.rxbuf j) := by
  obtain ⟨hx, _, rfl⟩ := readRequest_completes s u hc (by rwa [readCount_rxPayload hq]) h
  have hl : (s.rx.take s.hid.cnt.toNat).length = s.hid.cnt.toNat := by rw [List.length_take, Nat.min_eq_left hx]
  rw [absorb_payload s hq hx]
  refine ⟨rfl, fun j hj => ?_, fun j hj => read_writeAll_outside _ _ _ _ (by omega)⟩
  rw [read_writeAll_inside _ _ _ _ (by omega), List.getElem_take, List.getElem?_eq_getElem (by omega)]

/-! ### What a completed request leaves alone -/

theorem complete_now {s u : State} (hc : s.hid.cnt ≠ 0) (hn : s.hid.cnt.toNat ≤ s.readCount)
    (h : s.readRequest = .complete u) : u.now = s.now := by
  obtain ⟨-, _, rfl⟩ := readRequest_completes s u hc hn h
  obtain ⟨-, -, hnow, -⟩ := absorb_environment s
  exact hnow

/-- What a completed request has taken, and what it keeps. -/
theorem complete_keeps {s u : State} (hc : s.hid.cnt ≠ 0) (hn : s.hid.cnt.toNat ≤ s.readCount)
    (h : s.readRequest = .complete u) :
    s.hid.cnt.toNat ≤ s.rx.length ∧ u.rx = s.rx.drop s.hid.cnt.toNat ∧
      u.trace = .readOk s.readCount (s.gathered ++ s.rx.take s.hid.cnt.toNat) :: s.trace ∧ u.hid.cnt = 0 ∧
      u.hid.dlen = s.hid.dlen ∧ u.hid.pend = s.hid.pend ∧
      (s.seq ≠ .rxPayload → u.rxbuf = s.rxbuf ∧ u.hid.rsum = s.hid.rsum) ∧
      u.rxlen = s.rxlen ∧ u.timeout = s.timeout ∧ u.done = s.done ∧ s.sameHost u ∧ s.sameTx u ∧
      u.coming = s.coming ∧ u.clockRuns = s.clockRuns ∧ u.now = s.now := by
  have hbuf := (readRequest_complete h).buffer
  have hnow := complete_now hc hn h
  obtain ⟨-, htimeout, hrxlen, hdone, hrst, hops, hpl, hclock, hqueue, hsent, hroom, hflush, hpend, hdlen, -⟩ :=
    onlyReads_keeps (readRequest_complete h)
  obtain ⟨hx, _, rfl⟩ := readRequest_completes s u hc hn h
  obtain ⟨hcoming, -⟩ := absorb_environment s
  exact ⟨hx, absorb_rx s, rfl, (absorb_cnt_zero_iff s).2 hx, hdlen, hpend, hbuf, hrxlen, htimeout, hdone,
    ⟨hops, hpl, hrst⟩, ⟨hqueue, hsent, hroom, hflush⟩, hcoming, hclock, hnow⟩

/-! ### The step after a completed request -/

theorem step_ack_complete {s u : State} (hr : s.rst = false) (hq : s.seq = .rxAck) (hc : s.hid.cnt ≠ 0)
    (hn : s.hid.cnt.toNat ≤ s.readCount) (h : s.nextCycle.readRequest = .complete u) :
    step s = .next (if s.gathered ++ s.rx.take s.hid.cnt.toNat = fixedFrame then u.startRead .rxHdr 5
      else u.fail .noAck true) := by
  have hb : u.hid.hdr.bytes.take 6 = s.gathered ++ s.rx.take s.hid.cnt.toNat :=
    complete_ack (s := s.nextCycle) hq hc hn h
  rw [step_rxAck s hr hq, h, ← hb]

theorem step_header_complete {s u : State} {h0 h1 h2 h3 h4 : Byte} (hr : s.rst = false) (hq : s.seq = .rxHdr)
    (hc : s.hid.cnt ≠ 0) (hn : s.hid.cnt.toNat ≤ s.readCount) (h : s.nextCycle.readRequest = .complete u)
    (hb : s.gathered ++ s.rx.take s.hid.cnt.toNat = [h0, h1, h2, h3, h4]) :
    step s = .next (if preambleOk h0 h1 h2 = false then u.fail .invalid true
      else if extMarker h3 h4 = true then u.startRead .rxExt 3 else u.goto .rxCheck) := by
  obtain ⟨rfl, rfl, rfl, rfl, rfl⟩ := complete_five (s := s.nextCycle) hq hc hn h hb
  rw [step_rxHdr s hr hq, h]

theorem step_extended_complete {s u : State} (hr : s.rst = false) (hq : s.seq = .rxExt)
    (h : s.nextCycle.readRequest = .complete u) : step s = .next (u.goto .rxCheck) := by
  rw [step_rxExt s hr hq, h]

theorem receivePayload_complete {s u : State} (hd : s.hid.dlen.toNat ≤ 265) (h : s.readRequest = .complete u) :
    s.receivePayload = .next (u.startRead .rxTrailer 2) := by
  rw [State.receivePayload, Config.maxResp, if_neg (Nat.not_lt.2 hd), h]

theorem receivePayload_expired {s u : State} (hd : s.hid.dlen.toNat ≤ 265) (h : s.readRequest = .expired u) :
    s.receivePayload = .next (u.fail .failed true) := by
  rw [State.receivePayload, Config.maxResp, if_neg (Nat.not_lt.2 hd), h]

theorem receiveTrailer_complete {s u : State} {t0 t1 : Byte} (hq : s.seq = .rxTrailer) (hc : s.hid.cnt ≠ 0)
    (hn : s.hid.cnt.toNat ≤ s.readCount) (h : s.readRequest = .complete u)
    (hb : s.gathered ++ s.rx.take s.hid.cnt.toNat = [t0, t1]) :
    s.receiveTrailer =
      if trailerOk s.hid.rsum t0 t1 = true then State.goto .done { u with hid := { u.hid with pend := .success } }
      else u.fail .invalid true := by
  obtain ⟨rfl, rfl⟩ := complete_trailer hq hc hn h hb
  have hsum : u.hid.rsum = s.hid.rsum := ((readRequest_complete h).buffer (by simp [hq])).2
  rw [State.receiveTrailer, h, ← hsum]
  rfl

theorem receiveTrailer_expired {s u : State} (h : s.readRequest = .expired u) :
    s.receiveTrailer = u.fail .invalid true := by
  rw [State.receiveTrailer, h]

theorem step_trailer_complete {s u : State} {t0 t1 : Byte} (hr : s.rst = false) (hq : s.seq = .rxTrailer)
    (hc : s.hid.cnt ≠ 0) (hn : s.hid.cnt.toNat ≤ s.readCount) (h : s.nextCycle.readRequest = .complete u)
    (hb : s.gathered ++ s.rx.take s.hid.cnt.toNat = [t0, t1]) :
    step s = .next (if trailerOk s.hid.rsum t0 t1 = true
      then State.goto .done { u with hid := { u.hid with pend := .success } } else u.fail .invalid true) := by
  rw [step_rxTrailer s hr hq, receiveTrailer_complete (s := s.nextCycle) hq hc hn h hb]
  rfl

/-- A read opened after the request starts at the time the request was made. -/
theorem startRead_at {u : State} {now : Millis} (q : SeqState) (n : Nat) (h : u.now = now) :
    u.startRead q n = { u with seq := q, hid := { u.hid with cnt := BitVec.ofNat 16 n, t0 := now } } := by
  rw [← h]
  rfl

/-- Settles O57: in each reading state the step writes out as a test of the bytes that the request has gathered. -/
theorem completeReadsGoOn : Obligations.CompleteReadsGoOn := by
  intro s u hr _ hc hn h
  have hnow : u.now = s.now := complete_now (s := s.nextCycle) hc hn h
  refine ⟨complete_keeps (s := s.nextCycle) hc hn h, fun hq => ?_, fun hq h0 h1 h2 h3 h4 hb => ?_, fun hq => ?_,
    fun hq hd => ?_, fun hq t0 t1 hb => ?_⟩
  · have hs := step_ack_complete hr hq hc hn h
    unfold fixedFrame at hs
    refine ⟨fun hb => ?_, fun hb => ?_⟩
    · rw [hs, if_pos hb, startRead_at _ _ hnow]
      rfl
    · rw [hs, if_neg hb]
      rfl
  · have hs := step_header_complete hr hq hc hn h hb
    have hpre (e0 : h0 = 0x00) (e1 : h1 = 0x00) (e2 : h2 = 0xFF) : ¬preambleOk h0 h1 h2 = false := by
      simp [(preambleOk_iff h0 h1 h2).2 ⟨e0, e1, e2⟩]
    refine ⟨fun hp => ?_, fun e0 e1 e2 hm => ?_, fun e0 e1 e2 hm => ⟨?_, ?_⟩⟩
    · rw [hs, if_pos (Bool.eq_false_iff.2 (mt (preambleOk_iff h0 h1 h2).1 hp))]
      rfl
    · rw [hs, if_neg (hpre e0 e1 e2), if_pos ((extMarker_iff h3 h4).2 hm), startRead_at _ _ hnow]
      rfl
    · rw [hs, if_neg (hpre e0 e1 e2), if_neg (mt (extMarker_iff h3 h4).1 hm)]
      rfl
    · obtain ⟨-, -, -, rfl, rfl⟩ := complete_five (s := s.nextCycle) hq hc hn h hb
      exact rxFrame_short hm
  · exact ⟨step_extended_complete hr hq h, fun e0 e1 e2 h5 hb => complete_extended (s := s.nextCycle) hq hc hn h h5 hb⟩
  · have hn : s.hid.cnt.toNat ≤ s.hid.dlen.toNat := by rwa [readCount_rxPayload hq] at hn
    refine ⟨?_, complete_payload (s := s.nextCycle) hq hc hn h⟩
    rw [step_rxPayload s hr hq, receivePayload_complete (s := s.nextCycle) hd h, startRead_at _ _ hnow]
    rfl
  · have hs := step_trailer_complete hr hq hc hn h hb
    refine ⟨fun e0 e1 => ?_, fun hbad => ?_⟩
    · rw [hs, if_pos ((trailerOk_iff _ _ _).2 ⟨e0, e1⟩)]
      rfl
    · rw [hs, if_neg fun hok => not_and_or.2 hbad ((trailerOk_iff _ _ _).1 hok)]
      rfl

/-! ### The step after an expired request -/

/-- Settles O27: the failure path of the five reads, the wait of each, and what an expired request has lost. -/
theorem expiredReadsFailWithCancel : Obligations.ExpiredReadsFailWithCancel := by
  intro s u hr
  refine ⟨fun h => ⟨fun hq => ?_, fun hq => ?_, fun hq => ?_, fun hq hd => ?_, fun hq => ?_⟩, fun h hq => ?_,
    fun h hn => ?_, fun r => ⟨rfl, rfl, rfl, ⟨rfl, rfl, rfl, fun _ => rfl⟩, rfl, rfl, ⟨rfl, rfl, rfl⟩,
      ⟨rfl, rfl, rfl, rfl⟩⟩⟩
  · rw [step_rxAck s hr hq, h]
  · rw [step_rxHdr s hr hq, h]
  · rw [step_rxExt s hr hq, h]
  · rw [step_rxPayload s hr hq, receivePayload_expired (s := s.nextCycle) hd h]
  · rw [step_rxTrailer s hr hq, receiveTrailer_expired h]
  · have hreads : s.seq.reads = true := (reads_iff _).2 (by simp; tauto)
    exact step_waiting hr hreads (fun hp => by simpa [hp] using hq) h
  · obtain ⟨hlost, hcoming, hnow⟩ := readRequest_expires s.nextCycle u hn h
    obtain ⟨-, htimeout, hrxlen, hdone, hrst, hops, hpl, -, hqueue, hsent, hroom, hflush, -⟩ :=
      onlyReads_keeps (readRequest_expired h)
    exact ⟨hlost, fun hq => ((readRequest_expired h).buffer hq).1, hrxlen, htimeout, hdone, ⟨hops, hpl, hrst⟩,
      ⟨hqueue, hsent, hroom, hflush⟩, hcoming, hnow⟩

end Sys2Proof.Machine
end

section
/-! The reads of DECODE under a TIMEOUT other than 0: the bytes that are there decide, and where some are missing the clock
does. -/

namespace Sys2Proof.Machine

/-! ### A timed request that ends -/

/-- The frame of the reads that do not write RXBUF: the registers, the host side, the transmit side and the environment
are as before. -/
def KeepsAllButStream (s t : State) : Prop :=
  s.sameRegs t ∧ s.sameHost t ∧ s.sameTx t ∧ t.now = s.now ∧ t.coming = s.coming

/-- SEQ, the hidden registers and the trace are no part of it. -/
theorem KeepsAllButStream.control {s t : State} (h : KeepsAllButStream s t) (q : SeqState) (hid : Hidden)
    (tr : List Event) : KeepsAllButStream s { t with seq := q, hid := hid, trace := tr } := h

theorem absorb_keeps {s : State} (hq : s.seq ≠ .rxPayload) : KeepsAllButStream s s.absorb := by
  obtain ⟨_, _, _, _, h, hb, -⟩ := absorb_same s
  obtain ⟨hb, -⟩ := hb hq
  rw [h, hb]
  exact ⟨⟨rfl, rfl, rfl, fun _ => rfl⟩, ⟨rfl, rfl, rfl⟩, ⟨rfl, rfl, rfl, rfl⟩, rfl, rfl⟩

/-- The host side, the transmit side and the environment, in every read. -/
theorem absorb_around (s : State) :
    s.absorb.rxlen = s.rxlen ∧ s.absorb.timeout = s.timeout ∧ s.absorb.draw = s.draw ∧
      s.sameHost s.absorb ∧ s.sameTx s.absorb ∧ s.absorb.now = s.now ∧ s.absorb.coming = s.coming := by
  obtain ⟨_, _, _, _, h, -⟩ := absorb_same s
  rw [h]
  exact ⟨rfl, rfl, rfl, ⟨rfl, rfl, rfl⟩, ⟨rfl, rfl, rfl, rfl⟩, rfl, rfl⟩

/-- The event of an expired timed request: all bytes that had arrived in any of its steps are lost (R62). -/
theorem absorb_readLost_trace {s : State} (hn : s.hid.cnt.toNat ≤ s.readCount) (hx : s.rx.length < s.hid.cnt.toNat) :
    s.absorb.readLost.trace =
      .readTimeout s.readCount (s.readCount - s.hid.cnt.toNat + s.rx.length) :: s.trace := by
  rw [State.readLost, emit_trace, absorb_readCount, absorb_readSoFar s hn, absorb_trace,
    List.take_of_length_le (Nat.le_of_lt hx), State.readSoFar]

/-- A timed fixed-size request whose last byte is there. -/
theorem last_completes {s : State} (hq : s.seq ≠ .rxPayload) (ht : s.timeout ≠ 0) (hc : s.hid.cnt ≠ 0)
    (hn : s.hid.cnt.toNat ≤ s.readCount) (hx : s.hid.cnt.toNat ≤ s.rx.length) :
    ∃ u, s.readRequest = .complete u ∧ KeepsAllButStream s u :=
  ⟨_, readRequest_last s ht hc hn hx, (absorb_keeps hq).control _ _ _⟩

/-- A timed fixed-size request with bytes missing when its time is over. -/
theorem late_expires {s : State} (hq : s.seq ≠ .rxPayload) (ht : s.timeout ≠ 0) (hn : s.hid.cnt.toNat ≤ s.readCount)
    (hx : s.rx.length < s.hid.cnt.toNat) (he : s.elapsedReached s.timeout = true) :
    ∃ u, s.readRequest = .expired u ∧ u.rx = [] ∧
      u.trace = .readTimeout s.readCount (s.readCount - s.hid.cnt.toNat + s.rx.length) :: s.trace ∧
      KeepsAllButStream s u :=
  ⟨_, readRequest_late s ht hx he, absorb_rx_short hx, absorb_readLost_trace hn hx, (absorb_keeps hq).control _ _ _⟩

/-! ### The three positions before the payload -/

/-- At a position whose failure path is `r` with cancel, a short read takes it once its time is over. -/
theorem step_late {s : State} {n : Nat} {r : Result} (hq : s.seq ≠ .rxPayload) (hcount : s.readCount = n)
    (hn : s.hid.cnt.toNat ≤ n) (ht : s.timeout ≠ 0) (hx : s.rx.length < s.hid.cnt.toNat)
    (he : s.elapsedReached s.timeout = true)
    (hfail : ∀ u, s.nextCycle.readRequest = .expired u → step s = .next (u.fail r true)) :
    ∃ t, step s = .next t ∧ t.rx = [] ∧ t.seq = .canTx ∧ t.hid.cnt = 6 ∧ t.hid.pend = r ∧
      t.trace = .readTimeout n (n - s.hid.cnt.toNat + s.rx.length) :: s.trace ∧ KeepsAllButStream s t := by
  subst hcount
  obtain ⟨u, hu, hrx, htrace, hkeeps⟩ := late_expires (s := s.nextCycle) hq ht hn hx he
  exact ⟨_, hfail u hu, hrx, rfl, rfl, rfl, htrace, hkeeps.control _ _ _⟩

/-- Settles O24: the completed request goes on as the bytes gathered say, the late one fails. -/
theorem ackPosition : Obligations.AckPosition := by
  refine ⟨fun s hr hq hc hn ht hx => ?_, fun s hr hq hn ht hx he => ?_⟩
  · have hcount := readCount_rxAck hq
    obtain ⟨u, hu, hkeeps⟩ := last_completes (s := s.nextCycle) (by simp [hq]) ht hc (hn.trans_eq hcount.symm) hx
    obtain ⟨⟨-, hrx, htrace, -, -, hpend, -⟩, hack, -⟩ :=
      completeReadsGoOn s u hr (by rw [hq]; rfl) hc (hn.trans_eq hcount.symm) hu
    obtain ⟨hok, hwrong⟩ := hack hq
    rw [hcount] at htrace
    by_cases hb : s.gathered ++ s.rx.take s.hid.cnt.toNat = [0x00, 0x00, 0xFF, 0x00, 0xFF, 0x00]
    · exact ⟨_, hok hb, hrx, htrace, fun _ => ⟨rfl, rfl, rfl, hpend⟩, fun hne => absurd hb hne,
        hkeeps.control _ _ _⟩
    · exact ⟨_, hwrong hb, hrx, htrace, fun he => absurd he hb, fun _ => ⟨rfl, rfl, rfl⟩, hkeeps.control _ _ _⟩
  · exact step_late (by simp [hq]) (readCount_rxAck hq) hn ht hx he fun u hu => by rw [step_rxAck s hr hq, hu]

/-- Settles O25: the completed request goes on by preamble and marker, the late one fails. -/
theorem headerPosition : Obligations.HeaderPosition := by
  refine ⟨fun s h0 h1 h2 h3 h4 hr hq hc hn ht hx hb => ?_, fun s hr hq hn ht hx he => ?_⟩
  · have hcount := readCount_rxHdr hq
    obtain ⟨u, hu, hkeeps⟩ := last_completes (s := s.nextCycle) (by simp [hq]) ht hc (hn.trans_eq hcount.symm) hx
    obtain ⟨⟨-, hrx, htrace, -⟩, -, hheader, -⟩ :=
      completeReadsGoOn s u hr (by rw [hq]; rfl) hc (hn.trans_eq hcount.symm) hu
    obtain ⟨hwrong, hmarker, hshort⟩ := hheader hq h0 h1 h2 h3 h4 hb
    rw [hcount, hb] at htrace
    by_cases hp : h0 = 0x00 ∧ h1 = 0x00 ∧ h2 = 0xFF
    · obtain ⟨e0, e1, e2⟩ := hp
      by_cases hm : h3 = 0xFF ∧ h4 = 0xFF
      · exact ⟨_, hmarker e0 e1 e2 hm, hrx, htrace, fun hne => absurd ⟨e0, e1, e2⟩ hne,
          fun _ _ _ _ => ⟨rfl, rfl, rfl⟩, fun _ _ _ hne => absurd hm hne, hkeeps.control _ _ _⟩
      · obtain ⟨hs, hframe⟩ := hshort e0 e1 e2 hm
        exact ⟨_, hs, hrx, htrace, fun hne => absurd ⟨e0, e1, e2⟩ hne, fun _ _ _ hm' => absurd hm' hm,
          fun _ _ _ _ => ⟨rfl, hframe⟩, hkeeps.control _ _ _⟩
    · exact ⟨_, hwrong hp, hrx, htrace, fun _ => ⟨rfl, rfl, rfl⟩, fun e0 e1 e2 => absurd ⟨e0, e1, e2⟩ hp,
        fun e0 e1 e2 => absurd ⟨e0, e1, e2⟩ hp, hkeeps.control _ _ _⟩
  · exact step_late (by simp [hq]) (readCount_rxHdr hq) hn ht hx he fun u hu => by rw [step_rxHdr s hr hq, hu]

/-- Settles O26: the completed request makes the frame, behind the marker that HDR holds; the late one fails. -/
theorem extendedLengthPosition : Obligations.ExtendedLengthPosition := by
  refine ⟨fun s e0 e1 e2 hr hq hc hn ht h5 hx hb => ?_, fun s hr hq hn ht hx he => ?_⟩
  · have hcount := readCount_rxExt hq
    obtain ⟨u, hu, hkeeps⟩ := last_completes (s := s.nextCycle) (by simp [hq]) ht hc (hn.trans_eq hcount.symm) hx
    obtain ⟨⟨-, hrx, htrace, -⟩, -, -, hext, -⟩ :=
      completeReadsGoOn s u hr (by rw [hq]; rfl) hc (hn.trans_eq hcount.symm) hu
    obtain ⟨hs, hframe⟩ := hext hq
    rw [hcount, hb] at htrace
    exact ⟨_, hs, hrx, htrace, rfl, hframe e0 e1 e2 h5 hb, hkeeps.control _ _ _⟩
  · exact step_late (by simp [hq]) (readCount_rxExt hq) hn ht hx he fun u hu => by rw [step_rxExt s hr hq, hu]

/-! ### The payload and the trailer -/

/-- A data frame in either of its forms. -/
def IsDataFrame (i : Instr) : Prop := (∃ len lcs, i = .dataShort len lcs) ∨ ∃ h l c, i = .dataExt h l c

theorem exec_dataFrame_rxPayload {i : Instr} {s : State} (hi : IsDataFrame i) (hq : s.seq = .rxPayload) :
    exec i s = s.receivePayload := by
  rcases hi with ⟨_, _, rfl⟩ | ⟨_, _, _, rfl⟩ <;> simp only [exec, execDataShort, execDataExt, hq]

theorem exec_dataFrame_rxTrailer {i : Instr} {s : State} (hi : IsDataFrame i) (hq : s.seq = .rxTrailer) :
    exec i s = .next s.receiveTrailer := by
  rcases hi with ⟨_, _, rfl⟩ | ⟨_, _, _, rfl⟩ <;> simp only [exec, execDataShort, execDataExt, hq]

/-- Settles O31: the request completes with the bytes behind those of earlier steps, or expires having written only the
bytes that had arrived. -/
theorem payloadIsStored : Obligations.PayloadIsStored := by
  refine ⟨fun i s hi hq ht hc hn hd hx => ?_, fun i s hi hq ht hd hn hx he => ?_⟩
  · have hcount := readCount_rxPayload hq
    have hu := readRequest_last s ht hc (hn.trans_eq hcount.symm) hx
    rw [hcount] at hu
    obtain ⟨hsum, hinside, houtside⟩ := complete_payload hq hc hn hu
    obtain ⟨-, hrx, htrace, -, hdlen, -⟩ := complete_keeps hc (hn.trans_eq hcount.symm) hu
    obtain ⟨hrxlen, htimeout, hdraw, hhost, htx, hnow, hcoming⟩ := absorb_around s
    rw [hcount] at htrace
    exact ⟨_, (exec_dataFrame_rxPayload hi hq).trans (receivePayload_complete hd hu), rfl, rfl, hnow, hrx, hinside,
      houtside, hsum, htrace, (readRequest_complete hu).header hq, hdlen, hrxlen, htimeout, hdraw, hhost, htx, hnow,
      hcoming⟩
  · have hcount := readCount_rxPayload hq
    have hu := readRequest_late s ht hx he
    have htrace := absorb_readLost_trace (hn.trans_eq hcount.symm) hx
    obtain ⟨hrxlen, htimeout, hdraw, hhost, htx, hnow, hcoming⟩ := absorb_around s
    obtain ⟨hbuf, -⟩ := absorb_payload_writes s hq
    rw [List.take_of_length_le (Nat.le_of_lt hx)] at hbuf
    rw [hcount] at htrace
    refine ⟨_, (exec_dataFrame_rxPayload hi hq).trans (receivePayload_expired hd hu), rfl, rfl, rfl, absorb_rx_short hx,
      htrace, fun j hj => ?_, hrxlen, htimeout, hdraw, hhost, htx, hnow, hcoming⟩
    exact (congrArg (Memory.read? · j) hbuf).trans (read_writeAll_outside _ _ _ _ hj)

/-- Settles O32: the two bytes of a completed request are checked; an expired one fails. -/
theorem trailerIsVerified : Obligations.TrailerIsVerified := by
  refine ⟨fun i s t0 t1 hi hq ht hc hn hx hb => ?_, fun i s hi hq ht hn hx he => ?_⟩
  · have hcount := readCount_rxTrailer hq
    obtain ⟨u, hu, hkeeps⟩ := last_completes (by simp [hq]) ht hc (hn.trans_eq hcount.symm) hx
    obtain ⟨-, hrx, htrace, -, hdlen, -⟩ := complete_keeps hc (hn.trans_eq hcount.symm) hu
    have hs := receiveTrailer_complete hq hc (hn.trans_eq hcount.symm) hu hb
    rw [hcount, hb] at htrace
    by_cases hok : t0 = neg8 s.hid.rsum ∧ t1 = 0x00
    · rw [if_pos ((trailerOk_iff _ _ _).2 hok)] at hs
      exact ⟨_, (exec_dataFrame_rxTrailer hi hq).trans (congrArg _ hs), hrx, htrace, hdlen, fun _ _ => ⟨rfl, rfl⟩,
        fun hbad => absurd hok (not_and_or.2 hbad), hkeeps.control _ _ _⟩
    · rw [if_neg (mt (trailerOk_iff _ _ _).1 hok)] at hs
      exact ⟨_, (exec_dataFrame_rxTrailer hi hq).trans (congrArg _ hs), hrx, htrace, hdlen,
        fun e0 e1 => absurd ⟨e0, e1⟩ hok, fun _ => ⟨rfl, rfl, rfl⟩, hkeeps.control _ _ _⟩
  · have hcount := readCount_rxTrailer hq
    obtain ⟨u, hu, hrx, htrace, hkeeps⟩ := late_expires (by simp [hq]) ht (hn.trans_eq hcount.symm) hx he
    rw [hcount] at htrace
    exact ⟨_, (exec_dataFrame_rxTrailer hi hq).trans (congrArg _ (receiveTrailer_expired hu)), rfl, rfl, rfl, hrx,
      htrace, hkeeps.control _ _ _⟩

end Sys2Proof.Machine
end

section
/-! DECODE on a script, row by row of the failure table, and the good frame. -/

namespace Sys2Proof.Machine

/-! ### Events that come before -/


theorem after_after (r : Reception) (e f : List Event) : (r.after e).after f = r.after (f ++ e) := by
  simp only [Reception.after, List.append_assoc]

/-- The reception answers the Result `r` and, of the cancel column, `c`. -/
def Reception.answers (x : Reception) (r : Result) (c : Bool) : Prop := x.result = r ∧ x.cancel = c

theorem scriptShort_answers (r : Result) (n : Nat) (rx : List Byte) : (scriptShort r n rx).answers r true := ⟨rfl, rfl⟩

/-! ### The ACK frame and the header -/

theorem scriptDecode_short {rx : List Byte} (h : rx.length < 6) : scriptDecode rx = scriptShort .noAck 6 rx := by
  match rx, h with
  | [], _ => rfl
  | [_], _ => rfl
  | [_, _], _ => rfl
  | [_, _, _], _ => rfl
  | [_, _, _, _], _ => rfl
  | [_, _, _, _, _], _ => rfl

theorem scriptDecode_ack (r : List Byte) :
    scriptDecode (fixedFrame ++ r) = (scriptHeader r).after [.readOk 6 fixedFrame] := rfl

theorem scriptDecode_wrong {a : List Byte} (r : List Byte) (h : a.length = 6) (hne : a ≠ fixedFrame) :
    scriptDecode (a ++ r) = ⟨.noAck, true, [], r, [.readOk 6 a]⟩ := by
  match a, h with
  | [_, _, _, _, _, _], _ => exact if_neg hne

theorem scriptHeader_short {rx : List Byte} (h : rx.length < 5) : scriptHeader rx = scriptShort .failed 5 rx := by
  match rx, h with
  | [], _ => rfl
  | [_], _ => rfl
  | [_, _], _ => rfl
  | [_, _, _], _ => rfl
  | [_, _, _, _], _ => rfl

theorem scriptHeader_wrong {h0 h1 h2 : Byte} (h3 h4 : Byte) (r : List Byte)
    (hp : ¬(h0 = 0x00 ∧ h1 = 0x00 ∧ h2 = 0xFF)) :
    (scriptHeader ([h0, h1, h2, h3, h4] ++ r)).answers .invalid true := by
  have hp : preambleOk h0 h1 h2 = false := Bool.eq_false_iff.2 (mt (preambleOk_iff h0 h1 h2).1 hp)
  simp only [scriptHeader, List.cons_append, List.nil_append, hp, if_true]
  exact ⟨rfl, rfl⟩

theorem scriptHeader_short_form {len lcs : Byte} (r : List Byte) (hm : ¬(len = 0xFF ∧ lcs = 0xFF)) :
    scriptHeader ([0x00, 0x00, 0xFF, len, lcs] ++ r) =
      (scriptLength [len, lcs] len.toNat r).after [.readOk 5 [0x00, 0x00, 0xFF, len, lcs]] := by
  have hp : ¬preambleOk 0x00 0x00 0xFF = false := by decide
  simp only [scriptHeader, List.cons_append, List.nil_append, if_neg hp, if_neg (mt (extMarker_iff len lcs).1 hm)]

theorem scriptHeader_marker (r : List Byte) :
    scriptHeader ([0x00, 0x00, 0xFF, 0xFF, 0xFF] ++ r) =
      (scriptExtended r).after [.readOk 5 [0x00, 0x00, 0xFF, 0xFF, 0xFF]] := rfl

theorem scriptHeader_extended (lenH lenL lcs : Byte) (r : List Byte) :
    scriptHeader ([0x00, 0x00, 0xFF, 0xFF, 0xFF, lenH, lenL, lcs] ++ r) =
      (scriptLength [lenH, lenL, lcs] (256 * lenH.toNat + lenL.toNat) r).after
        [.readOk 5 [0x00, 0x00, 0xFF, 0xFF, 0xFF], .readOk 3 [lenH, lenL, lcs]] := rfl

theorem scriptExtended_short {rx : List Byte} (h : rx.length < 3) : (scriptExtended rx).answers .invalid true := by
  match rx, h with
  | [], _ => exact ⟨rfl, rfl⟩
  | [_], _ => exact ⟨rfl, rfl⟩
  | [_, _], _ => exact ⟨rfl, rfl⟩

/-! ### The length -/

theorem scriptLength_bad {field : List Byte} (n : Nat) (rx : List Byte) (h : ¬lengthChecksumOk field = true) :
    (scriptLength field n rx).answers .invalid false := by
  rw [scriptLength, if_pos (Bool.eq_false_iff.2 h)]
  exact ⟨rfl, rfl⟩

theorem scriptLength_good {field : List Byte} (n : Nat) (rx : List Byte) (h : lengthChecksumOk field = true) :
    scriptLength field n rx = if 265 < n then ⟨.failed, false, [], rx, []⟩ else scriptPayload n rx := by
  rw [scriptLength, if_neg (by simp [h])]
  rfl

/-- A short-form header with a good length checksum is not the marker. -/
theorem not_marker_of_checksum {len lcs : Byte} (h : (len.toNat + lcs.toNat) % 256 = 0) :
    ¬(len = 0xFF ∧ lcs = 0xFF) := by
  rintro ⟨rfl, rfl⟩
  exact absurd h (by decide)

/-- Behind the ACK frame and a header that the decoder accepts, only the declared length and the rest count. -/
theorem scriptDecode_header {n : Nat} {h : List Byte} (r : List Byte) (hh : isHeader n h) :
    ∃ e, scriptDecode (fixedFrame ++ h ++ r) =
      (if 265 < n then ⟨.failed, false, [], r, []⟩ else scriptPayload n r : Reception).after e := by
  rw [List.append_assoc, scriptDecode_ack]
  rcases hh with ⟨len, lcs, rfl, hsum, rfl⟩ | ⟨lenH, lenL, lcs, rfl, hsum, rfl⟩
  · rw [scriptHeader_short_form r (not_marker_of_checksum hsum), after_after,
      scriptLength_good _ _ ((shortChecksumOk_iff len lcs).2 hsum)]
    exact ⟨_, rfl⟩
  · rw [scriptHeader_extended, after_after, scriptLength_good _ _ ((extChecksumOk_iff lenH lenL lcs).2 hsum)]
    exact ⟨_, rfl⟩

/-! ### The payload and the trailer -/

theorem scriptPayload_short {n : Nat} {rx : List Byte} (h : rx.length < n) :
    (scriptPayload n rx).answers .failed true := by
  rw [scriptPayload, if_pos h]
  exact scriptShort_answers _ _ _

theorem scriptPayload_enough (p r : List Byte) :
    ∃ e, scriptPayload p.length (p ++ r) = (scriptTrailer p r).after e := by
  rw [scriptPayload, if_neg (by simp), List.take_left, List.drop_left]
  exact ⟨_, rfl⟩

theorem scriptTrailer_short (p : List Byte) {rx : List Byte} (h : rx.length < 2) :
    scriptTrailer p rx = scriptShort .invalid 2 rx := by
  match rx, h with
  | [], _ => rfl
  | [_], _ => rfl

theorem scriptTrailer_good (p r : List Byte) :
    scriptTrailer p (cks p :: 0x00 :: r) = ⟨.success, false, p, r, [.readOk 2 [cks p, 0x00]]⟩ :=
  if_pos ((trailerOk_iff _ _ _).2 ⟨rfl, rfl⟩)

theorem scriptTrailer_wrong (p r : List Byte) {t0 t1 : Byte} (h : t0 ≠ cks p ∨ t1 ≠ 0x00) :
    (scriptTrailer p (t0 :: t1 :: r)).answers .invalid true := by
  rw [scriptTrailer, if_neg fun hok => not_and_or.2 h ((trailerOk_iff _ _ _).1 hok)]
  exact ⟨rfl, rfl⟩

/-- Behind a good header within the limit and the payload it declares, only the trailer counts. -/
theorem scriptDecode_payload {h p : List Byte} (r : List Byte) (hh : isHeader p.length h) (hp : p.length ≤ 265) :
    ∃ e, scriptDecode (fixedFrame ++ h ++ p ++ r) = (scriptTrailer p r).after e := by
  obtain ⟨e, he⟩ := scriptDecode_header (p ++ r) hh
  obtain ⟨f, hf⟩ := scriptPayload_enough p r
  rw [if_neg (Nat.not_lt.2 hp), hf, after_after] at he
  exact ⟨_, by rw [List.append_assoc, he]⟩

/-! ### The frame that ENCODE writes -/

theorem neg8_checksum (len : Byte) : (len.toNat + (neg8 len).toNat) % 256 = 0 := by
  rw [← shortChecksumOk_iff]
  simp [lengthChecksumOk, sum8, neg8]

/-- The header of ENCODE is one that the decoder accepts, in either form (R91, R96). -/
theorem txHeader_isHeader (n : Length) : isHeader n.toNat (txHeader n) := by
  by_cases h : n.toNat ≤ 255
  · refine .inl ⟨lenLow n, neg8 (lenLow n), txHeader_short h, neg8_checksum _, ?_⟩
    rw [lenLow, BitVec.toNat_ofNat, Nat.mod_eq_of_lt (by omega)]
  · refine .inr ⟨lenHigh n, lenLow n, _, txHeader_extended (Nat.lt_of_not_le h), ?_, ?_⟩
    · rw [← extChecksumOk_iff]
      simp [lengthChecksumOk, sum8, neg8]
    · have hn := n.isLt
      rw [lenHigh, lenLow, BitVec.toNat_ofNat, BitVec.toNat_ofNat]
      omega

theorem frame_isHeader {p : List Byte} (hp : p.length ≤ 65535) :
    isHeader p.length (txHeader (BitVec.ofNat 16 p.length)) := by
  have h := txHeader_isHeader (BitVec.ofNat 16 p.length)
  rwa [toNat_ofNat_length hp] at h

/-- Settles O50: each row is the part of the script at which DECODE stops. -/
theorem failureTable : Obligations.FailureTable := by
  refine ⟨fun rx hl => ?_, fun a r ha hne => ?_, fun r hl => ?_, fun h0 h1 h2 h3 h4 r hp => ?_, fun r hl => ?_,
    fun e0 e1 e2 r hsum => ?_, fun l c r hm hsum => ?_, fun n h r hh hn => ?_, fun n h r hh hn hl => ?_,
    fun h p r hh hp hl => ?_, fun h p r t0 t1 hh hp ht => ?_, fun h p r hh hp => ?_, fun p hp => ?_⟩
  · rw [scriptDecode_short hl]
    exact scriptShort_answers _ _ _
  · rw [scriptDecode_wrong r ha hne]
    exact ⟨rfl, rfl⟩
  · rw [scriptDecode_ack, scriptHeader_short hl]
    exact scriptShort_answers .failed 5 r
  · rw [List.append_assoc, scriptDecode_ack]
    exact scriptHeader_wrong h3 h4 r hp
  · rw [List.append_assoc, scriptDecode_ack, scriptHeader_marker]
    exact scriptExtended_short hl
  · rw [List.append_assoc, scriptDecode_ack, scriptHeader_extended]
    exact scriptLength_bad (256 * e0.toNat + e1.toNat) r (mt (extChecksumOk_iff e0 e1 e2).1 hsum)
  · rw [List.append_assoc, scriptDecode_ack, scriptHeader_short_form r hm]
    exact scriptLength_bad l.toNat r (mt (shortChecksumOk_iff l c).1 hsum)
  · obtain ⟨e, he⟩ := scriptDecode_header r hh
    rw [he, if_pos hn]
    exact ⟨rfl, rfl⟩
  · obtain ⟨e, he⟩ := scriptDecode_header r hh
    rw [he, if_neg (Nat.not_lt.2 hn)]
    exact scriptPayload_short hl
  · obtain ⟨e, he⟩ := scriptDecode_payload r hh hp
    rw [he, scriptTrailer_short p hl]
    exact scriptShort_answers .invalid 2 r
  · obtain ⟨e, he⟩ := scriptDecode_payload (t0 :: t1 :: r) hh hp
    rw [he]
    exact scriptTrailer_wrong p r ht
  · obtain ⟨e, he⟩ := scriptDecode_payload (cks p :: 0x00 :: r) hh hp
    rw [List.append_assoc _ [cks p, 0x00] r, List.cons_append, List.cons_append, List.nil_append, he,
      scriptTrailer_good]
    rfl
  · exact ⟨frame_isHeader hp, rfl⟩

end Sys2Proof.Machine
end

section
/-! A whole SENDRAW under an environment that keeps its duties: from the command port to the ACK read, and the cancel
sequence. -/

namespace Sys2Proof.Machine

/-- A run goes on by one step. -/
theorem reaches_then {n : Nat} {s t u : State} (h : s.reaches n t) (hs : step t = .next u) : s.reaches (n + 1) u :=
  reaches_trans h (reaches_step hs (reaches_refl 0 u))

/-! ### From the command port to the ACK read -/

theorem step_accept {s : State} {a : BitVec 32} {rest : List Command} (hr : s.rst = false) (hq : s.seq = .idle)
    (ho : s.ops = ⟨1, a⟩ :: rest) :
    step s = .next (State.acceptSendRaw (a.setWidth 16) { s with done := none, ops := rest }) :=
  (step_command hr hq ho rfl).trans (exec_sendRaw_idle hq)

theorem step_firstFlush {s : State} (hr : s.rst = false) (hq : s.seq = .txFlush) (hf : s.flushDone = true) :
    step s = .next (s.nextCycle.flushed.startWrite .txHeader (txHeader s.hid.tlen).length) := by
  rw [step_txFlush s hr hq, State.firstFlush]
  exact congrArg Host.Outcome.next (if_pos hf)

/-- From TX_HEADER on the frame goes out, and the ACK read is opened. -/
theorem frame_reaches_ack {s : State} {p more : List Byte} (hr : s.rst = false) (hroom : s.txRoom = none)
    (hq : s.seq = .txHeader) (hl : s.hid.tlen.toNat = p.length) (hsum : s.hid.tsum = 0)
    (hc : s.hid.cnt.toNat = (txHeader s.hid.tlen).length) (hp : s.pl = p ++ more) :
    s.reaches 3 { s with
      done := none, txQueue := s.txQueue ++ frame p, trace := addWrite (frame p) s.trace
      seq := .rxAck, pl := more, hid := { s.hid with cnt := 6, t0 := s.now, tsum := sum8 p } } := by
  have hbody := header_reaches_trailer hr hroom hq hl hc hp
  have htrailer := step_trailer (s := s.atTrailer (txHeader s.hid.tlen ++ p) p more) hr hroom rfl rfl
  have hrun := reaches_then hbody htrailer
  simpa only [State.atAck, State.atTrailer, State.handed, hsum, zero_add, List.append_assoc, ← addWrite_append,
    frame_of_tlen hl] using hrun

/-- The ACK read of a SENDRAW of `q` that an idle block had on its command port: the old output has left the output
path, the frame of `q` stands in it. -/
def State.ackOpened (q more : List Byte) (rest : List Command) (s : State) : State :=
  { s with
    done := none, ops := rest, pl := more, seq := .rxAck
    txSent := s.txSent ++ s.txQueue, txQueue := frame q, trace := .write (frame q) :: .flush :: s.trace
    hid := { s.hid with tlen := BitVec.ofNat 16 q.length, tsum := sum8 q, cnt := 6, t0 := s.now } }

/-- A frame behind a Flush is a write of its own. -/
theorem addWrite_frame (q : List Byte) (tr : List Event) :
    addWrite (frame q) (.flush :: tr) = .write (frame q) :: .flush :: tr := by
  cases hf : frame q with
  | nil =>
    have hl := frame_length q
    rw [hf, List.length_nil] at hl
    omega
  | cons b w => rfl

theorem sendRaw_reaches_ack {s : State} {a : BitVec 32} {q more : List Byte} {rest : List Command} (he : s.EnvReady)
    (hq : s.seq = .idle) (ho : s.ops = ⟨1, a⟩ :: rest) (hl : (a.setWidth 16).toNat = q.length)
    (hp : s.pl = q ++ more) : s.reaches 5 (s.ackOpened q more rest) := by
  obtain ⟨hr, hflush, hroom, -⟩ := he
  have hlen : BitVec.ofNat 16 q.length = a.setWidth 16 := by rw [← hl, BitVec.ofNat_toNat, BitVec.setWidth_eq]
  have hcnt : (BitVec.ofNat 16 (txHeader (a.setWidth 16)).length).toNat = (txHeader (a.setWidth 16)).length := by
    rw [BitVec.toNat_ofNat, Nat.mod_eq_of_lt (txHeader_length _).2]
  rw [State.ackOpened, ← addWrite_frame, hlen]
  exact reaches_step (step_accept hr hq ho)
    (reaches_step (step_firstFlush hr rfl hflush) (frame_reaches_ack hr hroom rfl hl rfl hcnt hp))

/-! ### The cancel sequence -/

/-- The sleep entered once the cancel frame is handed over. -/
def State.cancelSent (s : State) : State :=
  { s.handed fixedFrame with seq := .canSleep, hid := { s.hid with cnt := 0, t0 := s.now } }

theorem step_cancelSend {s : State} (hr : s.rst = false) (hroom : s.txRoom = none) (hq : s.seq = .canTx)
    (hc : s.hid.cnt = 6) : step s = .next s.cancelSent := by
  rw [step_canTx s hr hq, sendCancel_all s.nextCycle hroom hc]
  rfl

theorem step_sleepOver {s : State} (hr : s.rst = false) (hq : s.seq = .canSleep)
    (he : s.elapsedReached Config.sleepTicks = true) :
    step s = .next { s with done := none, seq := .canFlush, trace := .sleep 1 :: s.trace } := by
  rw [step_canSleep s hr hq, State.cancelSleep]
  exact congrArg Host.Outcome.next (if_pos he)

theorem step_sleepWaits {s : State} (hr : s.rst = false) (hq : s.seq = .canSleep)
    (he : ¬s.elapsedReached Config.sleepTicks = true) :
    step s = .next (s.nextCycle.waitUntil Config.sleepTicks) := by
  rw [step_canSleep s hr hq, State.cancelSleep]
  exact congrArg Host.Outcome.next (if_neg he)

theorem step_cancelFlush {s : State} (hr : s.rst = false) (hq : s.seq = .canFlush) (hf : s.flushDone = true) :
    step s = .next (s.nextCycle.flushed.goto .done) := by
  rw [step_canFlush s hr hq, State.cancelFlush]
  exact congrArg Host.Outcome.next (if_pos hf)

/-- The end of the sleep, whatever has arrived meanwhile. -/
def State.slept (rx : List Byte) (coming : List Arrival) (now : Millis) (s : State) : State :=
  { s with done := none, seq := .canFlush, trace := .sleep 1 :: s.trace, rx := rx, coming := coming, now := now }

/-- A sleep that starts its last wait at T0 + 2 is over (R224). -/
theorem sleep_over_at_end {s : State} (h : s.now = s.hid.t0 + Config.sleepTicks) :
    s.elapsedReached Config.sleepTicks = true := by
  have he : s.elapsed = Config.sleepTicks := by rw [State.elapsed, h, BitVec.add_comm, BitVec.add_sub_cancel]
  rw [State.elapsedReached, he, decide_eq_true_iff]

theorem sleep_over_reaches {s : State} (n : Nat) (hr : s.rst = false) (hq : s.seq = .canSleep)
    (he : s.elapsedReached Config.sleepTicks = true) : s.reaches (n + 1) (s.slept s.rx s.coming s.now) :=
  reaches_step (step_sleepOver hr hq he) (reaches_refl n _)

/-- A wait with something still to arrive takes the first of it. -/
theorem waitUntil_arrival {s : State} {x : Arrival} {r : List Arrival} (ms : Millis) (h : s.coming = x :: r) :
    ∃ late now, s.waitUntil ms = { s with rx := s.rx ++ late, coming := r, now := now } := by
  cases x with
  | byte b => exact ⟨[b], s.now, waitUntil_byte ms h⟩
  | tick => exact ⟨[], s.now + 1, by rw [List.append_nil]; exact waitUntil_tick ms h⟩

/-- Every arrival takes one step; after the last the clock runs to the end of the sleep. -/
theorem sleep_reaches_flush {s : State} (hr : s.rst = false) (hclock : s.clockRuns = true) (hq : s.seq = .canSleep) :
    ∃ late coming now, s.reaches (s.coming.length + 2) (s.slept (s.rx ++ late) coming now) := by
  induction hcoming : s.coming generalizing s with
  | nil =>
    by_cases he : s.elapsedReached Config.sleepTicks = true
    · exact ⟨[], s.coming, s.now, by rw [List.append_nil]; exact sleep_over_reaches 1 hr hq he⟩
    · have hwait := step_sleepWaits hr hq he
      rw [waitUntil_quiet (s := s.nextCycle) _ hcoming, nextCycle_clockRuns, if_pos hclock] at hwait
      refine ⟨[], s.coming, s.hid.t0 + Config.sleepTicks, ?_⟩
      rw [List.append_nil]
      exact reaches_step hwait (sleep_over_reaches 0 hr hq (sleep_over_at_end rfl))
  | cons x r ih =>
    by_cases he : s.elapsedReached Config.sleepTicks = true
    · exact ⟨[], s.coming, s.now, by rw [List.append_nil]; exact sleep_over_reaches _ hr hq he⟩
    · have hwait := step_sleepWaits hr hq he
      obtain ⟨b, t, hb⟩ := waitUntil_arrival (s := s.nextCycle) Config.sleepTicks hcoming
      rw [hb] at hwait
      obtain ⟨late, coming, now, hrun⟩ :=
        ih (s := { s.nextCycle with rx := s.rx ++ b, coming := r, now := t }) hr hclock hq rfl
      refine ⟨b ++ late, coming, now, ?_⟩
      rw [← List.append_assoc]
      exact reaches_step hwait hrun

/-- The end of the cancel sequence, whatever has arrived meanwhile. -/
def State.cancelled (rx : List Byte) (coming : List Arrival) (now : Millis) (s : State) : State :=
  { s with
    done := none, seq := .done, rx := rx, coming := coming, now := now
    txSent := s.txSent ++ (s.txQueue ++ fixedFrame), txQueue := []
    trace := .flush :: .sleep 1 :: addWrite fixedFrame s.trace
    hid := { s.hid with cnt := 0, t0 := s.now } }

/-- From CAN_TX the cancel frame, the sleep and the flush follow each other (R160). -/
theorem cancel_reaches_done {s : State} (he : s.EnvReady) (hq : s.seq = .canTx) (hc : s.hid.cnt = 6) :
    ∃ late coming now, s.reaches (s.coming.length + 4) (s.cancelled (s.rx ++ late) coming now) := by
  obtain ⟨hr, hflush, hroom, hclock⟩ := he
  obtain ⟨late, coming, now, hsleep⟩ := sleep_reaches_flush (s := s.cancelSent) hr hclock rfl
  have hslept : s.reaches (s.coming.length + 3) (s.cancelSent.slept (s.rx ++ late) coming now) :=
    reaches_step (step_cancelSend hr hroom hq hc) hsleep
  have hflushed := step_cancelFlush (s := s.cancelSent.slept (s.rx ++ late) coming now) hr rfl hflush
  exact ⟨late, coming, now, reaches_then hslept hflushed⟩

end Sys2Proof.Machine
end

section
/-! The round trip: the ACK frame and the frame of a payload, received by the machine step by step. -/

namespace Sys2Proof.Machine

/-! ### Where the receive part stands -/

/-- What no step of the receive part touches. -/
structure ReceiveFrame (s t : State) : Prop where
  timeout : t.timeout = s.timeout
  host : s.sameHost t
  transmit : s.sameTx t
  coming : t.coming = s.coming
  clockRuns : t.clockRuns = s.clockRuns

/-- SEQ, the hidden registers and the RX wire stream are no part of it. -/
theorem ReceiveFrame.control {s t : State} (h : ReceiveFrame s t) (q : SeqState) (hid : Hidden) (rx : List Byte) :
    ReceiveFrame s { t with seq := q, hid := hid, rx := rx } :=
  ⟨h.timeout, h.host, h.transmit, h.coming, h.clockRuns⟩

theorem receiveFrame_nextCycle (s : State) : ReceiveFrame s s.nextCycle :=
  ⟨rfl, ⟨rfl, rfl, rfl⟩, ⟨rfl, rfl, rfl, rfl⟩, rfl, rfl⟩

theorem ReceiveFrame.trans {s t u : State} (h1 : ReceiveFrame s t) (h2 : ReceiveFrame t u) : ReceiveFrame s u := by
  obtain ⟨a1, ⟨b1, c1, d1⟩, ⟨e1, f1, g1, i1⟩, j1, k1⟩ := h1
  obtain ⟨a2, ⟨b2, c2, d2⟩, ⟨e2, f2, g2, i2⟩, j2, k2⟩ := h2
  exact ⟨a2.trans a1, ⟨b2.trans b1, c2.trans c1, d2.trans d1⟩,
    ⟨e2.trans e1, f2.trans f1, g2.trans g1, i2.trans i1⟩, j2.trans j1, k2.trans k1⟩

theorem ReceiveFrame.envReady {s t : State} (h : ReceiveFrame s t) (he : s.EnvReady) : t.EnvReady := by
  obtain ⟨-, ⟨-, -, hrst⟩, ⟨-, -, hroom, hflush⟩, -, hclock⟩ := h
  exact ⟨hrst.trans he.released, hflush.trans he.flushes, hroom.trans he.accepts, hclock.trans he.clock⟩

/-- The block is in state `q` of the receive part, with the bytes `rx` in front of it and a TIMEOUT other than 0. -/
structure Receiving (s : State) (q : SeqState) (rx : List Byte) : Prop where
  released : s.rst = false
  timeout_ne : s.timeout ≠ 0
  seq : s.seq = q
  stream : s.rx = rx

/-- A part that leads to `r` and leaves the bytes `left` keeps reset released and TIMEOUT as it is. -/
theorem Receiving.next {s t : State} {q r : SeqState} {rx left : List Byte} (h : Receiving s q rx)
    (hf : ReceiveFrame s t) (hq : t.seq = r) (hx : t.rx = left) : Receiving t r left := by
  obtain ⟨htimeout, ⟨-, -, hrst⟩, -⟩ := hf
  exact ⟨hrst.trans h.released, by rw [htimeout]; exact h.timeout_ne, hq, hx⟩

/-- A request that has just been opened and finds its bytes there completes with them. -/
theorem opened_completes {s : State} {q : SeqState} {b r : List Byte} (h : Receiving s q (b ++ r))
    (hn : s.readCount = b.length) (hc : s.hid.cnt.toNat = b.length) (hb : b ≠ []) :
    ∃ u, s.nextCycle.readRequest = .complete u ∧ s.hid.cnt ≠ 0 ∧ s.hid.cnt.toNat ≤ s.readCount ∧
      s.gathered ++ s.rx.take s.hid.cnt.toNat = b ∧ u.rx = r ∧ ReceiveFrame s u := by
  obtain ⟨-, ht, -, hx⟩ := h
  have hne : s.hid.cnt ≠ 0 := toNat_pos_iff.1 (by rw [hc]; exact List.length_pos_iff.2 hb)
  have hle : s.hid.cnt.toNat ≤ s.readCount := by rw [hc, hn]
  have hu := readRequest_last s.nextCycle ht hne hle (show s.hid.cnt.toNat ≤ s.rx.length by simp [hc, hx])
  obtain ⟨-, hrx, -, -, -, -, -, -, htimeout, -, hhost, htx, hcoming, hclock, -⟩ :=
    complete_keeps (s := s.nextCycle) hne hle hu
  refine ⟨_, hu, hne, hle, ?_, ?_, ⟨htimeout, hhost, htx, hcoming, hclock⟩⟩
  · rw [State.gathered, State.readSoFar, hn, hc, Nat.sub_self, hx, List.take_left]
    rfl
  · refine hrx.trans ?_
    rw [nextCycle_hid, nextCycle_rx, hc, hx, List.drop_left]

/-! ### The ACK frame and the header -/

theorem receiving_ack {s : State} {a r : List Byte} (h : Receiving s .rxAck (a ++ r)) (hc : s.hid.cnt = 6)
    (ha : a.length = 6) :
    ∃ u, step s = .next (if a = fixedFrame then u.startRead .rxHdr 5 else u.fail .noAck true) ∧ u.rx = r ∧
      ReceiveFrame s u := by
  obtain ⟨u, hu, hne, hle, hb, hx, hf⟩ := opened_completes h ((readCount_rxAck h.seq).trans ha.symm)
    (by rw [hc, ha]; rfl) (by rintro rfl; simp at ha)
  have hs := step_ack_complete h.released h.seq hne hle hu
  rw [hb] at hs
  exact ⟨u, hs, hx, hf⟩

theorem receiving_ackFrame {s : State} {r : List Byte} (h : Receiving s .rxAck (fixedFrame ++ r))
    (hc : s.hid.cnt = 6) :
    ∃ t, step s = .next t ∧ Receiving t .rxHdr r ∧ t.hid.cnt = 5 ∧ ReceiveFrame s t := by
  obtain ⟨u, hs, hx, hf⟩ := receiving_ack h hc rfl
  rw [if_pos rfl] at hs
  have hf := hf.control .rxHdr { u.hid with cnt := 5, t0 := u.now } u.rx
  exact ⟨_, hs, h.next hf rfl hx, rfl, hf⟩

/-- At RX_CHECK, with the length checksum good and a declared length of `n`. -/
def Declares (n : Nat) (s : State) : Prop := step s = .next (s.nextCycle.acceptLength (BitVec.ofNat 16 n))

theorem step_check_frame {s : State} (hr : s.rst = false) (hq : s.seq = .rxCheck) :
    step s = exec (rxFrame s.hid.hdr) s.nextCycle :=
  step_of_fetch_run hr (fetch_receiving (s := s.nextCycle) (by simp [hq]))

theorem declares_short {s : State} {len lcs : Byte} {r : List Byte} (h : Receiving s .rxCheck r)
    (hframe : rxFrame s.hid.hdr = .dataShort len lcs) (hsum : (len.toNat + lcs.toNat) % 256 = 0) :
    Declares len.toNat s := by
  rw [Declares, step_check_frame h.released h.seq, hframe, exec_dataShort_rxCheck (s := s.nextCycle) len lcs h.seq,
    checkLength_good _ ((shortChecksumOk_iff len lcs).2 hsum)]
  rfl

theorem declares_extended {s : State} {lenH lenL lcs : Byte} {r : List Byte} (h : Receiving s .rxCheck r)
    (hframe : rxFrame s.hid.hdr = .dataExt lenH lenL lcs) (hsum : (lenH.toNat + lenL.toNat + lcs.toNat) % 256 = 0) :
    Declares (256 * lenH.toNat + lenL.toNat) s := by
  rw [Declares, step_check_frame h.released h.seq, hframe, exec_dataExt_rxCheck (s := s.nextCycle) lenH lenL lcs h.seq,
    checkLength_good _ ((extChecksumOk_iff lenH lenL lcs).2 hsum)]
  rfl

theorem receiving_shortHeader {s : State} {len lcs : Byte} {r : List Byte}
    (h : Receiving s .rxHdr ([0x00, 0x00, 0xFF, len, lcs] ++ r)) (hc : s.hid.cnt = 5)
    (hsum : (len.toNat + lcs.toNat) % 256 = 0) :
    ∃ t, step s = .next t ∧ Receiving t .rxCheck r ∧ Declares len.toNat t ∧ ReceiveFrame s t := by
  obtain ⟨u, hu, hne, hle, hb, hx, hf⟩ := opened_completes h (readCount_rxHdr h.seq) (by rw [hc]; rfl) (by simp)
  have hm := not_marker_of_checksum hsum
  have hs := step_header_complete h.released h.seq hne hle hu hb
  rw [if_neg (by decide), if_neg (mt (extMarker_iff len lcs).1 hm)] at hs
  obtain ⟨-, -, -, rfl, rfl⟩ := complete_five (s := s.nextCycle) h.seq hne hle hu hb
  have hf := hf.control .rxCheck u.hid u.rx
  have ht := h.next hf rfl hx
  exact ⟨_, hs, ht, declares_short ht (rxFrame_short hm) hsum, hf⟩

theorem receiving_marker {s : State} {r : List Byte}
    (h : Receiving s .rxHdr ([0x00, 0x00, 0xFF, 0xFF, 0xFF] ++ r)) (hc : s.hid.cnt = 5) :
    ∃ t, step s = .next t ∧ Receiving t .rxExt r ∧ t.hid.cnt = 3 ∧
      t.hid.hdr.bytes.take 5 = [0x00, 0x00, 0xFF, 0xFF, 0xFF] ∧ ReceiveFrame s t := by
  obtain ⟨u, hu, hne, hle, hb, hx, hf⟩ := opened_completes h (readCount_rxHdr h.seq) (by rw [hc]; rfl) (by simp)
  have hs := step_header_complete h.released h.seq hne hle hu hb
  rw [if_neg (by decide), if_pos (by decide)] at hs
  obtain ⟨e0, e1, e2, e3, e4⟩ := complete_five (s := s.nextCycle) h.seq hne hle hu hb
  have hf := hf.control .rxExt { u.hid with cnt := 3, t0 := u.now } u.rx
  refine ⟨_, hs, h.next hf rfl hx, rfl, ?_, hf⟩
  rw [startRead_hdr, take_five, e0, e1, e2, e3, e4]

theorem receiving_lengthBytes {s : State} {lenH lenL lcs : Byte} {r : List Byte}
    (h : Receiving s .rxExt ([lenH, lenL, lcs] ++ r)) (hc : s.hid.cnt = 3)
    (h5 : s.hid.hdr.bytes.take 5 = [0x00, 0x00, 0xFF, 0xFF, 0xFF])
    (hsum : (lenH.toNat + lenL.toNat + lcs.toNat) % 256 = 0) :
    ∃ t, step s = .next t ∧ Receiving t .rxCheck r ∧ Declares (256 * lenH.toNat + lenL.toNat) t ∧
      ReceiveFrame s t := by
  obtain ⟨u, hu, hne, hle, hb, hx, hf⟩ := opened_completes h (readCount_rxExt h.seq) (by rw [hc]; rfl) (by simp)
  have hframe : rxFrame u.hid.hdr = .dataExt lenH lenL lcs :=
    complete_extended (s := s.nextCycle) h.seq hne hle hu h5 hb
  have hf := hf.control .rxCheck u.hid u.rx
  have ht := h.next hf rfl hx
  exact ⟨_, step_extended_complete h.released h.seq hu, ht, declares_extended ht hframe hsum, hf⟩

/-- Any header that the decoder accepts leads to RX_CHECK, with its declared length. -/
theorem receiving_header {s : State} {n : Nat} {h r : List Byte} (hat : Receiving s .rxHdr (h ++ r))
    (hc : s.hid.cnt = 5) (hh : isHeader n h) :
    ∃ t, s.reaches 2 t ∧ Receiving t .rxCheck r ∧ Declares n t ∧ ReceiveFrame s t := by
  rcases hh with ⟨len, lcs, rfl, hsum, rfl⟩ | ⟨lenH, lenL, lcs, rfl, hsum, rfl⟩
  · obtain ⟨t, hs, ht, hd, hf⟩ := receiving_shortHeader hat hc hsum
    exact ⟨t, reaches_step hs (reaches_refl 1 t), ht, hd, hf⟩
  · obtain ⟨t, hs, ht, hc, h5, hf⟩ := receiving_marker (r := [lenH, lenL, lcs] ++ r) hat hc
    obtain ⟨t', hs', ht', hd, hf'⟩ := receiving_lengthBytes ht hc h5 hsum
    exact ⟨t', reaches_step hs (reaches_step hs' (reaches_refl 0 t')), ht', hd, hf.trans hf'⟩

/-! ### The payload and the trailer -/

/-- The payload `p` has been received: DLEN, RSUM and RXBUF hold its length, its sum and its bytes. -/
structure PayloadIn (s : State) (p : List Byte) : Prop where
  dlen : s.hid.dlen.toNat = p.length
  rsum : s.hid.rsum = sum8 p
  stored : ∀ j, j < p.length → Memory.read? s.rxbuf j = p[j]?

theorem receiving_tooLong {s : State} {n : Nat} {r : List Byte} (h : Receiving s .rxCheck r) (hd : Declares n s)
    (hn : 265 < n) (hmax : n ≤ 65535) :
    ∃ t, step s = .next t ∧ Receiving t .done r ∧ t.hid.pend = .failed ∧ ReceiveFrame s t := by
  rw [Declares, acceptLength_above (by rwa [toNat_ofNat_length hmax])] at hd
  have hf := (receiveFrame_nextCycle s).control .done
    { s.hid with pend := .failed, dlen := BitVec.ofNat 16 n, rsum := 0 } s.rx
  exact ⟨_, hd, h.next hf rfl h.stream, rfl, hf⟩

theorem receiving_payload {s : State} {p r : List Byte} (h : Receiving s .rxPayload (p ++ r)) (hp : p.length ≤ 265)
    (hne : p ≠ []) (hd : s.hid.dlen.toNat = p.length) (hc : s.hid.cnt = s.hid.dlen) (hsum : s.hid.rsum = 0) :
    ∃ t, step s = .next t ∧ Receiving t .rxTrailer r ∧ t.hid.cnt = 2 ∧ PayloadIn t p ∧ ReceiveFrame s t := by
  have hcount : s.hid.cnt.toNat = p.length := by rw [hc, hd]
  obtain ⟨u, hu, hne, hle, hb, hx, hf⟩ := opened_completes h ((readCount_rxPayload h.seq).trans hd) hcount hne
  obtain ⟨hrsum, hstored, -⟩ := complete_payload (s := s.nextCycle) h.seq hne (by simp [hcount, hd]) hu
  have hf := hf.control .rxTrailer { u.hid with cnt := 2, t0 := u.now } u.rx
  refine ⟨u.startRead .rxTrailer 2, ?_, h.next hf rfl hx, rfl, ⟨?_, ?_, fun j hj => ?_⟩, hf⟩
  · rw [step_rxPayload s h.released h.seq, receivePayload_complete (s := s.nextCycle) (by simp [hd, hp]) hu]
  · obtain ⟨-, -, -, -, hdlen, -⟩ := complete_keeps (s := s.nextCycle) hne hle hu
    rw [startRead_dlen, hdlen, nextCycle_hid, hd]
  · rw [startRead_rsum, hrsum, nextCycle_hid, nextCycle_rx, hsum, hcount, h.stream, List.take_left, zero_add]
  · have hj' := hstored j (by simpa [hcount] using hj)
    rw [nextCycle_hid, nextCycle_rx, hcount, hd, Nat.sub_self, Nat.zero_add, h.stream,
      List.getElem?_append_left hj] at hj'
    exact hj'

/-- Within the limit the payload, if there is one, is read; then the trailer read is opened. -/
theorem receiving_declared {s : State} {p r : List Byte} (h : Receiving s .rxCheck (p ++ r))
    (hd : Declares p.length s) (hp : p.length ≤ 265) :
    ∃ t, s.reaches 2 t ∧ Receiving t .rxTrailer r ∧ t.hid.cnt = 2 ∧ PayloadIn t p ∧ ReceiveFrame s t := by
  by_cases hne : p = []
  · subst hne
    have hf := (receiveFrame_nextCycle s).control .rxTrailer
      { s.hid with dlen := 0, rsum := 0, cnt := 2, t0 := s.now } s.rx
    exact ⟨_, reaches_step hd (reaches_refl 1 _), h.next hf rfl h.stream, rfl,
      ⟨rfl, rfl, fun j hj => absurd hj (Nat.not_lt_zero j)⟩, hf⟩
  · have hl : (BitVec.ofNat 16 p.length : Length).toNat = p.length := toNat_ofNat_length (by omega)
    rw [Declares, acceptLength_payload (by rwa [hl]) (by rw [hl]; exact List.length_pos_iff.2 hne)] at hd
    have hf := (receiveFrame_nextCycle s).control .rxPayload
      { s.hid with dlen := BitVec.ofNat 16 p.length, rsum := 0, cnt := BitVec.ofNat 16 p.length, t0 := s.now } s.rx
    obtain ⟨t, hs, ht, hc, hin, hf'⟩ := receiving_payload (h.next hf rfl h.stream) hp hne hl rfl rfl
    exact ⟨t, reaches_step hd (reaches_step hs (reaches_refl 0 t)), ht, hc, hin, hf.trans hf'⟩

theorem receiving_trailer {s : State} {p r : List Byte} (h : Receiving s .rxTrailer ([cks p, 0x00] ++ r))
    (hc : s.hid.cnt = 2) (hin : PayloadIn s p) :
    ∃ t, step s = .next t ∧ Receiving t .done r ∧ t.hid.pend = .success ∧ PayloadIn t p ∧ ReceiveFrame s t := by
  obtain ⟨u, hu, hne, hle, hb, hx, hf⟩ := opened_completes h (readCount_rxTrailer h.seq) (by rw [hc]; rfl) (by simp)
  obtain ⟨-, -, -, -, hdlen, -, hbuf, -⟩ := complete_keeps (s := s.nextCycle) hne hle hu
  obtain ⟨hbuf, hrsum⟩ := hbuf (by simp [h.seq])
  have hs := step_trailer_complete h.released h.seq hne hle hu hb
  rw [if_pos ((trailerOk_iff _ _ _).2 ⟨by rw [hin.rsum]; rfl, rfl⟩)] at hs
  have hf := hf.control .done { u.hid with pend := .success } u.rx
  exact ⟨_, hs, h.next hf rfl hx, rfl,
    ⟨(congrArg _ hdlen).trans hin.dlen, hrsum.trans hin.rsum, fun j hj => hbuf ▸ hin.stored j hj⟩, hf⟩

/-! ### DONE -/

theorem receiving_success {s : State} {p r : List Byte} (h : Receiving s .done r) (hp : p.length ≤ 265)
    (hpend : s.hid.pend = .success) (hin : PayloadIn s p) :
    ∃ t, step s = .next t ∧ t.seq = .idle ∧ t.done = some .success ∧ t.rxlen.toNat = p.length ∧
      t.rxBytes p.length = p ∧ t.rx = r ∧ t.timeout = s.timeout ∧ s.sameHost t := by
  obtain ⟨hdlen, -, hstored⟩ := hin
  have hlisted : s.nextCycle.listed s.hid.dlen.toNat := fun j hj => by
    rw [hdlen] at hj
    rw [nextCycle_rxbuf, hstored j hj, List.getElem?_eq_getElem hj, Option.isSome_some]
  obtain ⟨t, ht, hseq, hdone, hrxlen, hbelow, -, htimeout, -, hhost, -, hrx, -⟩ :=
    successIsDelivered 0 s.nextCycle h.seq hpend (by simp [hdlen, hp]) hlisted
  rw [exec_sendRaw_done (s := s.nextCycle) 0 h.seq, ← step_done s h.released h.seq] at ht
  have hbytes : t.rxBytes p.length = s.rxBytes p.length :=
    List.map_congr_left fun i hi => hbelow i (by rw [nextCycle_hid, hdlen]; exact List.mem_range.1 hi)
  exact ⟨t, ht, hseq, hdone, hrxlen.trans hdlen, hbytes.trans (rxBytes_of_listed s p hstored), hrx.trans h.stream,
    htimeout, hhost⟩

@[simp] theorem deliver_rx (s : State) : s.deliver.rx = s.rx := by unfold State.deliver; split <;> rfl

theorem deliver_sameTx (s : State) : s.sameTx s.deliver := by
  unfold State.deliver
  split
  · exact ⟨rfl, rfl, rfl, rfl⟩
  · exact ⟨rfl, rfl, rfl, rfl⟩

/-- Whatever the Result is, DONE delivers it and leaves the streams alone. -/
theorem receiving_done {s : State} {r : List Byte} (h : Receiving s .done r) :
    ∃ t, step s = .next t ∧ t.seq = .idle ∧ t.done = some s.hid.pend ∧ t.rx = r ∧ s.sameTx t :=
  ⟨_, step_done s h.released h.seq, deliver_seq _, deliver_done _, (deliver_rx _).trans h.stream,
    deliver_sameTx s.nextCycle⟩

/-! ### The round trip -/

/-- The ACK read that a SENDRAW has opened. -/
theorem receiving_ackOpened {s : State} (q more : List Byte) (rest : List Command) (he : s.EnvReady)
    (ht : s.timeout ≠ 0) : Receiving (s.ackOpened q more rest) .rxAck s.rx :=
  ⟨he.released, ht, rfl, rfl⟩

/-- Behind the ACK frame, the header that ENCODE writes is read and accepted. -/
theorem receiving_frame {s : State} {p late : List Byte} (h : Receiving s .rxAck (fixedFrame ++ frame p ++ late))
    (hc : s.hid.cnt = 6) (hp : p.length ≤ 65535) :
    ∃ t, s.reaches 3 t ∧ Receiving t .rxCheck (p ++ ([cks p, 0x00] ++ late)) ∧ Declares p.length t ∧
      ReceiveFrame s t := by
  have hframe : fixedFrame ++ frame p ++ late =
      fixedFrame ++ (txHeader (BitVec.ofNat 16 p.length) ++ (p ++ ([cks p, 0x00] ++ late))) := by
    simp [frame, txTrailer, cks]
  rw [hframe] at h
  obtain ⟨t, hs, ht, hc, hf⟩ := receiving_ackFrame h hc
  obtain ⟨u, hu, hcheck, hd, hf'⟩ := receiving_header ht hc (frame_isHeader hp)
  exact ⟨u, reaches_step hs hu, hcheck, hd, hf.trans hf'⟩

/-- A frame of at most 265 bytes behind the ACK frame is delivered. -/
theorem receiving_ends_success {s : State} {p late : List Byte}
    (h : Receiving s .rxAck (fixedFrame ++ frame p ++ late)) (hc : s.hid.cnt = 6) (hp : p.length ≤ 265) :
    ∃ t, s.reaches 7 t ∧ t.seq = .idle ∧ t.done = some .success ∧ t.rxlen.toNat = p.length ∧
      t.rxBytes p.length = p ∧ t.rx = late ∧ t.timeout = s.timeout ∧ s.sameHost t := by
  obtain ⟨t1, hs1, h1, hd, hf1⟩ := receiving_frame h hc (by omega)
  obtain ⟨t2, hs2, h2, hc2, hin2, hf2⟩ := receiving_declared h1 hd hp
  obtain ⟨t3, hs3, h3, hpend, hin3, hf3⟩ := receiving_trailer h2 hc2 hin2
  obtain ⟨t4, hs4, hseq, hdone, hrxlen, hbytes, hrx, htimeout, hops, hpl, hrst⟩ := receiving_success h3 hp hpend hin3
  obtain ⟨htimeout3, ⟨hops3, hpl3, hrst3⟩, -⟩ := (hf1.trans hf2).trans hf3
  exact ⟨t4, reaches_then (reaches_then (reaches_trans hs1 hs2) hs3) hs4, hseq, hdone, hrxlen, hbytes, hrx,
    htimeout.trans htimeout3, hops.trans hops3, hpl.trans hpl3, hrst.trans hrst3⟩

/-- A longer one fails with its payload unread. -/
theorem receiving_ends_failed {s : State} {p late : List Byte}
    (h : Receiving s .rxAck (fixedFrame ++ frame p ++ late)) (hc : s.hid.cnt = 6) (hp : 265 < p.length)
    (hmax : p.length ≤ 65535) :
    ∃ t, s.reaches 5 t ∧ t.seq = .idle ∧ t.done = some .failed ∧ t.rx = p ++ [cks p, 0x00] ++ late ∧ s.sameTx t := by
  obtain ⟨t1, hs1, h1, hd, hf1⟩ := receiving_frame h hc hmax
  obtain ⟨t2, hs2, h2, hpend, hf2⟩ := receiving_tooLong h1 hd hp hmax
  obtain ⟨t3, hs3, hseq, hdone, hrx, hqueue, hsent, hroom, hflush⟩ := receiving_done h2
  obtain ⟨-, -, ⟨hqueue2, hsent2, hroom2, hflush2⟩, -⟩ := hf1.trans hf2
  refine ⟨t3, reaches_then (reaches_then hs1 hs2) hs3, hseq, by rw [hdone, hpend], by rw [hrx, List.append_assoc],
    hqueue.trans hqueue2, hsent.trans hsent2, hroom.trans hroom2, hflush.trans hflush2⟩

/-- A data frame does not begin with the ACK frame: the fixed frame is no header with a good length checksum. -/
theorem isHeader_take_six_ne {n : Nat} {h : List Byte} (r : List Byte) (hh : isHeader n h) :
    (h ++ r).take 6 ≠ fixedFrame := by
  rcases hh with ⟨len, lcs, rfl, hsum, -⟩ | ⟨lenH, lenL, lcs, rfl, -⟩
  · intro he
    obtain ⟨rfl, rfl, -⟩ : len = 0x00 ∧ lcs = 0xFF ∧ r.take 1 = [0x00] := by simpa [fixedFrame] using he
    exact absurd hsum (by decide)
  · simp [fixedFrame]

theorem isHeader_length {n : Nat} {h : List Byte} (hh : isHeader n h) : 5 ≤ h.length := by
  rcases hh with ⟨_, _, rfl, -⟩ | ⟨_, _, _, rfl, -⟩ <;> simp

/-- The first six bytes of a frame, at the ACK position. -/
theorem frame_first_six {p : List Byte} (late : List Byte) (hp : p.length ≤ 65535) :
    ((frame p ++ late).take 6).length = 6 ∧ (frame p ++ late).take 6 ≠ fixedFrame := by
  have hh := frame_isHeader hp
  have hl := isHeader_length hh
  refine ⟨?_, ?_⟩
  · rw [List.length_take, List.length_append, frame_length]
    omega
  · rw [frame, List.append_assoc, List.append_assoc]
    exact isHeader_take_six_ne _ hh

/-- Six bytes that are not the ACK frame end in NoAck, after the cancel frame. -/
theorem receiving_ends_noAck {s : State} {a r : List Byte} (he : s.EnvReady) (h : Receiving s .rxAck (a ++ r))
    (hc : s.hid.cnt = 6) (ha : a.length = 6) (hne : a ≠ fixedFrame) :
    ∃ t, s.reaches (s.coming.length + 6) t ∧ t.seq = .idle ∧ t.done = some .noAck ∧
      t.txSent = s.txSent ++ (s.txQueue ++ fixedFrame) ∧ t.txQueue = [] := by
  obtain ⟨u, hs, hx, hf⟩ := receiving_ack h hc ha
  rw [if_neg hne] at hs
  have hf := hf.control .canTx { u.hid with pend := .noAck, cnt := 6 } u.rx
  have h1 := h.next hf rfl hx
  obtain ⟨late, coming, now, hcancel⟩ := cancel_reaches_done (hf.envReady he) rfl rfl
  have hdone : Receiving ((u.fail .noAck true).cancelled (u.rx ++ late) coming now) .done (u.rx ++ late) :=
    ⟨h1.released, h1.timeout_ne, rfl, rfl⟩
  obtain ⟨t, hs', hseq, hres, -, hqueue, hsent, -⟩ := receiving_done hdone
  obtain ⟨-, -, ⟨hq0, hs0, -⟩, hcoming, -⟩ := hf
  refine ⟨t, ?_, hseq, hres, ?_, hqueue⟩
  · rw [← hcoming]
    exact reaches_then (reaches_step hs hcancel) hs'
  · rw [← hq0, ← hs0]
    exact hsent

/-- Settles O51: after the ACK read is opened, the bytes on the RX wire stream decide which of the three ends it is. -/
theorem roundTripThroughTheMachine : Obligations.RoundTripThroughTheMachine := by
  intro p q more late a rest s he hq ht ho hl hpl hmax
  have hopen := sendRaw_reaches_ack he hq ho hl hpl
  have hat := receiving_ackOpened q more rest he ht
  refine ⟨fun hp hx => ?_, fun hp hx => ?_, fun hx => ?_⟩
  · rw [hx] at hat
    obtain ⟨t, hs, hseq, hdone, hrxlen, hbytes, hrx, htimeout, hops, hpl', -⟩ := receiving_ends_success hat rfl hp
    exact ⟨t, reaches_trans hopen hs, hseq, hdone, hrxlen, hbytes, hrx, hops, hpl', htimeout⟩
  · rw [hx] at hat
    obtain ⟨t, hs, hseq, hdone, hrx, hqueue, hsent, -⟩ := receiving_ends_failed hat rfl hp hmax
    refine ⟨t, reaches_mono (reaches_trans hopen hs) (by omega), hseq, hdone, hrx, ?_⟩
    rw [hqueue, hsent]
    rfl
  · obtain ⟨hsix, hne⟩ := frame_first_six late hmax
    rw [hx, ← List.take_append_drop 6 (frame p ++ late)] at hat
    have he' : (s.ackOpened q more rest).EnvReady := ⟨he.released, he.flushes, he.accepts, he.clock⟩
    obtain ⟨t, hs, hseq, hdone, hsent, hqueue⟩ := receiving_ends_noAck he' hat rfl hsix hne
    have hrun : s.reaches (5 + (s.coming.length + 6)) t := reaches_trans hopen hs
    refine ⟨t, reaches_mono hrun (by omega), hseq, hdone, ?_, hqueue⟩
    rw [List.append_assoc (s.txSent ++ s.txQueue)]
    exact hsent

end Sys2Proof.Machine
end

section
/-! CANCEL: what each of its three parts does in one step, what they all leave alone, and the whole sequence under an
environment that keeps its duties. -/

namespace Sys2Proof.Machine

theorem exec_cancel_canTx {s : State} (hq : s.seq = .canTx) : exec .cancel s = .next s.sendCancel := by
  simp only [exec, execCancel, hq]

theorem exec_cancel_canSleep {s : State} (hq : s.seq = .canSleep) : exec .cancel s = .next s.cancelSleep := by
  simp only [exec, execCancel, hq]

/-! ### CAN_TX -/

/-- With room for all that is due of the cancel frame, it goes out and the sleep starts. -/
theorem sendCancel_enough {s : State} (hc : s.hid.cnt.toNat ≤ 6)
    (hr : ∀ r, s.txRoom = some r → s.hid.cnt.toNat ≤ r) :
    s.sendCancel = { s with
      txQueue := s.txQueue ++ fixedFrame.drop (6 - s.hid.cnt.toNat)
      txRoom := s.txRoom.map (· - s.hid.cnt.toNat)
      trace := addWrite (fixedFrame.drop (6 - s.hid.cnt.toNat)) s.trace
      seq := .canSleep
      hid := { s.hid with cnt := 0, t0 := s.now } } := by
  simp only [State.sendCancel, send_enough s fixedFrame hr hc, if_true, State.startRead]
  rfl

/-- With room for `r` of the bytes due, these go out and the block stays in CAN_TX. -/
theorem sendCancel_part {s : State} {r : Nat} (hc : s.hid.cnt.toNat ≤ 6) (hr : s.txRoom = some r)
    (hlt : r < s.hid.cnt.toNat) :
    s.sendCancel = { s with
      txQueue := s.txQueue ++ (fixedFrame.drop (6 - s.hid.cnt.toNat)).take r
      txRoom := some 0
      trace := addWrite ((fixedFrame.drop (6 - s.hid.cnt.toNat)).take r) s.trace
      hid := { s.hid with cnt := BitVec.ofNat 16 (s.hid.cnt.toNat - r) } } := by
  have hleft : BitVec.ofNat 16 (s.hid.cnt.toNat - r) ≠ 0 := by
    rw [← toNat_pos_iff, toNat_ofNat_length (by omega)]
    omega
  simp only [State.sendCancel, send_part s fixedFrame r hr hlt hc, hleft, if_false]
  rfl

/-! ### CAN_SLEEP -/

theorem cancelSleep_over {s : State} (h : 2 ≤ (s.now - s.hid.t0).toNat) :
    s.cancelSleep = { s with seq := .canFlush, trace := .sleep 1 :: s.trace } :=
  if_pos (decide_eq_true h)

theorem cancelSleep_waits {s : State} (h : (s.now - s.hid.t0).toNat < 2) :
    s.cancelSleep = s.waitUntil Config.sleepTicks :=
  if_neg (by rw [State.elapsedReached, decide_eq_true_iff]; exact Nat.not_le.2 h)

/-- What the environment does in a step of a wait: the next arrival, or with none the awaited time comes if the clock
runs (log entry 28). -/
theorem waitUntil_environment (ms : Millis) (s : State) :
    (s.coming = [] → (s.waitUntil ms).rx = s.rx ∧ (s.waitUntil ms).coming = [] ∧
      (s.waitUntil ms).now = if s.clockRuns then s.hid.t0 + ms else s.now) ∧
    (∀ b r, s.coming = .byte b :: r → (s.waitUntil ms).rx = s.rx ++ [b] ∧ (s.waitUntil ms).coming = r ∧
      (s.waitUntil ms).now = s.now) ∧
    (∀ r, s.coming = .tick :: r → (s.waitUntil ms).rx = s.rx ∧ (s.waitUntil ms).coming = r ∧
      (s.waitUntil ms).now = s.now + 1) := by
  refine ⟨fun h => ?_, fun b r h => ?_, fun r h => ?_⟩
  · rw [waitUntil_quiet ms h]
    exact ⟨rfl, h, rfl⟩
  · rw [waitUntil_byte ms h]
    exact ⟨rfl, rfl, rfl⟩
  · rw [waitUntil_tick ms h]
    exact ⟨rfl, rfl, rfl⟩

/-- Settles O54: CAN_TX by the room the transport has, CAN_SLEEP by the pulses since T0; before two of them the step is
the wait. -/
theorem cancelPartsGoOn : Obligations.CancelPartsGoOn := by
  intro s
  refine ⟨fun hq hc hr => ?_, fun r hq hc hr hlt => ?_, fun hq h => ?_, fun hq h => ?_⟩
  · rw [exec_cancel_canTx hq, sendCancel_enough hc hr]
    rfl
  · rw [exec_cancel_canTx hq, sendCancel_part hc hr hlt]
    rfl
  · rw [exec_cancel_canSleep hq, cancelSleep_over h]
  · have hs : exec .cancel s = .next (s.waitUntil Config.sleepTicks) := by
      rw [exec_cancel_canSleep hq, cancelSleep_waits h]
    have henv := waitUntil_environment Config.sleepTicks s
    obtain ⟨⟨_, _, _, hw⟩, -⟩ := waitUntil_spec Config.sleepTicks s
    rw [hw] at hs henv
    exact ⟨_, hs, hq, rfl, rfl, rfl, ⟨rfl, rfl, rfl, fun _ => rfl⟩, ⟨rfl, rfl, rfl⟩, ⟨rfl, rfl, rfl, rfl⟩, rfl,
      henv⟩

/-! ### What CANCEL leaves alone -/

/-- What no part of CANCEL writes (R161); bytes may only join the RX wire stream. -/
structure CancelFrame (s t : State) : Prop where
  pend : t.hid.pend = s.hid.pend
  hdr : t.hid.hdr = s.hid.hdr
  dlen : t.hid.dlen = s.hid.dlen
  regs : s.sameRegs t
  host : s.sameHost t
  done : t.done = s.done
  rx : ∃ late, t.rx = s.rx ++ late

theorem cancelFrame_refl (s : State) : CancelFrame s s :=
  ⟨rfl, rfl, rfl, ⟨rfl, rfl, rfl, fun _ => rfl⟩, ⟨rfl, rfl, rfl⟩, rfl, [], (List.append_nil _).symm⟩

/-- SEQ, CNT, T0, the trace and the transmit side are no part of it. -/
theorem CancelFrame.control {s t : State} (h : CancelFrame s t) (q : SeqState) (cnt : Length) (t0 : Millis)
    (tr : List Event) (queue sent : List Byte) (room : Option Nat) :
    CancelFrame s { t with
      seq := q, trace := tr, txQueue := queue, txSent := sent, txRoom := room
      hid := { t.hid with cnt := cnt, t0 := t0 } } :=
  ⟨h.pend, h.hdr, h.dlen, h.regs, h.host, h.done, h.rx⟩

theorem cancelFrame_onlyReceives {s t : State} (h : OnlyReceives s t) : CancelFrame s t := by
  obtain ⟨⟨_, _, _, rfl⟩, late, hx, -⟩ := h
  exact ⟨rfl, rfl, rfl, ⟨rfl, rfl, rfl, fun _ => rfl⟩, ⟨rfl, rfl, rfl⟩, rfl, late, hx⟩

theorem cancelFrame_sendCancel (s : State) : CancelFrame s s.sendCancel := by
  unfold State.sendCancel
  dsimp only
  split
  · exact (cancelFrame_refl s).control _ _ _ _ _ _ _
  · exact (cancelFrame_refl s).control _ _ _ _ _ _ _

theorem cancelFrame_cancelSleep (s : State) : CancelFrame s s.cancelSleep := by
  unfold State.cancelSleep
  split
  · exact (cancelFrame_refl s).control _ _ _ _ _ _ _
  · exact cancelFrame_onlyReceives (waitUntil_spec _ s)

theorem cancelFrame_cancelFlush (s : State) : CancelFrame s s.cancelFlush := by
  unfold State.cancelFlush
  split
  · exact (cancelFrame_refl s).control _ _ _ _ _ _ _
  · exact cancelFrame_refl s

/-- In each of its three states CANCEL answers a next state with that frame. -/
theorem exec_cancel_keeps {s : State} (hq : s.seq = .canTx ∨ s.seq = .canSleep ∨ s.seq = .canFlush) :
    ∃ t, exec .cancel s = .next t ∧ CancelFrame s t := by
  rcases hq with hq | hq | hq
  · exact ⟨_, exec_cancel_canTx hq, cancelFrame_sendCancel s⟩
  · exact ⟨_, exec_cancel_canSleep hq, cancelFrame_cancelSleep s⟩
  · exact ⟨_, exec_cancel_canFlush hq, cancelFrame_cancelFlush s⟩

/-- Settles O36: each of the three parts has the frame of CANCEL, whether it ends in this step or not. -/
theorem cancelKeepsArchitecturalState : Obligations.CancelKeepsArchitecturalState := by
  intro s hq
  obtain ⟨t, ht, hpend, hhdr, hdlen, hregs, hhost, hdone, hrx⟩ := exec_cancel_keeps hq
  exact ⟨t, ht, hpend, hhdr, hdlen, hregs, hhost, hdone, hrx⟩

/-! ### The whole sequence -/

/-- Settles O35: the run ends in `State.cancelled`, whatever has arrived during the sleep. -/
theorem cancelSequence : Obligations.CancelSequence := by
  intro s he hq hc
  obtain ⟨late, coming, now, hrun⟩ := cancel_reaches_done he hq hc
  have hsent : s.txSent ++ (s.txQueue ++ fixedFrame) = s.txSent ++ s.txQueue ++ fixedFrame :=
    (List.append_assoc _ _ _).symm
  exact ⟨s.cancelled (s.rx ++ late) coming now, reaches_mono hrun (Nat.le_succ _), rfl, rfl, hsent, rfl, rfl,
    ⟨rfl, rfl, rfl, fun _ => rfl⟩, rfl, rfl, late, rfl⟩

end Sys2Proof.Machine
end

section
/-! SETTIMEOUT and ASSERTACK, the acceptance of a SENDRAW, its delivery after a failure, and the edges of the transition
table. -/

namespace Sys2Proof.Machine

/-! ### SETTIMEOUT -/

theorem exec_setTimeout_busy (v : Millis) {s : State} (hq : s.seq ≠ .idle) :
    exec (.setTimeout v) s = .refused .busy := by
  rw [exec, execSetTimeout]
  split
  · next h => exact absurd h hq
  · rfl

/-- Settles O12: by the arm of SETTIMEOUT in IDLE and outside it; a step that changes TIMEOUT starts in IDLE. -/
theorem setTimeoutWritesTimeoutOnly : Obligations.SetTimeoutWritesTimeoutOnly := by
  refine ⟨fun v s hq => exec_setTimeout_idle hq, fun v s hq => exec_setTimeout_busy v hq, fun s t hr hq h => ?_⟩
  by_contra hne
  exact hq (onlySetTimeoutWritesTimeout s t hr h hne).1

/-! ### DONE after a failure -/

theorem deliver_failure {s : State} (h : s.hid.pend ≠ .success) :
    s.deliver = (s.losePayload.forgetHidden).finish s.hid.pend := if_neg h

/-- Settles O34: the delivery of a failure draws RXLEN anew and leaves RXBUF with no index listed. -/
theorem failureLeavesReceivedStateOpen : Obligations.FailureLeavesReceivedStateOpen := by
  intro n s hq hp
  exact ⟨_, (exec_sendRaw_done n hq).trans (congrArg _ (deliver_failure hp)), rfl, rfl, rfl, fun _ => rfl, rfl, rfl,
    ⟨rfl, rfl, rfl⟩, ⟨rfl, rfl, rfl, rfl⟩, ⟨rfl, rfl, rfl, rfl⟩⟩

/-! ### The transition table -/

/-- SEQ stays, or goes along an edge of the table (R185). -/
def FollowsTable (q r : SeqState) : Prop := r = q ∨ r ∈ seqSuccessors q

theorem FollowsTable.edge {q r p : SeqState} (p' : SeqState) (hq : q = p) (hr : r = p')
    (h : p' ∈ seqSuccessors p := by decide) : FollowsTable q r :=
  .inr (by rwa [hq, hr])

theorem firstFlush_follows {s : State} (hq : s.seq = .txFlush) : FollowsTable s.seq s.firstFlush.seq := by
  unfold State.firstFlush
  split
  · exact .edge .txHeader hq rfl
  · exact .inl rfl

theorem sendHeader_follows {s : State} (b : List Byte) (hq : s.seq = .txHeader) :
    FollowsTable s.seq (s.sendHeader b).seq := by
  unfold State.sendHeader
  dsimp only
  split
  · split
    · exact .edge .txTrailer hq rfl
    · exact .edge .txPayload hq rfl
  · exact .inl rfl

theorem sendPayload_follows {s : State} (hq : s.seq = .txPayload) : FollowsTable s.seq s.sendPayload.seq := by
  unfold State.sendPayload
  dsimp only
  split
  · exact .edge .txTrailer hq rfl
  · exact .inl rfl

theorem sendTrailer_follows {s : State} (hq : s.seq = .txTrailer) : FollowsTable s.seq s.sendTrailer.seq := by
  unfold State.sendTrailer
  dsimp only
  split
  · exact .edge .rxAck hq rfl
  · exact .inl rfl

theorem checkLength_seq (s : State) (field : List Byte) (dlen : Length) :
    (s.checkLength field dlen).seq ∈ seqSuccessors .rxCheck := by
  unfold State.checkLength State.acceptLength
  dsimp only
  split
  · split
    · simp [seqSuccessors]
    · split
      · simp [seqSuccessors]
      · simp [seqSuccessors]
  · simp [seqSuccessors]

theorem checkTrailer_seq (s : State) : s.checkTrailer.seq ∈ seqSuccessors .rxTrailer := by
  unfold State.checkTrailer
  split
  · simp [seqSuccessors]
  · simp [seqSuccessors]

theorem sendCancel_follows {s : State} (hq : s.seq = .canTx) : FollowsTable s.seq s.sendCancel.seq := by
  unfold State.sendCancel
  dsimp only
  split
  · exact .edge .canSleep hq rfl
  · exact .inl rfl

theorem onlyReceives_seq {s t : State} (h : OnlyReceives s t) : t.seq = s.seq := by
  obtain ⟨⟨_, _, _, rfl⟩, -⟩ := h
  rfl

theorem cancelSleep_follows {s : State} (hq : s.seq = .canSleep) : FollowsTable s.seq s.cancelSleep.seq := by
  unfold State.cancelSleep
  split
  · exact .edge .canFlush hq rfl
  · exact .inl (onlyReceives_seq (waitUntil_spec _ s))

theorem cancelFlush_follows {s : State} (hq : s.seq = .canFlush) : FollowsTable s.seq s.cancelFlush.seq := by
  unfold State.cancelFlush
  split
  · exact .edge .done hq rfl
  · exact .inl rfl

theorem stepKind_follows {s t : State} (h : StepKind s t) : FollowsTable s.seq t.seq := by
  cases h with
  | arrive => exact .inl (onlyReceives_seq (arrive_spec s))
  | accept _ _ hq => exact .edge .txFlush hq rfl
  | assertAck _ _ _ hq => exact .inl hq.symm
  | setTimeout _ _ hq => exact .inl hq.symm
  | firstFlush hq => exact firstFlush_follows hq
  | sendHeader hq => exact sendHeader_follows _ hq
  | sendPayload hq => exact sendPayload_follows hq
  | sendTrailer hq => exact sendTrailer_follows hq
  | wait _ _ hr => exact .inl (onlyReads_keeps (readRequest_waiting hr)).1
  | ackOk _ hq => exact .edge .rxHdr hq rfl
  | ackWrong _ hq => exact .edge .canTx hq rfl
  | ackLate _ hq => exact .edge .canTx hq rfl
  | headerShort _ hq => exact .edge .rxCheck hq rfl
  | headerExtended _ hq => exact .edge .rxExt hq rfl
  | headerWrong _ hq => exact .edge .canTx hq rfl
  | headerLate _ hq => exact .edge .canTx hq rfl
  | extendedOk _ hq => exact .edge .rxCheck hq rfl
  | extendedLate _ hq => exact .edge .canTx hq rfl
  | checkShort hq => exact .inr (hq ▸ checkLength_seq s _ _)
  | checkExtended hq => exact .inr (hq ▸ checkLength_seq s _ _)
  | payloadOk _ hq => exact .edge .rxTrailer hq rfl
  | payloadLate _ hq => exact .edge .canTx hq rfl
  | trailerRead t hq => exact .inr (hq ▸ checkTrailer_seq t)
  | trailerLate _ hq => exact .edge .canTx hq rfl
  | cancelSend hq => exact sendCancel_follows hq
  | cancelSleep hq => exact cancelSleep_follows hq
  | cancelFlush hq => exact cancelFlush_follows hq
  | deliver hq => exact .edge .idle hq (deliver_seq s)

/-- Settles O40: every kind of step stays, or goes along an edge of the table. -/
theorem sequencerFollowsTheTable : Obligations.SequencerFollowsTheTable := by
  intro s t hr h
  rcases step_cases h with ⟨hr', -⟩ | ⟨-, hk⟩
  · simp [hr] at hr'
  · exact stepKind_follows (s := s.nextCycle) hk

/-! ### ASSERTACK and the acceptance of a SENDRAW -/

theorem exec_assertAck_idle (prev : Result) {s : State} (hq : s.seq = .idle) :
    exec (.assertAck prev) s = .next (s.finish (s.ackResult prev)) := by
  simp only [exec, execAssertAck, hq]

theorem payloadIsAck_iff (s : State) :
    s.payloadIsAck = true ↔ s.rxlen.toNat = 2 ∧ s.rxByte 0 = 0xD5 ∧ s.rxByte 1 = 0x33 := by
  simp [State.payloadIsAck, Config.ackPayload, State.rxBytes, List.range_succ]

theorem ackResult_failure {prev : Result} (s : State) (h : prev ≠ .success) : s.ackResult prev = prev := if_pos h

theorem ackResult_success (s : State) :
    s.ackResult .success = if s.payloadIsAck = true then .success else .noAck := if_neg (not_not_intro rfl)

/-- Settles O13: by the previous Result, and after a Success by whether the payload is `D5 33`. -/
theorem assertAckResult : Obligations.AssertAckResult := by
  refine ⟨fun prev s hq hp => ?_, fun s hq hl h0 h1 => ?_, fun s hq hn => ?_⟩
  · rw [exec_assertAck_idle prev hq, ackResult_failure s hp]
    rfl
  · rw [exec_assertAck_idle _ hq, ackResult_success, if_pos ((payloadIsAck_iff s).2 ⟨hl, h0, h1⟩)]
    rfl
  · rw [exec_assertAck_idle _ hq, ackResult_success, if_neg (mt (payloadIsAck_iff s).1 hn)]
    rfl

/-- Settles O14: the arm of SENDRAW in IDLE. -/
theorem sendRawIsAccepted : Obligations.SendRawIsAccepted := fun _ _ hq => exec_sendRaw_idle hq

end Sys2Proof.Machine
end

section
/-! The three parts that send a data frame: what one step hands over where the transport has room for all that is due,
and where it has room for less. -/

namespace Sys2Proof.Machine

/-! ### Data frames at the transmit states -/

theorem exec_dataFrame_txHeader {i : Instr} {s : State} (hi : IsDataFrame i) (hq : s.seq = .txHeader) :
    exec i s = .next (s.sendHeader (encode i).bytes) := by
  rcases hi with ⟨_, _, rfl⟩ | ⟨_, _, _, rfl⟩ <;> simp only [exec, execDataShort, execDataExt, hq]

theorem exec_dataFrame_txPayload {i : Instr} {s : State} (hi : IsDataFrame i) (hq : s.seq = .txPayload) :
    exec i s = .next s.sendPayload := by
  rcases hi with ⟨_, _, rfl⟩ | ⟨_, _, _, rfl⟩ <;> simp only [exec, execDataShort, execDataExt, hq]

theorem exec_dataFrame_txTrailer {i : Instr} {s : State} (hi : IsDataFrame i) (hq : s.seq = .txTrailer) :
    exec i s = .next s.sendTrailer := by
  rcases hi with ⟨_, _, rfl⟩ | ⟨_, _, _, rfl⟩ <;> simp only [exec, execDataShort, execDataExt, hq]

/-- CNT after fewer bytes than were due. -/
theorem cnt_left_ne_zero {cnt : Length} {r : Nat} (h : r < cnt.toNat) : BitVec.ofNat 16 (cnt.toNat - r) ≠ 0 := by
  rw [← toNat_pos_iff, toNat_ofNat_length (by have := cnt.isLt; omega)]
  omega

/-! ### The header -/

theorem sendHeader_enough {s : State} {b : List Byte} (hc : s.hid.cnt.toNat ≤ b.length)
    (hr : ∀ r, s.txRoom = some r → s.hid.cnt.toNat ≤ r) :
    s.sendHeader b = { s with
      txQueue := s.txQueue ++ b.drop (b.length - s.hid.cnt.toNat)
      txRoom := s.txRoom.map (· - s.hid.cnt.toNat)
      trace := addWrite (b.drop (b.length - s.hid.cnt.toNat)) s.trace
      seq := if s.hid.tlen = 0 then .txTrailer else .txPayload
      hid := { s.hid with cnt := if s.hid.tlen = 0 then 2 else s.hid.tlen } } := by
  simp only [State.sendHeader, send_enough s b hr hc, if_true]
  by_cases hz : s.hid.tlen = 0
  · simp only [if_pos hz, State.startWrite]
    rfl
  · simp only [if_neg hz, State.startWrite, BitVec.ofNat_toNat, BitVec.setWidth_eq]

theorem sendHeader_part {s : State} {b : List Byte} {r : Nat} (hc : s.hid.cnt.toNat ≤ b.length)
    (hr : s.txRoom = some r) (hlt : r < s.hid.cnt.toNat) :
    s.sendHeader b = { s with
      txQueue := s.txQueue ++ (b.drop (b.length - s.hid.cnt.toNat)).take r
      txRoom := some 0
      trace := addWrite ((b.drop (b.length - s.hid.cnt.toNat)).take r) s.trace
      hid := { s.hid with cnt := BitVec.ofNat 16 (s.hid.cnt.toNat - r) } } := by
  simp only [State.sendHeader, send_part s b r hr hlt hc, if_neg (cnt_left_ne_zero hlt)]

/-- Settles O20: the header is the encoding of the frame, and its last CNT bytes are due. -/
theorem headerBytesAreSent : Obligations.HeaderBytesAreSent := by
  intro i h s hi hq hc
  obtain ⟨hframe, rfl⟩ : IsDataFrame i ∧ (encode i).bytes = h := by
    rcases hi with ⟨len, lcs, rfl, rfl⟩ | ⟨lenH, lenL, lcs, rfl, rfl⟩
    · exact ⟨.inl ⟨len, lcs, rfl⟩, rfl⟩
    · exact ⟨.inr ⟨lenH, lenL, lcs, rfl⟩, rfl⟩
  rw [exec_dataFrame_txHeader hframe hq]
  exact ⟨fun hr => congrArg _ (sendHeader_enough hc hr), fun r hr hlt => congrArg _ (sendHeader_part hc hr hlt)⟩

/-! ### The payload -/

/-- What is taken is the front of the payload stream: as much as is due, offered and accepted. -/
theorem payloadNow_eq_take (s : State) :
    s.payloadNow = s.pl.take (s.accepts (min s.hid.cnt.toNat s.pl.length)) := by
  have hle := accepts_le s (min s.hid.cnt.toNat s.pl.length)
  rw [State.payloadNow, List.length_take, List.take_take, Nat.min_eq_left (by omega)]

/-- `n` bytes are due, offered and accepted, and no more than `n`. -/
def State.takesNow (s : State) (n : Nat) : Prop :=
  n ≤ s.hid.cnt.toNat ∧ n ≤ s.pl.length ∧ (∀ r, s.txRoom = some r → n ≤ r) ∧
    (n = s.hid.cnt.toNat ∨ n = s.pl.length ∨ s.txRoom = some n)

theorem accepts_of_takesNow {s : State} {n : Nat} (h : s.takesNow n) :
    s.accepts (min s.hid.cnt.toNat s.pl.length) = n := by
  obtain ⟨hc, hl, hr, hn⟩ := h
  unfold State.accepts
  cases hroom : s.txRoom with
  | none =>
    simp only [hroom, reduceCtorEq, or_false] at hn ⊢
    omega
  | some r =>
    have hr := hr r hroom
    simp only [hroom, Option.some.injEq] at hn ⊢
    omega

theorem takePayload_of_takesNow {s : State} {n : Nat} (h : s.takesNow n) :
    s.takePayload = { s with
      txQueue := s.txQueue ++ s.pl.take n
      txRoom := s.txRoom.map (· - n)
      trace := addWrite (s.pl.take n) s.trace
      pl := s.pl.drop n
      hid := { s.hid with
        cnt := BitVec.ofNat 16 (s.hid.cnt.toNat - n), tsum := s.hid.tsum + sum8 (s.pl.take n) } } := by
  have ⟨_, hoffered, _⟩ := h
  have hl : (s.pl.take n).length = n := by rw [List.length_take, Nat.min_eq_left hoffered]
  simp only [State.takePayload, payloadNow_eq_take, accepts_of_takesNow h, State.write, hl]

/-- Settles O21: with all that is due taken CNT is 0 and the trailer comes next, else the block stays. -/
theorem payloadBytesAreSent : Obligations.PayloadBytesAreSent := by
  intro i s hi hq
  rw [exec_dataFrame_txPayload hi hq]
  refine ⟨fun hl hr => ?_, fun n hlt hl hr hn => ?_⟩
  · have htake := takePayload_of_takesNow (n := s.hid.cnt.toNat) ⟨Nat.le_refl _, hl, hr, .inl rfl⟩
    rw [Nat.sub_self] at htake
    simp only [State.sendPayload, htake]
    rfl
  · have htake := takePayload_of_takesNow ⟨hlt.le, hl, hr, .inr hn⟩
    simp only [State.sendPayload, htake, if_neg (cnt_left_ne_zero hlt)]

/-! ### The trailer -/

theorem sendTrailer_enough {s : State} (hc : s.hid.cnt.toNat ≤ 2)
    (hr : ∀ r, s.txRoom = some r → s.hid.cnt.toNat ≤ r) :
    s.sendTrailer = { s with
      txQueue := s.txQueue ++ [neg8 s.hid.tsum, 0x00].drop (2 - s.hid.cnt.toNat)
      txRoom := s.txRoom.map (· - s.hid.cnt.toNat)
      trace := addWrite ([neg8 s.hid.tsum, 0x00].drop (2 - s.hid.cnt.toNat)) s.trace
      seq := .rxAck
      hid := { s.hid with cnt := 6, t0 := s.now } } := by
  simp only [State.sendTrailer, send_enough s (txTrailer s.hid.tsum) hr hc, if_true, State.startRead]
  rfl

theorem sendTrailer_part {s : State} {r : Nat} (hc : s.hid.cnt.toNat ≤ 2) (hr : s.txRoom = some r)
    (hlt : r < s.hid.cnt.toNat) :
    s.sendTrailer = { s with
      txQueue := s.txQueue ++ ([neg8 s.hid.tsum, 0x00].drop (2 - s.hid.cnt.toNat)).take r
      txRoom := some 0
      trace := addWrite (([neg8 s.hid.tsum, 0x00].drop (2 - s.hid.cnt.toNat)).take r) s.trace
      hid := { s.hid with cnt := BitVec.ofNat 16 (s.hid.cnt.toNat - r) } } := by
  simp only [State.sendTrailer, send_part s (txTrailer s.hid.tsum) r hr hlt hc, if_neg (cnt_left_ne_zero hlt)]
  rfl

/-- Settles O22: the last CNT bytes of the trailer are due; behind them the ACK read is opened. -/
theorem trailerBytesAreSent : Obligations.TrailerBytesAreSent := by
  intro i s hi hq hc
  rw [exec_dataFrame_txTrailer hi hq]
  exact ⟨fun hr => congrArg _ (sendTrailer_enough hc hr), fun r hr hlt => congrArg _ (sendTrailer_part hc hr hlt)⟩

end Sys2Proof.Machine
end

section
/-! Every SENDRAW ends: a bound on the steps that are left, which each step of a busy block lowers, whatever arrives. -/

namespace Sys2Proof.Machine

/-! ### The bound -/

/-- How many states of the table a SENDRAW may still go through, from each of them (R185). -/
def SeqState.toGo : SeqState → Nat
  | .idle => 0
  | .done => 1
  | .canFlush => 2
  | .canSleep => 3
  | .canTx => 4
  | .rxTrailer => 5
  | .rxPayload => 6
  | .rxCheck => 7
  | .rxExt => 8
  | .rxHdr => 9
  | .rxAck => 10
  | .txTrailer => 11
  | .txPayload => 12
  | .txHeader => 13
  | .txFlush => 14

/-- The time a waiting state waits for, from T0 on (R221, R224). -/
def State.waitLimit (s : State) : Millis := if s.seq = .canSleep then Config.sleepTicks else s.timeout

/-- A bound on the steps left: one for every arrival, and for every state to go its end and its last wait; the last wait
of this state is behind it once its time is over. -/
def State.stepsLeft (s : State) : Nat :=
  s.coming.length + 2 * s.seq.toGo + if s.elapsedReached s.waitLimit then 0 else 1

/-- A busy block that gets all it needs. -/
structure State.Underway (s : State) : Prop where
  inv : s.Inv
  env : s.EnvReady
  supplied : s.payloadSupplied

/-- A step that keeps the duties of the environment and of the host, and leaves fewer steps to go. -/
structure Advances (s t : State) : Prop where
  env : t.EnvReady
  supplied : t.payloadSupplied
  fewer : t.stepsLeft < s.stepsLeft

theorem stepsLeft_lt_of_toGo {s t : State} (hc : t.coming = s.coming) (h : t.seq.toGo < s.seq.toGo) :
    t.stepsLeft < s.stepsLeft := by
  unfold State.stepsLeft
  rw [hc]
  split <;> omega

theorem later {q r p : SeqState} (p' : SeqState) (hq : q = p) (hr : r = p')
    (h : p'.toGo < p.toGo := by decide) : r.toGo < q.toGo := by
  rwa [hq, hr]

/-- Behind TX_PAYLOAD nothing more is asked of the host. -/
theorem payloadSupplied_of_toGo {s : State} (h : s.seq.toGo < 12) : s.payloadSupplied := by
  unfold State.payloadSupplied
  split
  · next hq => simp [hq, SeqState.toGo] at h
  · next hq => simp [hq, SeqState.toGo] at h
  · next hq => simp [hq, SeqState.toGo] at h
  · trivial

theorem toGo_lt_of_successor {q r : SeqState} (hq : q ≠ .idle) (h : r ∈ seqSuccessors q) : r.toGo < q.toGo := by
  revert hq h
  cases q <;> cases r <;> decide

/-- A step of the receive part along an edge of the table. -/
theorem ReceiveFrame.advances {s t : State} {p : SeqState} (hf : ReceiveFrame s t) (he : s.EnvReady) (hq : s.seq = p)
    (ht : t.seq ∈ seqSuccessors p) (hp : p ≠ .idle ∧ p.toGo < 12 := by decide) : Advances s t := by
  subst hq
  obtain ⟨hidle, h12⟩ := hp
  have hlt := toGo_lt_of_successor hidle ht
  exact ⟨hf.envReady he, payloadSupplied_of_toGo (hlt.trans h12), stepsLeft_lt_of_toGo hf.coming hlt⟩

theorem ReceiveFrame.goesOn {s t : State} {p : SeqState} (hf : ReceiveFrame s t) (he : s.EnvReady) (hq : s.seq = p)
    (q : SeqState) (hid : Hidden) (ht : q ∈ seqSuccessors p := by decide)
    (hp : p ≠ .idle ∧ p.toGo < 12 := by decide) : Advances s { t with seq := q, hid := hid } :=
  (hf.control q hid t.rx).advances he hq ht hp

/-! ### Waiting -/

theorem elapsedReached_at_end {s : State} {ms : Millis} (h : s.now = s.hid.t0 + ms) : s.elapsedReached ms = true := by
  have he : s.elapsed = ms := by rw [State.elapsed, h, BitVec.add_comm, BitVec.add_sub_cancel]
  rw [State.elapsedReached, he, decide_eq_true_iff]

theorem stepsLeft_waiting {s : State} (h : s.elapsedReached s.waitLimit = false) :
    s.stepsLeft = s.coming.length + 2 * s.seq.toGo + 1 := by
  simp [State.stepsLeft, h]

/-- A wait before its time takes an arrival, or with none to come is the last. -/
theorem waitUntil_advances {s : State} (he : s.EnvReady) (hq : s.seq.toGo < 12)
    (h : s.elapsedReached s.waitLimit = false) : Advances s (s.waitUntil s.waitLimit) := by
  cases hc : s.coming with
  | nil =>
    have hw := waitUntil_quiet s.waitLimit hc
    rw [if_pos he.clock] at hw
    have hover : (s.waitUntil s.waitLimit).elapsedReached (s.waitUntil s.waitLimit).waitLimit = true := by
      rw [hw]
      exact elapsedReached_at_end rfl
    refine ⟨by rw [hw]; exact ⟨he.released, he.flushes, he.accepts, he.clock⟩, ?_, ?_⟩
    · rw [hw]
      exact payloadSupplied_of_toGo hq
    · rw [stepsLeft_waiting h, State.stepsLeft, hover, hw]
      exact Nat.lt_succ_self _
  | cons x r =>
    obtain ⟨late, now, hw⟩ := waitUntil_arrival s.waitLimit hc
    refine ⟨by rw [hw]; exact ⟨he.released, he.flushes, he.accepts, he.clock⟩, ?_, ?_⟩
    · rw [hw]
      exact payloadSupplied_of_toGo hq
    · rw [stepsLeft_waiting h, State.stepsLeft, hw, hc, List.length_cons]
      split <;> dsimp only <;> omega

theorem waiting_time_left {s t : State} (h : s.readRequest = .waiting t) : s.elapsedReached s.timeout = false := by
  have hc : s.hid.cnt ≠ 0 := by
    intro hc
    rw [State.readRequest, if_pos hc] at h
    cases h
  have ht : s.timeout ≠ 0 := by
    intro ht
    rw [State.readRequest, if_neg hc, if_pos ht, State.readZero] at h
    dsimp only at h
    split at h
    · cases h
    · split at h <;> cases h
  rw [readRequest_timed s ht hc] at h
  split at h
  · cases h
  · split at h
    · cases h
    · next hl => exact decide_eq_false hl

theorem absorb_receives (s : State) : ReceiveFrame s s.absorb := by
  obtain ⟨_, _, _, _, h, -⟩ := absorb_same s
  rw [h]
  exact ⟨rfl, ⟨rfl, rfl, rfl⟩, ⟨rfl, rfl, rfl, rfl⟩, rfl, rfl⟩

theorem toGo_of_reads {q : SeqState} (h : q.reads = true) : q.toGo < 12 := by
  rcases reads_cases h with rfl | rfl | rfl | rfl | rfl <;> decide

theorem waiting_advances {s t : State} (he : s.EnvReady) (hq : s.seq.reads = true) (h : s.readRequest = .waiting t) :
    Advances s t := by
  have hsleep : s.seq ≠ .canSleep := by
    intro hs
    simp [hs, SeqState.reads] at hq
  have hf := absorb_receives s
  have hlimit : s.absorb.waitLimit = s.absorb.timeout := if_neg (by rwa [absorb_seq])
  have hleft : s.absorb.elapsedReached s.absorb.waitLimit = s.elapsedReached s.waitLimit := by
    obtain ⟨_, _, _, _, ha, -⟩ := absorb_same s
    rw [ha]
    rfl
  have htime : s.elapsedReached s.waitLimit = false := by
    rw [State.waitLimit, if_neg hsleep]
    exact waiting_time_left h
  obtain ⟨-, rfl⟩ := readRequest_waits_absorbed h
  rw [← hlimit]
  have hw := waitUntil_advances (hf.envReady he) (by rw [absorb_seq]; exact toGo_of_reads hq) (hleft.trans htime)
  have hsame : s.absorb.stepsLeft = s.stepsLeft := by
    rw [State.stepsLeft, State.stepsLeft, hleft, hf.coming, absorb_seq]
  exact ⟨hw.env, hw.supplied, hsame ▸ hw.fewer⟩

/-! ### The parts of a SENDRAW -/

theorem firstFlush_advances {s : State} (h : s.Underway) (hq : s.seq = .txFlush) : Advances s s.firstFlush := by
  obtain ⟨-, he, hp⟩ := h
  simp only [State.payloadSupplied, hq] at hp
  rw [State.firstFlush, if_pos he.flushes]
  exact ⟨⟨he.released, he.flushes, he.accepts, he.clock⟩, hp, stepsLeft_lt_of_toGo rfl (later .txHeader hq rfl)⟩

/-- A transport that accepts everything has room for any number of bytes. -/
theorem room_of_accepts {s : State} (h : s.txRoom = none) (n : Nat) : ∀ r, s.txRoom = some r → n ≤ r := by
  intro r hr
  rw [h] at hr
  cases hr

theorem sendHeader_advances {s : State} (h : s.Underway) (hq : s.seq = .txHeader) :
    Advances s (s.sendHeader (txHeader s.hid.tlen)) := by
  obtain ⟨⟨-, hi⟩, he, hp⟩ := h
  simp only [State.seqInv, State.payloadSupplied, hq] at hi hp
  obtain ⟨-, -, hc⟩ := hi
  rw [sendHeader_enough hc (room_of_accepts he.accepts _)]
  by_cases hz : s.hid.tlen = 0
  · simp only [if_pos hz]
    exact ⟨⟨he.released, he.flushes, by simp [he.accepts], he.clock⟩, trivial,
      stepsLeft_lt_of_toGo rfl (later .txTrailer hq rfl)⟩
  · simp only [if_neg hz]
    exact ⟨⟨he.released, he.flushes, by simp [he.accepts], he.clock⟩, hp,
      stepsLeft_lt_of_toGo rfl (later .txPayload hq rfl)⟩

theorem sendPayload_advances {s : State} (h : s.Underway) (hq : s.seq = .txPayload) : Advances s s.sendPayload := by
  obtain ⟨-, he, hp⟩ := h
  simp only [State.payloadSupplied, hq] at hp
  rw [sendPayload_all s he.accepts hp]
  exact ⟨⟨he.released, he.flushes, he.accepts, he.clock⟩, trivial, stepsLeft_lt_of_toGo rfl (later .txTrailer hq rfl)⟩

theorem sendTrailer_advances {s : State} (h : s.Underway) (hq : s.seq = .txTrailer) : Advances s s.sendTrailer := by
  obtain ⟨⟨-, hi⟩, he, -⟩ := h
  simp only [State.seqInv, hq] at hi
  obtain ⟨-, hc⟩ := hi
  rw [sendTrailer_enough hc (room_of_accepts he.accepts _)]
  exact ⟨⟨he.released, he.flushes, by simp [he.accepts], he.clock⟩, trivial,
    stepsLeft_lt_of_toGo rfl (later .rxAck hq rfl)⟩

theorem sendCancel_advances {s : State} (h : s.Underway) (hq : s.seq = .canTx) : Advances s s.sendCancel := by
  obtain ⟨⟨-, hi⟩, he, -⟩ := h
  simp only [State.seqInv, hq] at hi
  obtain ⟨⟨-, hc⟩, -⟩ := hi
  rw [sendCancel_enough hc (room_of_accepts he.accepts _)]
  exact ⟨⟨he.released, he.flushes, by simp [he.accepts], he.clock⟩, trivial,
    stepsLeft_lt_of_toGo rfl (later .canSleep hq rfl)⟩

theorem cancelSleep_advances {s : State} (he : s.EnvReady) (hq : s.seq = .canSleep) : Advances s s.cancelSleep := by
  have hlimit : s.waitLimit = Config.sleepTicks := if_pos hq
  unfold State.cancelSleep
  split
  · exact ⟨⟨he.released, he.flushes, he.accepts, he.clock⟩, trivial,
      stepsLeft_lt_of_toGo rfl (later .canFlush hq rfl)⟩
  · next ht =>
    rw [← hlimit] at ht ⊢
    exact waitUntil_advances he (by rw [hq]; decide) (Bool.eq_false_iff.2 ht)

theorem cancelFlush_advances {s : State} (he : s.EnvReady) (hq : s.seq = .canFlush) : Advances s s.cancelFlush := by
  rw [State.cancelFlush, if_pos he.flushes]
  exact ⟨⟨he.released, he.flushes, he.accepts, he.clock⟩, trivial, stepsLeft_lt_of_toGo rfl (later .done hq rfl)⟩

theorem receiveFrame_refl (s : State) : ReceiveFrame s s :=
  ⟨rfl, ⟨rfl, rfl, rfl⟩, ⟨rfl, rfl, rfl, rfl⟩, rfl, rfl⟩

theorem checkLength_receives (s : State) (field : List Byte) (dlen : Length) :
    ReceiveFrame s (s.checkLength field dlen) := by
  have hs := receiveFrame_refl s
  unfold State.checkLength State.acceptLength
  dsimp only
  split
  · split
    · exact hs.control _ _ _
    · split
      · exact hs.control _ _ _
      · exact hs.control _ _ _
  · exact hs.control _ _ _

theorem checkTrailer_receives {s t : State} (h : ReceiveFrame s t) : ReceiveFrame s t.checkTrailer := by
  unfold State.checkTrailer
  split
  · exact h.control _ _ _
  · exact h.control _ _ _

theorem deliver_receives (s : State) : ReceiveFrame s s.deliver := by
  unfold State.deliver
  split
  · exact ⟨rfl, ⟨rfl, rfl, rfl⟩, ⟨rfl, rfl, rfl, rfl⟩, rfl, rfl⟩
  · exact ⟨rfl, ⟨rfl, rfl, rfl⟩, ⟨rfl, rfl, rfl, rfl⟩, rfl, rfl⟩

theorem onlyReads_receives {s t : State} (h : OnlyReads s t) (hc : t.coming = s.coming) : ReceiveFrame s t := by
  obtain ⟨⟨_, _, _, _, _, _, _, _, _, rfl⟩, -⟩ := h
  exact ⟨rfl, ⟨rfl, rfl, rfl⟩, ⟨rfl, rfl, rfl, rfl⟩, hc, rfl⟩

theorem complete_receives {s t : State} (hi : s.Inv) (hq : s.seq.reads = true) (h : s.readRequest = .complete t) :
    ReceiveFrame s t := by
  obtain ⟨h0, hn⟩ := reads_counting hi hq
  obtain ⟨-, _, rfl⟩ := readRequest_completes s t (toNat_pos_iff.1 h0) hn h
  exact onlyReads_receives (readRequest_complete h) (absorb_receives s).coming

theorem expired_receives {s t : State} (hi : s.Inv) (hq : s.seq.reads = true) (h : s.readRequest = .expired t) :
    ReceiveFrame s t := by
  obtain ⟨-, hn⟩ := reads_counting hi hq
  obtain ⟨-, hc, -⟩ := readRequest_expires s t hn h
  exact onlyReads_receives (readRequest_expired h) hc

/-! ### Every step of a busy block -/

theorem stepKind_advances {s t : State} (h : s.Underway) (hb : s.seq ≠ .idle) (hk : StepKind s t) : Advances s t := by
  have ⟨hi, he, _⟩ := h
  have complete {p : SeqState} {t : State} (hq : s.seq = p) (hr : s.readRequest = .complete t)
      (hp : p.reads = true := by decide) : ReceiveFrame s t := complete_receives hi (hq ▸ hp) hr
  have expired {p : SeqState} {t : State} (hq : s.seq = p) (hr : s.readRequest = .expired t)
      (hp : p.reads = true := by decide) : ReceiveFrame s t := expired_receives hi (hq ▸ hp) hr
  cases hk with
  | arrive hq => exact absurd hq hb
  | accept _ _ hq => exact absurd hq hb
  | assertAck _ _ _ hq => exact absurd hq hb
  | setTimeout _ _ hq => exact absurd hq hb
  | firstFlush hq => exact firstFlush_advances h hq
  | sendHeader hq => exact sendHeader_advances h hq
  | sendPayload hq => exact sendPayload_advances h hq
  | sendTrailer hq => exact sendTrailer_advances h hq
  | wait _ hq hr => exact waiting_advances he hq hr
  | ackOk _ hq hr => exact (complete hq hr).goesOn he hq .rxHdr _
  | ackWrong _ hq hr => exact (complete hq hr).goesOn he hq .canTx _
  | ackLate _ hq hr => exact (expired hq hr).goesOn he hq .canTx _
  | headerShort _ hq hr => exact (complete hq hr).goesOn he hq .rxCheck _
  | headerExtended _ hq hr => exact (complete hq hr).goesOn he hq .rxExt _
  | headerWrong _ hq hr => exact (complete hq hr).goesOn he hq .canTx _
  | headerLate _ hq hr => exact (expired hq hr).goesOn he hq .canTx _
  | extendedOk _ hq hr => exact (complete hq hr).goesOn he hq .rxCheck _
  | extendedLate _ hq hr => exact (expired hq hr).goesOn he hq .canTx _
  | checkShort hq => exact (checkLength_receives s _ _).advances he hq (checkLength_seq s _ _)
  | checkExtended hq => exact (checkLength_receives s _ _).advances he hq (checkLength_seq s _ _)
  | payloadOk _ hq _ hr => exact (complete hq hr).goesOn he hq .rxTrailer _
  | payloadLate _ hq _ hr => exact (expired hq hr).goesOn he hq .canTx _
  | trailerRead t hq hr => exact (checkTrailer_receives (complete hq hr)).advances he hq (checkTrailer_seq t)
  | trailerLate _ hq hr => exact (expired hq hr).goesOn he hq .canTx _
  | cancelSend hq => exact sendCancel_advances h hq
  | cancelSleep hq => exact cancelSleep_advances he hq
  | cancelFlush hq => exact cancelFlush_advances he hq
  | deliver hq => exact (deliver_receives s).advances he hq (by simp [seqSuccessors])

/-- A busy block makes a step, and stays under way. -/
theorem busy_step {s : State} (h : s.Underway) (hb : s.seq ≠ .idle) :
    ∃ t, step s = .next t ∧ t.Underway ∧ t.stepsLeft < s.stepsLeft := by
  have ⟨hi, he, hp⟩ := h
  obtain ⟨t, ht⟩ := (onlyReservedCodesStop s hi).resolve_right fun hidle => hb hidle.1
  rcases step_cases ht with ⟨hr, -⟩ | ⟨-, hk⟩
  · rw [he.released] at hr
    cases hr
  · have hn : s.nextCycle.Underway := ⟨hi, ⟨he.released, he.flushes, he.accepts, he.clock⟩, hp⟩
    obtain ⟨henv, hsupplied, hfewer⟩ := stepKind_advances hn hb hk
    exact ⟨t, ht, ⟨stepKeepsTheInvariant s t hi ht, henv, hsupplied⟩, hfewer⟩

/-! ### The Result -/

/-- The Results that SENDRAW may give (R172). -/
def IsSendRawResult (r : Result) : Prop := r = .success ∨ r = .failed ∨ r = .noAck ∨ r = .invalid

theorem pend_isSendRawResult {s : State} (hi : s.Inv) (hq : s.seq = .done) : IsSendRawResult s.hid.pend := by
  obtain ⟨-, hs⟩ := hi
  simp only [State.seqInv, hq] at hs
  exact hs.symm.imp_left fun ⟨hp, _⟩ => hp

theorem idle_successor {q : SeqState} (h : .idle ∈ seqSuccessors q) : q = .done := by
  revert h
  cases q <;> decide

/-- A busy block that comes to IDLE delivers a Result. -/
theorem busy_step_ends {s t : State} (h : s.Underway) (hb : s.seq ≠ .idle) (ht : step s = .next t)
    (hq : t.seq = .idle) : ∃ r, t.done = some r ∧ IsSendRawResult r := by
  obtain ⟨hi, he, -⟩ := h
  have hdone : s.seq = .done := by
    rcases sequencerFollowsTheTable s t he.released ht with hs | hs
    · exact absurd (hs.symm.trans hq) hb
    · exact idle_successor (hq ▸ hs)
  rw [step_done s he.released hdone] at ht
  cases ht
  exact ⟨_, deliver_done _, pend_isSendRawResult (s := s.nextCycle) hi hdone⟩

/-! ### The end -/

theorem underway_ends {n : Nat} {s : State} (h : s.Underway) (hb : s.seq ≠ .idle) (hn : s.stepsLeft ≤ n) :
    ∃ t r, s.reaches n t ∧ t.seq = .idle ∧ t.done = some r ∧ IsSendRawResult r := by
  induction n generalizing s with
  | zero =>
    obtain ⟨_, -, -, hfewer⟩ := busy_step h hb
    omega
  | succ n ih =>
    obtain ⟨u, hu, hway, hfewer⟩ := busy_step h hb
    by_cases hq : u.seq = .idle
    · obtain ⟨r, hdone, hres⟩ := busy_step_ends h hb hu hq
      exact ⟨u, r, reaches_step hu (reaches_refl n u), hq, hdone, hres⟩
    · obtain ⟨t, r, hrun, hend⟩ := ih hway hq (by omega)
      exact ⟨t, r, reaches_step hu hrun, hend⟩

theorem stepsLeft_le (s : State) : s.stepsLeft ≤ s.coming.length + 30 := by
  have h14 : s.seq.toGo ≤ 14 := by cases s.seq <;> decide
  unfold State.stepsLeft
  split <;> omega

/-- Settles O53: each step of a busy block lowers the bound on the steps that are left. -/
theorem everySendRawEnds : Obligations.EverySendRawEnds := by
  intro s hi he hp hb
  exact underway_ends ⟨hi, he, hp⟩ ((busy_iff s).1 hb) (stepsLeft_le s)

end Sys2Proof.Machine
end

section
/-! The big step and the small step of SENDRAW: from each state of the receive part, with nothing more to arrive, the
block ends as DECODE on the script of the bytes that are there says. -/

namespace Sys2Proof.Machine

/-! ### Ending as a reception says -/

/-- All events of a reception: those of its reads, then those of the cancel sequence if it runs. -/
def Reception.trace (x : Reception) : List Event := x.events ++ if x.cancel then cancelEvents else []

theorem after_trace (x : Reception) (e : List Event) : (x.after e).trace = e ++ x.trace := List.append_assoc _ _ _

/-- `t` is `s` after the rest of a SENDRAW that ends as `x` says. -/
structure Delivers (x : Reception) (s t : State) : Prop where
  seq : t.seq = .idle
  result : t.done = some x.result
  trace : t.trace = x.trace.reverse ++ s.trace
  left : t.rx = x.left
  timeout : t.timeout = s.timeout
  host : s.sameHost t
  payload : x.result = .success → t.rxlen.toNat = x.payload.length ∧ t.rxBytes x.payload.length = x.payload

/-- In at most `n` steps the block ends as `x` says. -/
def State.endsAs (n : Nat) (s : State) (x : Reception) : Prop := ∃ t, s.reaches n t ∧ Delivers x s t

/-- A step of the receive part that adds the events `e` comes before the end. -/
theorem endsAs_step {n m : Nat} {s u : State} {x : Reception} {e : List Event} (hs : step s = .next u)
    (hf : ReceiveFrame s u) (ht : u.trace = e.reverse ++ s.trace) (h : u.endsAs n x) (hm : n + 1 ≤ m) :
    s.endsAs m (x.after e) := by
  obtain ⟨t, hrun, hseq, hresult, htrace, hleft, htimeout, ⟨hops, hpl, hrst⟩, hpayload⟩ := h
  obtain ⟨htimeout', ⟨hops', hpl', hrst'⟩, -⟩ := hf
  refine ⟨t, reaches_mono (reaches_step hs hrun) hm, hseq, hresult, ?_, hleft, htimeout.trans htimeout',
    ⟨hops.trans hops', hpl.trans hpl', hrst.trans hrst'⟩, hpayload⟩
  rw [htrace, ht, after_trace, List.reverse_append, List.append_assoc]

theorem endsAs_event {n m : Nat} {s u : State} {x : Reception} {e : Event} (hs : step s = .next u)
    (hf : ReceiveFrame s u) (ht : u.trace = e :: s.trace) (h : u.endsAs n x) (hm : n + 1 ≤ m := by decide) :
    s.endsAs m (x.after [e]) :=
  endsAs_step (e := [e]) hs hf ht h hm

theorem endsAs_silent {n m : Nat} {s u : State} {x : Reception} (hs : step s = .next u) (hf : ReceiveFrame s u)
    (ht : u.trace = s.trace) (h : u.endsAs n x) (hm : n + 1 ≤ m := by decide) : s.endsAs m x :=
  endsAs_step (e := []) hs hf ht h hm

/-! ### Where the receive part stands -/

/-- The block is in state `q` of the receive part with the bytes `rx` in front of it, and nothing more is to come. -/
structure Scripted (s : State) (q : SeqState) (rx : List Byte) : Prop where
  receiving : Receiving s q rx
  env : s.EnvReady
  quiet : s.coming = []

theorem Scripted.next {s t : State} {q r : SeqState} {rx left : List Byte} (h : Scripted s q rx)
    (hf : ReceiveFrame s t) (hq : t.seq = r) (hx : t.rx = left) : Scripted t r left :=
  ⟨h.receiving.next hf hq hx, hf.envReady h.env, hf.coming.trans h.quiet⟩

/-- A read request for `n` bytes has just been opened. -/
structure Opened (s : State) (q : SeqState) (n : Nat) (rx : List Byte) : Prop where
  scripted : Scripted s q rx
  count : s.readCount = n
  due : s.hid.cnt.toNat = n
  start : s.hid.t0 = s.now

theorem Scripted.opens {s u : State} {q r : SeqState} {n : Nat} {rx left : List Byte} (h : Scripted s q rx)
    (hf : ReceiveFrame s u) (hx : u.rx = left) (hcount : (u.startRead r n).readCount = n) (hn : n ≤ 65535) :
    Opened (u.startRead r n) r n left :=
  ⟨h.next (hf.control r _ u.rx) rfl hx, hcount, toNat_ofNat_length hn, rfl⟩

/-- A request that finds its bytes there completes with them, and they are its event. -/
theorem opened_reads {s : State} {q : SeqState} {n : Nat} {b r : List Byte} (h : Opened s q n (b ++ r))
    (hb : b.length = n) (h0 : 0 < n) :
    ∃ u, s.nextCycle.readRequest = .complete u ∧ s.hid.cnt ≠ 0 ∧ s.hid.cnt.toNat ≤ s.readCount ∧
      s.gathered ++ s.rx.take s.hid.cnt.toNat = b ∧ u.rx = r ∧ u.trace = .readOk n b :: s.trace ∧
      ReceiveFrame s u := by
  obtain ⟨⟨hat, -, -⟩, hcount, hdue, -⟩ := h
  obtain ⟨u, hu, hne, hle, hbytes, hx, hf⟩ := opened_completes hat (hcount.trans hb.symm) (hdue.trans hb.symm)
    (List.length_pos_iff.1 (by rwa [hb]))
  obtain ⟨-, -, htrace, -⟩ := complete_keeps (s := s.nextCycle) hne hle hu
  exact ⟨u, hu, hne, hle, hbytes, hx, by rw [htrace, ← hbytes, ← hcount]; rfl, hf⟩

/-! ### DONE and the cancel sequence -/

theorem done_endsAs {s : State} {r : Result} {rx : List Byte} (h : Receiving s .done rx) (hp : s.hid.pend = r)
    (hr : r ≠ .success) : s.endsAs 1 ⟨r, false, [], rx, []⟩ := by
  obtain ⟨hrst, -, hq, hx⟩ := h
  exact ⟨_, reaches_step (step_done s hrst hq) (reaches_refl 0 _), deliver_seq _,
    (deliver_done _).trans (congrArg some hp), deliver_trace _, (deliver_rx _).trans hx, deliver_timeout _,
    (deliver_receives s.nextCycle).host, fun hs => absurd hs hr⟩

theorem success_endsAs {s : State} {p rx : List Byte} (h : Receiving s .done rx) (hp : s.hid.pend = .success)
    (hl : p.length ≤ 265) (hin : PayloadIn s p) : s.endsAs 1 ⟨.success, false, p, rx, []⟩ := by
  obtain ⟨t, hs, hseq, hdone, hrxlen, hbytes, hx, htimeout, hhost⟩ := receiving_success h hl hp hin
  have htrace : t.trace = s.trace := by
    rw [step_done s h.released h.seq] at hs
    cases hs
    exact deliver_trace _
  exact ⟨t, reaches_step hs (reaches_refl 0 t), hseq, hdone, htrace, hx, htimeout, hhost, fun _ => ⟨hrxlen, hbytes⟩⟩

/-- With nothing to arrive, the sleep of the cancel sequence is one wait. -/
theorem cancel_quiet {s : State} (he : s.EnvReady) (hq : s.seq = .canTx) (hc : s.hid.cnt = 6)
    (hcoming : s.coming = []) : ∃ now, s.reaches 4 (s.cancelled s.rx [] now) := by
  obtain ⟨hr, hflush, hroom, hclock⟩ := he
  have hearly : ¬s.cancelSent.elapsedReached Config.sleepTicks = true := by
    simp [State.elapsedReached, State.elapsed, State.cancelSent, State.handed, Config.sleepTicks]
  have hwait := step_sleepWaits (s := s.cancelSent) hr rfl hearly
  rw [waitUntil_quiet (s := s.cancelSent.nextCycle) _ hcoming, nextCycle_clockRuns,
    if_pos (show s.cancelSent.clockRuns = true from hclock)] at hwait
  have hslept := reaches_step (step_cancelSend hr hroom hq hc)
    (reaches_step hwait (sleep_over_reaches 0 hr rfl (sleep_over_at_end rfl)))
  have hdone := reaches_then hslept (step_cancelFlush hr rfl hflush)
  refine ⟨s.now + Config.sleepTicks, ?_⟩
  rw [← hcoming]
  exact hdone

/-- Behind an event that is no write, the cancel frame is a write of its own. -/
theorem fail_endsAs {m : Nat} {s u : State} {q : SeqState} {e : Event} {r : Result} {rx : List Byte}
    (h : Scripted s q rx) (hf : ReceiveFrame s u) (hs : step s = .next (u.fail r true)) (ht : u.trace = e :: s.trace)
    (he : addWrite fixedFrame (e :: s.trace) = .write fixedFrame :: e :: s.trace) (hr : r ≠ .success)
    (hm : 6 ≤ m := by decide) : s.endsAs m ⟨r, true, [], u.rx, [e]⟩ := by
  have hf' := hf.control .canTx { u.hid with pend := r, cnt := 6 } u.rx
  have hat : Scripted (u.fail r true) .canTx u.rx := h.next hf' rfl rfl
  obtain ⟨now, hcancel⟩ := cancel_quiet hat.env rfl rfl hat.quiet
  have hdone : Receiving ((u.fail r true).cancelled u.rx [] now) .done u.rx :=
    ⟨hat.receiving.released, hat.receiving.timeout_ne, rfl, rfl⟩
  obtain ⟨t, hrun, hseq, hresult, htrace, hleft, htimeout, ⟨hops, hpl, hrst⟩, -⟩ := done_endsAs hdone rfl hr
  obtain ⟨htimeout', ⟨hops', hpl', hrst'⟩, -⟩ := hf
  refine ⟨t, reaches_mono (reaches_step hs (reaches_trans hcancel hrun)) hm, hseq, hresult, ?_, hleft,
    htimeout.trans htimeout', ⟨hops.trans hops', hpl.trans hpl', hrst.trans hrst'⟩, fun hs => absurd hs hr⟩
  have hwrite : addWrite fixedFrame u.trace = .write fixedFrame :: e :: s.trace := by rw [ht, he]
  exact htrace.trans (congrArg (fun tr => Event.flush :: Event.sleep 1 :: tr) hwrite)

/-! ### A read that does not get its bytes -/

/-- The Result of a read request that times out, in each of the five states (R131, R133, R136, R141, R142). -/
def SeqState.lateResult : SeqState → Result
  | .rxAck => .noAck
  | .rxHdr => .failed
  | .rxPayload => .failed
  | _ => .invalid

theorem lateResult_ne_success (q : SeqState) : q.lateResult ≠ .success := by cases q <;> decide

theorem step_expired {s u : State} (hr : s.rst = false) (hq : s.seq.reads = true)
    (hd : s.seq = .rxPayload → s.hid.dlen.toNat ≤ 265) (h : s.nextCycle.readRequest = .expired u) :
    step s = .next (u.fail s.seq.lateResult true) := by
  obtain ⟨hfail, -⟩ := expiredReadsFailWithCancel s u hr
  obtain ⟨hack, hhdr, hext, hpayload, htrailer⟩ := hfail h
  rcases reads_cases hq with hp | hp | hp | hp | hp
  · rw [hack hp, hp]; rfl
  · rw [hhdr hp, hp]; rfl
  · rw [hext hp, hp]; rfl
  · rw [hpayload hp (hd hp), hp]; rfl
  · rw [htrailer hp, hp]; rfl

/-- With nothing to arrive, a request waits once, to the end of its time, with all the bytes that were there. -/
theorem opened_waits {s : State} {q : SeqState} {n : Nat} {rx : List Byte} (h : Opened s q n rx)
    (hq : q.reads = true) (hd : q = .rxPayload → n ≤ 265) (hl : rx.length < n) :
    ∃ w, step s = .next w ∧ w.seq = q ∧ w.readCount = n ∧ w.hid.cnt.toNat = n - rx.length ∧ w.rx = [] ∧
      w.trace = s.trace ∧ w.elapsedReached w.timeout = true ∧ ReceiveFrame s w := by
  obtain ⟨⟨⟨hrst, ht, rfl, rfl⟩, he, hquiet⟩, hcount, hdue, hstart⟩ := h
  have hdlen : s.seq = .rxPayload → s.hid.dlen.toNat ≤ 265 := fun hp => by
    rw [← readCount_rxPayload hp, hcount]
    exact hd hp
  have hearly : (s.now - s.hid.t0).toNat < s.timeout.toNat := by
    have h0 : s.timeout.toNat ≠ 0 := fun h0 => ht (BitVec.eq_of_toNat_eq h0)
    rw [hstart, BitVec.sub_self]
    exact Nat.pos_of_ne_zero h0
  obtain ⟨w, hs, hseq, -, hcnt, ht0, hdlen', -, -, htrace, -, -, htimeout, hhost, htx, hclock, hend, -⟩ :=
    readsWaitUntilTheirTime s hrst hq (by omega) hdlen ht (by omega) hearly
  obtain ⟨hx, hcoming, hnow⟩ := hend hquiet
  rw [if_pos he.clock] at hnow
  refine ⟨w, hs, hseq, ?_, by rw [hcnt, hdue], hx, htrace, elapsedReached_at_end (by rw [hnow, ht0, htimeout]),
    ⟨htimeout, hhost, htx, hcoming.trans hquiet.symm, hclock⟩⟩
  rw [← hcount]
  simp only [State.readCount, hseq, hdlen']

/-- A request with bytes missing at the end of its time has lost those that it had taken. -/
theorem late_step {s : State} {r : Nat} (hrst : s.rst = false) (hq : s.seq.reads = true)
    (hd : s.seq = .rxPayload → s.hid.dlen.toNat ≤ 265) (ht : s.timeout ≠ 0) (hx : s.rx = [])
    (hc : s.hid.cnt.toNat = s.readCount - r) (hr : r < s.readCount) (he : s.elapsedReached s.timeout = true) :
    ∃ u, step s = .next (u.fail s.seq.lateResult true) ∧ u.rx = [] ∧
      u.trace = .readTimeout s.readCount r :: s.trace ∧ ReceiveFrame s u := by
  have hshort : s.rx.length < s.hid.cnt.toNat := by
    rw [hx, List.length_nil]
    omega
  have hu := readRequest_late s.nextCycle ht hshort he
  refine ⟨_, step_expired hrst hq hd hu, ?_, ?_, ?_⟩
  · exact absorb_rx_short (s := s.nextCycle) hshort
  · have hlost : s.readCount - s.hid.cnt.toNat + s.rx.length = r := by
      rw [hx, List.length_nil]
      omega
    exact (absorb_readLost_trace (s := s.nextCycle) (show s.hid.cnt.toNat ≤ s.readCount by omega) hshort).trans
      (by rw [← hlost]; rfl)
  · exact (receiveFrame_nextCycle s).trans
      (onlyReads_receives (readRequest_expired hu) (absorb_receives s.nextCycle).coming)

theorem late_endsAs {n m : Nat} {s : State} {q : SeqState} {rx : List Byte} (h : Opened s q n rx)
    (hl : rx.length < n) (hq : q.reads = true) (hd : q = .rxPayload → n ≤ 265) (hm : 7 ≤ m := by decide) :
    s.endsAs m (scriptShort q.lateResult n rx) := by
  obtain ⟨w, hs, rfl, rfl, hcnt, hx, htrace, hover, hf⟩ := opened_waits h hq hd hl
  have hat := h.scripted.next hf rfl hx
  obtain ⟨u, hs', hx', htrace', hf'⟩ := late_step hat.receiving.released hq
    (fun hp => by rw [← readCount_rxPayload hp]; exact hd hp) hat.receiving.timeout_ne hx hcnt hl hover
  have hend := fail_endsAs hat hf' hs' htrace' rfl (lateResult_ne_success _) (Nat.le_refl 6)
  rw [hx'] at hend
  exact endsAs_silent hs hf htrace hend hm

/-! ### The trailer and the payload -/

theorem exists_first {n : Nat} {rx : List Byte} (h : n ≤ rx.length) : ∃ b r, rx = b ++ r ∧ b.length = n :=
  ⟨rx.take n, rx.drop n, (List.take_append_drop n rx).symm, by rw [List.length_take, Nat.min_eq_left h]⟩

theorem trailer_endsAs {s : State} {p rx : List Byte} (h : Opened s .rxTrailer 2 rx) (hin : PayloadIn s p)
    (hp : p.length ≤ 265) : s.endsAs 7 (scriptTrailer p rx) := by
  match rx, h with
  | [], h => exact late_endsAs h (by simp) rfl (by simp)
  | [_], h => exact late_endsAs h (by simp) rfl (by simp)
  | t0 :: t1 :: r, h =>
    obtain ⟨u, hu, hne, hle, hb, rfl, htrace, hf⟩ := opened_reads (b := [t0, t1]) h rfl (by decide)
    obtain ⟨hat, -, hdue, -⟩ := h
    have hs := step_trailer_complete hat.receiving.released hat.receiving.seq hne hle hu hb
    rw [hin.rsum] at hs
    rw [scriptTrailer]
    split
    · next hok =>
      rw [if_pos hok] at hs
      obtain ⟨rfl, rfl⟩ := (trailerOk_iff _ _ _).1 hok
      obtain ⟨t, ht, hdone, hpend, hin', hf'⟩ := receiving_trailer hat.receiving (BitVec.eq_of_toNat_eq hdue) hin
      have htrace' : t.trace = .readOk 2 [cks p, 0x00] :: s.trace := by
        rw [hs] at ht
        cases ht
        exact htrace
      have hend := success_endsAs hdone hpend hp hin'
      exact endsAs_event ht hf' htrace' hend
    · next hok =>
      rw [if_neg hok] at hs
      exact fail_endsAs hat hf hs htrace rfl (by decide)

theorem payload_endsAs {s : State} {n : Nat} {rx : List Byte} (h : Opened s .rxPayload n rx) (h0 : 0 < n)
    (hn : n ≤ 265) (hsum : s.hid.rsum = 0) : s.endsAs 8 (scriptPayload n rx) := by
  by_cases hl : rx.length < n
  · rw [scriptPayload, if_pos hl]
    exact late_endsAs h hl rfl fun _ => hn
  · obtain ⟨p, r, rfl, rfl⟩ := exists_first (Nat.le_of_not_lt hl)
    obtain ⟨u, hu, -, -, -, hx, htrace, hf⟩ := opened_reads h rfl h0
    obtain ⟨hat, hcount, hdue, -⟩ := h
    have hdlen : s.hid.dlen.toNat = p.length := (readCount_rxPayload hat.receiving.seq).symm.trans hcount
    obtain ⟨t, hs, -, -, hin, -⟩ := receiving_payload hat.receiving hn (List.length_pos_iff.1 h0) hdlen
      (BitVec.eq_of_toNat_eq (hdue.trans hdlen.symm)) hsum
    obtain rfl : t = u.startRead .rxTrailer 2 := by
      rw [step_rxPayload s hat.receiving.released hat.receiving.seq,
        receivePayload_complete (s := s.nextCycle) (by simp [hdlen, hn]) hu] at hs
      cases hs
      rfl
    have hend := trailer_endsAs (hat.opens hf hx rfl (by decide)) hin hn
    have hf' := hf.control .rxTrailer { u.hid with cnt := 2, t0 := u.now } u.rx
    rw [scriptPayload, if_neg hl, List.take_left, List.drop_left, if_neg (by omega)]
    exact endsAs_event hs hf' htrace hend

/-! ### RX_CHECK -/

theorem check_endsAs {s : State} {field : List Byte} {dlen : Length} {rx : List Byte} (h : Scripted s .rxCheck rx)
    (hs : step s = .next (s.nextCycle.checkLength field dlen)) :
    s.endsAs 9 (scriptLength field dlen.toNat rx) := by
  have hf := (receiveFrame_nextCycle s).trans (checkLength_receives s.nextCycle field dlen)
  have hx : s.nextCycle.rx = rx := h.receiving.stream
  have hfail : ∀ (r : Result) (hid : Hidden), hid.pend = r → r ≠ .success →
      s.nextCycle.checkLength field dlen = { s.nextCycle with seq := .done, hid := hid } →
      s.endsAs 9 ⟨r, false, [], rx, []⟩ := by
    intro r hid hp hr hc
    rw [hc] at hs hf
    have hend := done_endsAs (h.next hf rfl hx).receiving hp hr
    exact endsAs_silent hs hf rfl hend
  by_cases hsum : lengthChecksumOk field = true
  · rw [scriptLength_good _ _ hsum]
    rw [checkLength_good _ hsum] at hs hf hfail
    split
    · next hn => exact hfail .failed _ rfl (by decide) (acceptLength_above hn)
    · next hn =>
      have hn := Nat.le_of_not_lt hn
      by_cases h0 : dlen = 0
      · subst h0
        rw [acceptLength_zero] at hs hf
        have hopen : Opened { s.nextCycle with
            seq := .rxTrailer, hid := { s.hid with dlen := 0, rsum := 0, cnt := 2, t0 := s.now } } .rxTrailer 2 rx :=
          ⟨h.next hf rfl hx, rfl, rfl, rfl⟩
        have hend := trailer_endsAs (p := []) hopen ⟨rfl, rfl, fun j hj => absurd hj (Nat.not_lt_zero j)⟩ (by simp)
        exact endsAs_silent hs hf rfl hend
      · have hpos := toNat_pos_of_ne_zero h0
        rw [acceptLength_payload hn hpos] at hs hf
        have hend := payload_endsAs ⟨h.next hf rfl hx, rfl, rfl, rfl⟩ hpos hn rfl
        exact endsAs_silent hs hf rfl hend
  · rw [scriptLength, if_pos (Bool.eq_false_iff.2 hsum)]
    exact hfail .invalid _ rfl (by decide) (checkLength_bad _ hsum)

theorem check_short_endsAs {s : State} {len lcs : Byte} {rx : List Byte} (h : Scripted s .rxCheck rx)
    (hframe : rxFrame s.hid.hdr = .dataShort len lcs) : s.endsAs 9 (scriptLength [len, lcs] len.toNat rx) := by
  obtain ⟨hr, -, hq, -⟩ := h.receiving
  rw [← shortLength_toNat]
  exact check_endsAs h (by rw [step_check_frame hr hq, hframe, exec_dataShort_rxCheck (s := s.nextCycle) len lcs hq])

theorem check_extended_endsAs {s : State} {e0 e1 e2 : Byte} {rx : List Byte} (h : Scripted s .rxCheck rx)
    (hframe : rxFrame s.hid.hdr = .dataExt e0 e1 e2) :
    s.endsAs 9 (scriptLength [e0, e1, e2] (256 * e0.toNat + e1.toNat) rx) := by
  obtain ⟨hr, -, hq, -⟩ := h.receiving
  rw [← extLength_toNat]
  exact check_endsAs h (by rw [step_check_frame hr hq, hframe, exec_dataExt_rxCheck (s := s.nextCycle) e0 e1 e2 hq])

/-! ### The header and the ACK frame -/

theorem extended_endsAs {s : State} {rx : List Byte} (h : Opened s .rxExt 3 rx)
    (h5 : s.hid.hdr.bytes.take 5 = [0x00, 0x00, 0xFF, 0xFF, 0xFF]) : s.endsAs 10 (scriptExtended rx) := by
  match rx, h with
  | [], h => exact late_endsAs h (by simp) rfl (by simp)
  | [_], h => exact late_endsAs h (by simp) rfl (by simp)
  | [_, _], h => exact late_endsAs h (by simp) rfl (by simp)
  | e0 :: e1 :: e2 :: r, h =>
    obtain ⟨u, hu, hne, hle, hb, rfl, htrace, hf⟩ := opened_reads (b := [e0, e1, e2]) h rfl (by decide)
    obtain ⟨hat, -⟩ := h
    obtain ⟨hr, -, hq, -⟩ := hat.receiving
    have hs := step_extended_complete hr hq hu
    have hframe : rxFrame u.hid.hdr = .dataExt e0 e1 e2 :=
      complete_extended (s := s.nextCycle) hq hne hle hu h5 hb
    have hf := hf.control .rxCheck u.hid u.rx
    have hend := check_extended_endsAs (hat.next hf rfl rfl) hframe
    exact endsAs_event hs hf htrace hend

theorem scriptHeader_five (h0 h1 h2 h3 h4 : Byte) (r : List Byte) :
    scriptHeader ([h0, h1, h2, h3, h4] ++ r) = Reception.after
      (if preambleOk h0 h1 h2 = false then ⟨.invalid, true, [], r, []⟩
      else if extMarker h3 h4 = true then scriptExtended r else scriptLength [h3, h4] h3.toNat r)
      [.readOk 5 [h0, h1, h2, h3, h4]] := rfl

theorem header_five_endsAs {s : State} {h0 h1 h2 h3 h4 : Byte} {r : List Byte}
    (h : Opened s .rxHdr 5 ([h0, h1, h2, h3, h4] ++ r)) :
    s.endsAs 11 (scriptHeader ([h0, h1, h2, h3, h4] ++ r)) := by
  obtain ⟨u, hu, hne, hle, hb, rfl, htrace, hf⟩ := opened_reads h rfl (by decide)
  obtain ⟨hat, -⟩ := h
  obtain ⟨hr, -, hq, -⟩ := hat.receiving
  have hs := step_header_complete hr hq hne hle hu hb
  obtain ⟨rfl, rfl, rfl, rfl, rfl⟩ := complete_five (s := s.nextCycle) hq hne hle hu hb
  rw [scriptHeader_five]
  split at hs
  · next hp =>
    rw [if_pos hp]
    exact fail_endsAs (r := .invalid) hat hf hs htrace rfl (by decide)
  · next hp =>
    rw [if_neg hp]
    split at hs
    · next hm =>
      obtain ⟨e0, e1, e2⟩ := (preambleOk_iff _ _ _).1 (by simpa using hp)
      obtain ⟨e3, e4⟩ := (extMarker_iff _ _).1 hm
      have hend := extended_endsAs (hat.opens hf rfl rfl (by decide))
        (by rw [startRead_hdr, take_five, e0, e1, e2, e3, e4])
      have hf := hf.control .rxExt { u.hid with cnt := 3, t0 := u.now } u.rx
      rw [if_pos hm]
      exact endsAs_event hs hf htrace hend
    · next hm =>
      have hf := hf.control .rxCheck u.hid u.rx
      have hend := check_short_endsAs (hat.next hf rfl rfl) (rxFrame_short (mt (extMarker_iff _ _).2 hm))
      rw [if_neg hm]
      exact endsAs_event hs hf htrace hend

theorem header_endsAs {s : State} {rx : List Byte} (h : Opened s .rxHdr 5 rx) : s.endsAs 11 (scriptHeader rx) := by
  by_cases hl : rx.length < 5
  · rw [scriptHeader_short hl]
    exact late_endsAs h hl rfl (by simp)
  · obtain ⟨b, r, rfl, hb⟩ := exists_first (Nat.le_of_not_lt hl)
    match b, hb with
    | [_, _, _, _, _], _ => exact header_five_endsAs h

theorem ack_endsAs {s : State} {rx : List Byte} (h : Opened s .rxAck 6 rx) : s.endsAs 12 (scriptDecode rx) := by
  by_cases hl : rx.length < 6
  · rw [scriptDecode_short hl]
    exact late_endsAs h hl rfl (by simp)
  · obtain ⟨a, r, rfl, ha⟩ := exists_first (Nat.le_of_not_lt hl)
    obtain ⟨u, hu, hne, hle, hb, rfl, htrace, hf⟩ := opened_reads h ha (by decide)
    obtain ⟨hat, -⟩ := h
    have hs := step_ack_complete hat.receiving.released hat.receiving.seq hne hle hu
    rw [hb] at hs
    split at hs
    · next hfix =>
      subst hfix
      have hend := header_endsAs (hat.opens hf rfl rfl (by decide))
      have hf := hf.control .rxHdr { u.hid with cnt := 5, t0 := u.now } u.rx
      rw [scriptDecode_ack]
      exact endsAs_event hs hf htrace hend
    · next hfix =>
      rw [scriptDecode_wrong _ ha hfix]
      exact fail_endsAs hat hf hs htrace rfl (by decide)

/-! ### The whole SENDRAW -/

theorem scriptTrace_eq (p rx : List Byte) :
    scriptTrace p rx = [.flush, .write (frame p)] ++ (scriptDecode rx).trace := List.append_assoc _ _ _

/-- Settles O52: the frame goes out and the ACK read is opened; from there the block ends as the script says. -/
theorem bigStepAndSmallStepAgree : Obligations.BigStepAndSmallStepAgree := by
  intro q more a rest s he hq ht hcoming ho hl hpl
  have hopened : Opened (s.ackOpened q more rest) .rxAck 6 s.rx :=
    ⟨⟨receiving_ackOpened q more rest he ht, ⟨he.released, he.flushes, he.accepts, he.clock⟩, hcoming⟩, rfl, rfl, rfl⟩
  obtain ⟨t, hrun, hseq, hresult, htrace, hleft, htimeout, ⟨hops, hmore, -⟩, hpayload⟩ := ack_endsAs hopened
  refine ⟨t, reaches_mono (reaches_trans (sendRaw_reaches_ack he hq ho hl hpl) hrun) (by decide), hseq, hresult, ?_,
    hleft, hops, hmore, htimeout, hpayload⟩
  rw [htrace, scriptTrace_eq, List.reverse_append, List.append_assoc]
  rfl

end Sys2Proof.Machine
end

section
/-! A read request under TIMEOUT = 0: it never waits; the free value decides, then the bytes that are there. -/

namespace Sys2Proof.Machine

/-- The counterpart of `readRequest_timed` under TIMEOUT = 0 (R223): the free value of log entry 10 stands where the clock
does there, and is asked first. -/
theorem readRequest_zeroTimeout (s : State) (ht : s.timeout = 0) (hc : s.hid.cnt ≠ 0) :
    s.readRequest =
      if Config.zeroTimeoutExpires s.draw = true then .expired s.zeroExpire.readLost.drawn
      else if s.hid.cnt.toNat ≤ s.rx.length then .complete s.absorb.readDone.drawn
      else .expired s.absorb.readLost.drawn := by
  simp only [State.readRequest, if_neg hc, if_pos ht, State.readZero, absorb_cnt_zero_iff]

/-- Settles O47: a request whose bytes are not all there expires whatever the free value is; for one whose bytes are
waiting the free value decides. -/
theorem zeroTimeoutReadEndsAtOnce : Obligations.ZeroTimeoutReadEndsAtOnce := by
  intro s ht hc
  rw [readRequest_zeroTimeout s ht hc]
  refine ⟨fun hshort => ?_, fun hready => ⟨fun hexpires => ?_, fun hlooks => ?_⟩⟩
  · rw [if_neg (Nat.not_le.2 hshort)]
    split <;> exact ⟨_, rfl⟩
  · rw [if_pos hexpires]
    exact ⟨_, rfl⟩
  · rw [if_neg (Bool.eq_false_iff.1 hlooks), if_pos hready]
    exact ⟨_, rfl⟩

end Sys2Proof.Machine
end

section
/-! Reset, the idle block, and what holds a busy block: an operation that is offered, a flush, a sleep, a write or a
payload byte that is not answered. -/

namespace Sys2Proof.Machine

/-! ### Reset -/

theorem step_reset {s : State} (h : s.rst = true) : step s = .next s.resetBlock := if_pos h

/-- Settles O11: the reset lists no index of RXBUF and writes nothing of the environment. -/
theorem resetAbandonsTheOperation : Obligations.ResetAbandonsTheOperation := by
  intro s h
  exact ⟨s.resetBlock, step_reset h, rfl, rfl, rfl, rfl, fun _ => rfl, rfl, ⟨rfl, rfl, rfl⟩, ⟨rfl, rfl, rfl, rfl⟩,
    ⟨rfl, rfl, rfl, rfl⟩⟩

/-! ### The idle block -/

theorem step_idle_quiet {s : State} (hr : s.rst = false) (hq : s.seq = .idle) (ho : s.ops = []) :
    step s = .next s.nextCycle.arrive := by
  rw [step_idle s hr hq, ho]

/-- An arrival brings a byte or a pulse (log entry 28). -/
theorem arrive_environment (s : State) :
    (s.coming = [] → s.arrive.rx = s.rx ∧ s.arrive.coming = [] ∧ s.arrive.now = s.now) ∧
    (∀ b r, s.coming = .byte b :: r → s.arrive.rx = s.rx ++ [b] ∧ s.arrive.coming = r ∧ s.arrive.now = s.now) ∧
    (∀ r, s.coming = .tick :: r → s.arrive.rx = s.rx ∧ s.arrive.coming = r ∧ s.arrive.now = s.now + 1) := by
  refine ⟨fun h => ?_, fun b r h => ?_, fun r h => ?_⟩
  · simp [State.arrive, h]
  · simp [State.arrive, h]
  · simp [State.arrive, h]

/-- Settles O10: with nothing offered the step is the next arrival, which writes the receive side and the clock only. -/
theorem idleBlockDoesNothing : Obligations.IdleBlockDoesNothing := by
  intro s hr hq ho
  have hs := step_idle_quiet hr hq ho
  have henv := arrive_environment s.nextCycle
  obtain ⟨⟨_, _, _, ha⟩, -⟩ := arrive_spec s.nextCycle
  rw [ha] at hs henv
  exact ⟨_, hs, hq, rfl, rfl, ⟨rfl, rfl, rfl, fun _ => rfl⟩, ⟨rfl, rfl, rfl⟩, ⟨rfl, rfl, rfl, rfl⟩, rfl, rfl, henv⟩

/-! ### Operations offered to a busy block -/

theorem opReady_of_busy {s : State} (h : s.busy = true) : s.opReady = false := by simp [State.opReady, h]

theorem exec_assertAck_busy (r : Result) {s : State} (hq : s.seq ≠ .idle) :
    exec (.assertAck r) s = .refused .busy := by
  rw [exec, execAssertAck]
  split
  · next h => exact absurd h hq
  · rfl

/-- Outside IDLE and SENDRAW's own two parts. -/
theorem exec_sendRaw_busy (n : Length) {s : State} (hq : s.seq ≠ .idle) (hf : s.seq ≠ .txFlush) (hd : s.seq ≠ .done) :
    exec (.sendRaw n) s = .refused .busy := by
  rw [exec, execSendRaw]
  split
  · next h => exact absurd h hq
  · next h => exact absurd h hf
  · next h => exact absurd h hd
  · rfl

/-- Settles O17: a step takes an operation only where `op_ready` is 1, and the three arms refuse in a busy block. -/
theorem operationsAreHeldWhileBusy : Obligations.OperationsAreHeldWhileBusy := by
  refine ⟨fun s => ⟨opReady_of_busy, fun hr hb => (opReady_iff s).2 ⟨hr, (busy_eq_false_iff s).1 hb⟩⟩,
    fun s t _ hb h => ?_, fun s hb => ?_, fun s n rest hr hq ho => ?_⟩
  · rw [step_ops h, opReady_of_busy hb]
    rfl
  · have hq := (busy_iff s).1 hb
    exact ⟨fun r => exec_assertAck_busy r hq, fun v => exec_setTimeout_busy v hq,
      fun hf hd n => exec_sendRaw_busy n hq hf hd⟩
  · exact ⟨_, step_accept hr hq ho, rfl, rfl⟩

/-! ### Writes that hand over nothing -/

theorem write_nil (s : State) : s.write [] = s := by simp [State.write, addWrite]

theorem send_noRoom {s : State} (bytes : List Byte) (h : s.txRoom = some 0) : s.send bytes = s := by
  have ha : s.accepts (s.due bytes).length = 0 := by rw [State.accepts, h]; exact Nat.zero_min _
  rw [State.send, ha, List.take_zero, write_nil]

theorem takePayload_nothing {s : State} (h : s.payloadNow = []) : s.takePayload = s := by
  simp [State.takePayload, h, write_nil, sum8]

theorem sendPayload_nothing {s : State} (hc : s.hid.cnt ≠ 0) (h : s.payloadNow = []) : s.sendPayload = s := by
  rw [State.sendPayload, takePayload_nothing h]
  exact if_neg hc

theorem payloadNow_noRoom {s : State} (h : s.txRoom = some 0) : s.payloadNow = [] := by
  by_contra hne
  obtain ⟨-, -, hroom⟩ := (payloadNow_ne_nil s).1 hne
  exact hroom h

theorem payloadNow_noOffer {s : State} (h : s.pl = []) : s.payloadNow = [] := by
  by_contra hne
  obtain ⟨-, hoffer, -⟩ := (payloadNow_ne_nil s).1 hne
  exact hoffer h

/-! ### A block that is held -/

/-- TX_PAYLOAD takes nothing. -/
theorem step_noPayload {s : State} (hr : s.rst = false) (hq : s.seq = .txPayload) (hc : s.hid.cnt ≠ 0)
    (h : s.payloadNow = []) : step s = .next s.nextCycle := by
  rw [step_txPayload s hr hq, sendPayload_nothing (s := s.nextCycle) hc h]

/-- Every writing state hands over nothing and stays where it is. -/
theorem step_noRoom {s : State} (hr : s.rst = false) (hw : s.seq.writes = true) (hc : s.hid.cnt ≠ 0)
    (h : s.txRoom = some 0) : step s = .next s.nextCycle := by
  have hsend (bytes : List Byte) : s.nextCycle.send bytes = s.nextCycle := send_noRoom bytes h
  have hstays (t : State) : (if s.nextCycle.hid.cnt = 0 then t else s.nextCycle) = s.nextCycle := if_neg hc
  rcases (writes_iff s.seq).1 hw with hq | hq
  · simp only [List.mem_cons, List.not_mem_nil, or_false] at hq
    rcases hq with hq | hq | hq
    · rw [step_txHeader s hr hq, State.sendHeader, hsend, hstays]
    · rw [step_txTrailer s hr hq, State.sendTrailer, hsend, hstays]
    · rw [step_canTx s hr hq, State.sendCancel, hsend, hstays]
  · exact step_noPayload hr hq hc (payloadNow_noRoom h)

/-- A flush that does not complete. -/
theorem step_noFlush {s : State} (hr : s.rst = false) (hq : s.seq = .txFlush ∨ s.seq = .canFlush)
    (h : s.flushDone = false) : step s = .next s.nextCycle := by
  have hn : ¬s.nextCycle.flushDone = true := Bool.eq_false_iff.1 h
  rcases hq with hq | hq
  · rw [step_txFlush s hr hq, State.firstFlush, if_neg hn]
  · rw [step_canFlush s hr hq, State.cancelFlush, if_neg hn]

theorem waitUntil_clockStopped {s : State} (ms : Millis) (hcoming : s.coming = []) (hclock : s.clockRuns = false) :
    s.waitUntil ms = s := by
  rw [State.waitUntil, if_pos hcoming, if_neg (Bool.eq_false_iff.1 hclock)]

/-- A sleep with no pulse to come. -/
theorem step_noPulse {s : State} (hr : s.rst = false) (hq : s.seq = .canSleep) (hcoming : s.coming = [])
    (hclock : s.clockRuns = false) (h : (s.now - s.hid.t0).toNat < 2) : step s = .next s.nextCycle := by
  rw [step_canSleep s hr hq, cancelSleep_waits (s := s.nextCycle) h,
    waitUntil_clockStopped (s := s.nextCycle) _ hcoming hclock]

/-- Settles O48: in each case the part that SEQ runs hands over nothing and leaves SEQ where it is, so that only the
done_valid pulse ends. -/
theorem unansweredEventsHoldTheBlock : Obligations.UnansweredEventsHoldTheBlock := by
  intro s hr
  exact ⟨step_noFlush hr, step_noPulse hr, step_noRoom hr,
    fun hq hc hpl => step_noPayload hr hq hc (payloadNow_noOffer hpl)⟩

end Sys2Proof.Machine
end
